-- ==== Sys2Proof/Word.lean ====
section
/-! DEFINITION. The words of the block: bytes, 5-bit chip-register addresses and line levels
(00_scope.md rule R8, 30_encoding.md rules R51 and R67). -/

namespace Sys2Proof

/-- A byte is 8 bits, bit 7 the most significant (R8). -/
abbrev Byte := BitVec 8

/-- A chip register address, the 5-bit field of a register-form command byte (R51). -/
abbrev RegAddr := BitVec 5

/-- A line level: 0 is low, 1 is high (R67). -/
inductive Level where
  | low
  | high
  deriving DecidableEq, Repr

end Sys2Proof
end

