-- ==== Sys2Proof/Config.lean ====
section
/-! DEFINITION. The implementation parameters of 00_scope.md rule R7: constants of one instance of the
block. They are carried symbolically (92_eei_decisions.md D11): a claim about every state is a claim
about every choice of them. `Params.default` is the default column of R7's table. -/

namespace Sys2Proof

/-- STATUS mask "retransmit limit reached": bit 4 (R7, R54; a value of the source). -/
def maskMaxRt : Byte := 0x10#8

/-- STATUS mask "data sent": bit 5 (R7, R54; a value of the source). -/
def maskTxDs : Byte := 0x20#8

/-- STATUS mask "data ready": bit 6 (R7, R54; a value of the source). -/
def maskRxDr : Byte := 0x40#8

/-- Top of the source's register address range 0x00 to 0x17 (R43, R64). -/
def lastRegAddr : Nat := 0x17

/-- The parameters of R7, one field a row of its table, in the table's order. -/
structure Params where
  opRRegister  : Byte
  opWRegister  : Byte
  opRRxPayload : Byte
  opWTxPayload : Byte
  opFlushTx    : Byte
  opFlushRx    : Byte
  opNop        : Byte
  aConfig      : RegAddr
  aEnAa        : RegAddr
  aSetupRetr   : RegAddr
  aRfCh        : RegAddr
  aRfSetup     : RegAddr
  aStatus      : RegAddr
  aRxAddrP0    : RegAddr
  aTxAddr      : RegAddr
  aFifoStatus  : RegAddr
  mEnCrc       : Byte
  mCrc2B       : Byte
  mPwrUp       : Byte
  mPrimTx      : Byte
  mRfPwr       : Byte
  rate         : Vector Byte 2
  pwr          : Vector Byte 4
  mEnaaP0      : Byte
  dummy        : Byte
  pattern      : Vector Byte 5
  nMax         : Nat
  /-- Erratum switch: a buffer read leaves chip-select low (R83, R214; D7). -/
  rbufCloseLow : Bool
  /-- Bytes sent after the flush-TX command byte inside the same bracket (R91; D8). -/
  flushTrailer : List Byte
  resetCsn     : Level
  resetCe      : Level
  deriving DecidableEq, Repr

/-- The default column of R7's table (PRESUMED by the spec itself from the nRF24L01 family, G1 to G6,
G9, G10; the last four are D6, D7, D8 and D5): log entry 1. -/
def Params.default : Params where
  opRRegister  := 0x00#8
  opWRegister  := 0x20#8
  opRRxPayload := 0x61#8
  opWTxPayload := 0xA0#8
  opFlushTx    := 0xE1#8
  opFlushRx    := 0xE2#8
  opNop        := 0xFF#8
  aConfig      := 0x00#5
  aEnAa        := 0x01#5
  aSetupRetr   := 0x04#5
  aRfCh        := 0x05#5
  aRfSetup     := 0x06#5
  aStatus      := 0x07#5
  aRxAddrP0    := 0x0A#5
  aTxAddr      := 0x10#5
  aFifoStatus  := 0x17#5
  mEnCrc       := 0x08#8
  mCrc2B       := 0x04#8
  mPwrUp       := 0x02#8
  mPrimTx      := 0x00#8
  mRfPwr       := 0x06#8
  rate         := #v[0x00#8, 0x08#8]
  pwr          := #v[0x00#8, 0x02#8, 0x04#8, 0x06#8]
  mEnaaP0      := 0x01#8
  dummy        := 0x00#8
  pattern      := #v[0x6E#8, 0x52#8, 0x46#8, 0x32#8, 0x34#8]
  nMax         := 32
  rbufCloseLow := false
  flushTrailer := []
  resetCsn     := .high
  resetCe      := .low

/-- The five fixed command bytes of R53, in the order of its table. -/
def Params.fixedCommands (p : Params) : List Byte :=
  [p.opRRxPayload, p.opWTxPayload, p.opFlushTx, p.opFlushRx, p.opNop]

/-- R7's constraints: the low five bits of the two register opcodes are 0, the seven opcodes are pairwise
different, and no fixed command byte is a register-form byte (it is one exactly when its bits 7:5 are a
register opcode's, since that opcode's bits 4:0 are 0). -/
def Params.opcodesWf (p : Params) : Bool :=
  p.opRRegister &&& 0x1F#8 == 0x00#8
    && p.opWRegister &&& 0x1F#8 == 0x00#8
    && p.opRRegister != p.opWRegister
    && decide p.fixedCommands.Nodup
    && p.fixedCommands.all fun c =>
        c &&& 0xE0#8 != p.opRRegister && c &&& 0xE0#8 != p.opWRegister

/-- The parameter sets the spec admits: R7's constraints; every power pattern lies inside the power mask
and every rate pattern outside it (R56); the host word's 8-bit COUNT can hold `nMax` (R62), the five-byte
counts of PRESENT and ENTERTX are legal (R36, R142), and a flush's trailer is a legal number of data
bytes (R80); the last three are DEDUCED (log entry 2). -/
def Params.wf (p : Params) : Bool :=
  p.opcodesWf
    && p.pwr.toList.all (fun x => x &&& p.mRfPwr == x)
    && p.rate.toList.all (fun x => x &&& p.mRfPwr == 0x00#8)
    && decide (5 ≤ p.nMax)
    && decide (p.nMax ≤ 255)
    && decide (p.flushTrailer.length ≤ p.nMax)

/-- The data byte number `k` that the host's byte stream failed to bring: a free value, of which nothing is known. R62 says
that `COUNT` bytes follow the word, and not what the block latches where fewer do (log entry 6). -/
opaque Config.missingByte : Nat → Byte

end Sys2Proof
end

