-- ==== Sys2Proof/Syntax.lean ====
section
/-! DEFINITION. The operations of spec/opcode_table.json as syntax: one constructor a row, in the table's
three spaces (wire, host, pseudo), and the requests that stand at the block's command port. -/

namespace Sys2Proof

/-- The Transmit Configuration of 42_host_sequences.md rule R141. Its fields are raw: `Instr.illegal`
checks their domains (92_eei_decisions.md D29). -/
structure TxConfig where
  count     : Nat
  delay     : Nat
  channel   : Nat
  dataRate  : Byte
  txPower   : Byte
  crcEnable : Bool
  /-- CRC width in bytes, 1 or 2. -/
  crcWidth  : Nat
  powerUp   : Bool
  addr      : List Byte
  width     : Nat
  deriving DecidableEq, Repr

/-- One constructor a row of spec/opcode_table.json. RBUF and WBUF have two rows each (register form and
fixed-command form). An operand that the table calls a count of data bytes to send is here the list of
those bytes. -/
inductive Instr where
  -- space wire: the transactions the chip sees (R87 to R93)
  | rRegister (a : RegAddr) (n : Nat)
  | wRegister (a : RegAddr) (data : List Byte)
  | rRxPayload (n : Nat)
  | wTxPayload (data : List Byte)
  | flushTx
  | flushRx
  | nop
  -- space host: the six primitive operations (R61)
  | wreg (a : RegAddr) (v : Byte)
  | rreg (a : RegAddr)
  | rbufReg (a : RegAddr) (n : Nat)
  | rbufCmd (c : Byte) (n : Nat)
  | wbufReg (a : RegAddr) (data : List Byte)
  | wbufCmd (c : Byte) (data : List Byte)
  | txpkt (payload : List Byte)
  | setce (l : Level)
  -- space pseudo: the host's fixed sequences (R142 to R148)
  | present
  | enterTx (cfg : TxConfig)
  | setCh (ch : Nat)
  | pwrDn
  | wake
  | setPwr (level : Byte)
  | flushTxFifo
  deriving DecidableEq, Repr

/-- The rows of space pseudo by name: they have no encoding of their own (R68). -/
inductive PseudoOp where
  | present
  | enterTx (cfg : TxConfig)
  | setCh (ch : Nat)
  | pwrDn
  | wake
  | setPwr (level : Byte)
  | flushTxFifo
  deriving DecidableEq, Repr

/-- The operation that a name of space pseudo stands for. -/
def PseudoOp.toInstr : PseudoOp → Instr
  | .present => .present
  | .enterTx cfg => .enterTx cfg
  | .setCh ch => .setCh ch
  | .pwrDn => .pwrDn
  | .wake => .wake
  | .setPwr level => .setPwr level
  | .flushTxFifo => .flushTxFifo

/-- What stands at the command port, in the three spaces of the opcode table: a wire command asked for by its command
byte (every transaction has one, R50) and the data bytes of its transaction, a host command word with the
data bytes that follow it on the byte stream (R62), or a pseudo-operation by name (R68). DESIGN CHOICE, log
entry 5. -/
inductive Request where
  | wire (cmd : Byte) (data : List Byte)
  | host (word : BitVec 32) (data : List Byte)
  | pseudo (op : PseudoOp)
  deriving DecidableEq, Repr

end Sys2Proof
end

