-- ==== Sys2Proof/WellFormed.lean ====
section
/-! DEFINITION. Which operations are legal: the domains of 30_encoding.md rule R64, 20_memory.md rule R37 and
42_host_sequences.md rules R141 and R144. An illegal operation is not accepted and a model
refuses it, by name. (R147 gives SETPWR its effect for a level outside its domain too: log entry 29.) -/

namespace Sys2Proof

/-- Why an operation is illegal. Raised by `Instr.illegal`; safe. -/
inductive Illegal where
  /-- More data bytes than `N_MAX` (R37, R64; D10). -/
  | countAboveMax
  /-- A fixed-command head that is none of the five fixed commands (R64). -/
  | notFixedCommand
  /-- A channel above 127 (R144; D28). -/
  | channelOutOfDomain
  /-- A Transmit Configuration with a field outside its domain (R141; D29). -/
  | configOutOfDomain
  deriving DecidableEq, Repr

/-- The domains of R141's table, row by row. -/
def TxConfig.wf (p : Params) (cfg : TxConfig) : Bool :=
  decide (cfg.count ≤ 15)
    && decide (cfg.delay ≤ 15)
    && decide (cfg.channel ≤ 127)
    && p.rate.toList.contains cfg.dataRate
    && p.pwr.toList.contains cfg.txPower
    && (cfg.crcWidth == 1 || cfg.crcWidth == 2)
    && decide (3 ≤ cfg.width)
    && decide (cfg.width ≤ 5)
    && cfg.addr.length == cfg.width

/-- A number of data bytes must be at most `N_MAX` (R37). -/
def illegalCount (p : Params) (n : Nat) : Option Illegal :=
  if n ≤ p.nMax then none else some .countAboveMax

/-- A fixed-command head with `n` data bytes (R64). -/
def illegalCommand (p : Params) (c : Byte) (n : Nat) : Option Illegal :=
  if p.fixedCommands.contains c then illegalCount p n else some .notFixedCommand

/-- The reason an operation is not accepted, if there is one. A register address is never checked: 0x18 to
0x1F are framed like any other (R64; D9). -/
def Instr.illegal (p : Params) : Instr → Option Illegal
  | .rRegister _ n => illegalCount p n
  | .wRegister _ data => illegalCount p data.length
  | .rRxPayload n => illegalCount p n
  | .wTxPayload data => illegalCount p data.length
  | .flushTx => none
  | .flushRx => none
  | .nop => none
  | .wreg _ _ => none
  | .rreg _ => none
  | .rbufReg _ n => illegalCount p n
  | .rbufCmd c n => illegalCommand p c n
  | .wbufReg _ data => illegalCount p data.length
  | .wbufCmd c data => illegalCommand p c data.length
  | .txpkt payload => illegalCount p payload.length
  | .setce _ => none
  | .present => none
  | .enterTx cfg => if cfg.wf p then none else some .configOutOfDomain
  | .setCh ch => if ch ≤ 127 then none else some .channelOutOfDomain
  | .pwrDn => none
  | .wake => none
  | .setPwr _ => none
  | .flushTxFifo => none

/-- A well-formed operation is one the block accepts. -/
abbrev Instr.WellFormed (p : Params) (i : Instr) : Prop := i.illegal p = none

end Sys2Proof
end

