-- ==== Sys2Proof/Decode.lean ====
section
/-! DEFINITION. The decoder, total on any request and rejecting by name, and after it the encoder, both from
30_encoding.md: the wire command byte (R50 to R53, R65), the host command word (R62, R64) and the
pseudo-operations, which have no encoding (R68). -/

namespace Sys2Proof

/-- Why a request is not an operation. Every one of them is a command the block does not accept (R64). -/
inductive DecodeError where
  /-- The command byte is no register form and none of the five fixed commands (R53, R64). -/
  | reservedCommand
  /-- `OPSEL` 6 or 7 (R64). -/
  | reservedOpsel
  /-- A non-zero value in a must-be-zero field (R64). -/
  | nonZeroField
  /-- `HEADSEL` = 1 with WREG, RREG, TXPKT or SETCE (R64). -/
  | headselNotAllowed
  /-- An operation outside its domain. -/
  | illegal (why : Illegal)
  deriving DecidableEq, Repr

/-- Goes on if the condition holds, and rejects by name if it does not. -/
def require (c : Bool) (e : DecodeError) (k : Except DecodeError Instr) : Except DecodeError Instr :=
  if c then k else .error e

/-- Accepts an operation that lies in its domain. -/
def inDomain (p : Params) (i : Instr) : Except DecodeError Instr :=
  match i.illegal p with
  | none => .ok i
  | some why => .error (.illegal why)

/-- `zext_8(a)`: the register address in bits 4:0 of a byte (R51). -/
def regByte (a : RegAddr) : Byte := a.setWidth 8

/-- The register address in bits 4:0 of a byte (R51, R62). -/
def addrOf (b : Byte) : RegAddr := b.setWidth 5

/-- Bits 7:5 of a byte in place (R50). -/
def opBits (b : Byte) : Byte := b &&& 0xE0#8

/-- Decodes a wire command from its command byte (R53's map) and its data bytes, whose number nothing in the command
byte encodes (R65). A read takes their number alone: it sends `DUMMY` for each (R34). The flushes and NOP take
none: what follows their command byte is fixed (R91 to R93; log entry 6). -/
def decodeWire (p : Params) (h : Byte) (data : List Byte) : Except DecodeError Instr :=
  if opBits h = p.opRRegister then inDomain p (.rRegister (addrOf h) data.length)
  else if opBits h = p.opWRegister then inDomain p (.wRegister (addrOf h) data)
  else if h = p.opRRxPayload then inDomain p (.rRxPayload data.length)
  else if h = p.opWTxPayload then inDomain p (.wTxPayload data)
  else if h = p.opFlushTx then inDomain p .flushTx
  else if h = p.opFlushRx then inDomain p .flushRx
  else if h = p.opNop then inDomain p .nop
  else .error .reservedCommand

/-- The data bytes that a wire command with command byte `h` sends, where its request brings `data` (R34, R88, R90 to
R93). -/
def wireData (p : Params) (h : Byte) (data : List Byte) : List Byte :=
  if opBits h = p.opRRegister then List.replicate data.length p.dummy
  else if opBits h = p.opWRegister then data
  else if h = p.opRRxPayload then List.replicate data.length p.dummy
  else if h = p.opWTxPayload then data
  else if h = p.opFlushTx then p.flushTrailer
  else if h = p.opFlushRx ∨ h = p.opNop then []
  else data

/-- Bits 31:29 of a host word, `OPSEL` (R62). -/
def wordOpsel (w : BitVec 32) : BitVec 3 := w.extractLsb' 29 3

/-- Bit 28 of a host word, `HEADSEL` (R62). -/
def wordHeadsel (w : BitVec 32) : BitVec 1 := w.extractLsb' 28 1

/-- Bits 27:24 of a host word, zero (R62). -/
def wordZero (w : BitVec 32) : BitVec 4 := w.extractLsb' 24 4

/-- Bits 23:16 of a host word, `HEAD` (R62). -/
def wordHead (w : BitVec 32) : Byte := w.extractLsb' 16 8

/-- Bits 15:8 of a host word, `VAL` (R62). -/
def wordVal (w : BitVec 32) : Byte := w.extractLsb' 8 8

/-- Bits 7:0 of a host word, `COUNT` (R62). -/
def wordCount (w : BitVec 32) : Byte := w.extractLsb' 0 8

/-- The level of SETCE in bit 0 of `VAL`, that is bit 8 of the word (R62, R67). -/
def levelOf (v : Byte) : Level := if v = 0x00#8 then .low else .high

/-- A level as the byte that carries it in `VAL` (R62, R67). -/
def levelByte : Level → Byte
  | .low => 0x00#8
  | .high => 0x01#8

/-- How many data bytes follow a host word on the byte stream: `COUNT` for WBUF and TXPKT, none for the
others (R62). -/
def streamLength (w : BitVec 32) : Nat :=
  if wordOpsel w = 3#3 ∨ wordOpsel w = 4#3 then (wordCount w).toNat else 0

/-- How many of the data bytes that a host word asks for did not come with it. -/
def missingBytes (w : BitVec 32) (data : List Byte) : Nat := streamLength w - data.length

/-- Free values for `m` data bytes that did not come, from number `k` on (log entry 6). -/
def freeBytes (k m : Nat) : List Byte := (List.range m).map fun j => Config.missingByte (k + j)

/-- The data bytes that the block takes for a host word from the byte stream: the first `COUNT` of those that came,
and a free value for each that did not; bytes beyond them are not taken (R62; log entry 6). -/
def streamTaken (k : Nat) (w : BitVec 32) (data : List Byte) : List Byte :=
  (data ++ freeBytes k (missingBytes w data)).take (streamLength w)

/-- Decodes a host command word and the data bytes that the block takes for it (R62's table, R64's refusals). -/
def decodeHost (p : Params) (w : BitVec 32) (data : List Byte) : Except DecodeError Instr :=
  require (wordZero w == 0#4) .nonZeroField <|
  if wordOpsel w = 0#3 then
    require (wordHeadsel w == 0#1) .headselNotAllowed <|
    require (wordHead w == regByte (addrOf (wordHead w)) && wordCount w == 0#8) .nonZeroField <|
    inDomain p (.wreg (addrOf (wordHead w)) (wordVal w))
  else if wordOpsel w = 1#3 then
    require (wordHeadsel w == 0#1) .headselNotAllowed <|
    require (wordHead w == regByte (addrOf (wordHead w)) && wordVal w == 0#8 && wordCount w == 0#8)
      .nonZeroField <|
    inDomain p (.rreg (addrOf (wordHead w)))
  else if wordOpsel w = 2#3 then
    require (wordVal w == 0#8) .nonZeroField <|
    if wordHeadsel w = 0#1 then
      require (wordHead w == regByte (addrOf (wordHead w))) .nonZeroField <|
      inDomain p (.rbufReg (addrOf (wordHead w)) (wordCount w).toNat)
    else
      inDomain p (.rbufCmd (wordHead w) (wordCount w).toNat)
  else if wordOpsel w = 3#3 then
    require (wordVal w == 0#8) .nonZeroField <|
    if wordHeadsel w = 0#1 then
      require (wordHead w == regByte (addrOf (wordHead w))) .nonZeroField <|
      inDomain p (.wbufReg (addrOf (wordHead w)) data)
    else
      inDomain p (.wbufCmd (wordHead w) data)
  else if wordOpsel w = 4#3 then
    require (wordHeadsel w == 0#1) .headselNotAllowed <|
    require (wordHead w == 0#8 && wordVal w == 0#8) .nonZeroField <|
    inDomain p (.txpkt data)
  else if wordOpsel w = 5#3 then
    require (wordHeadsel w == 0#1) .headselNotAllowed <|
    require (wordHead w == 0#8 && wordVal w == levelByte (levelOf (wordVal w)) && wordCount w == 0#8)
      .nonZeroField <|
    inDomain p (.setce (levelOf (wordVal w)))
  else
    .error .reservedOpsel

/-- A request with the data bytes that did not come filled in with free values, from number `k` on. -/
def Request.complete (k : Nat) : Request → Request
  | .wire h data => .wire h data
  | .host w data => .host w (data ++ freeBytes k (missingBytes w data))
  | .pseudo op => .pseudo op

/-- How many free values a request uses. -/
def Request.missing : Request → Nat
  | .wire _ _ => 0
  | .host w data => missingBytes w data
  | .pseudo _ => 0

/-- A request as the block takes it up: with the data bytes that its operation sends, and no others. -/
def Request.taken (p : Params) : Request → Request
  | .wire h data => .wire h (wireData p h data)
  | .host w data => .host w (streamTaken 0 w data)
  | .pseudo op => .pseudo op

/-- The decoder: what operation a request asks for, or why it asks for none. -/
def decode (p : Params) : Request → Except DecodeError Instr
  | .wire h data => decodeWire p h data
  | .host w data => decodeHost p w (streamTaken 0 w data)
  | .pseudo op => inDomain p op.toInstr

/-- A host command word from its six fields (R62). -/
def hostWord (opsel : BitVec 3) (headsel : BitVec 1) (head val count : Byte) : BitVec 32 :=
  opsel ++ headsel ++ 0#4 ++ head ++ val ++ count

/-- A number of data bytes as the COUNT field (R62). -/
def countByte (n : Nat) : Byte := BitVec.ofNat 8 n

/-- The encoder: the request that asks for an operation. -/
def encode (p : Params) : Instr → Request
  | .rRegister a n => .wire (p.opRRegister ||| regByte a) (List.replicate n p.dummy)
  | .wRegister a data => .wire (p.opWRegister ||| regByte a) data
  | .rRxPayload n => .wire p.opRRxPayload (List.replicate n p.dummy)
  | .wTxPayload data => .wire p.opWTxPayload data
  | .flushTx => .wire p.opFlushTx p.flushTrailer
  | .flushRx => .wire p.opFlushRx []
  | .nop => .wire p.opNop []
  | .wreg a v => .host (hostWord 0#3 0#1 (regByte a) v 0#8) []
  | .rreg a => .host (hostWord 1#3 0#1 (regByte a) 0#8 0#8) []
  | .rbufReg a n => .host (hostWord 2#3 0#1 (regByte a) 0#8 (countByte n)) []
  | .rbufCmd c n => .host (hostWord 2#3 1#1 c 0#8 (countByte n)) []
  | .wbufReg a data => .host (hostWord 3#3 0#1 (regByte a) 0#8 (countByte data.length)) data
  | .wbufCmd c data => .host (hostWord 3#3 1#1 c 0#8 (countByte data.length)) data
  | .txpkt payload => .host (hostWord 4#3 0#1 0#8 0#8 (countByte payload.length)) payload
  | .setce l => .host (hostWord 5#3 0#1 0#8 (levelByte l) 0#8) []
  | .present => .pseudo .present
  | .enterTx cfg => .pseudo (.enterTx cfg)
  | .setCh ch => .pseudo (.setCh ch)
  | .pwrDn => .pseudo .pwrDn
  | .wake => .pseudo .wake
  | .setPwr level => .pseudo (.setPwr level)
  | .flushTxFifo => .pseudo .flushTxFifo

/-- A row of spec/opcode_table.json as a request, its `nbits` table bits being those of `w`: a wire command is
its command byte alone, a host word is followed by as many zero data bytes as it asks for, and no row with
bits has any other width. -/
def tableRequest (nbits w : Nat) : Option Request :=
  if nbits = 8 then some (.wire (BitVec.ofNat 8 w) [])
  else if nbits = 32 then
    some (.host (BitVec.ofNat 32 w) (List.replicate (streamLength (BitVec.ofNat 32 w)) 0x00#8))
  else none

/-- The instruction the decoder reads from a row's bits, for the default parameters. -/
def decodeTableWord (nbits w : Nat) : Option Instr :=
  (tableRequest nbits w).bind fun r => (decode Params.default r).toOption

end Sys2Proof
end

