-- ==== Sys2Proof/Machine/State.lean ====
section
/-! DEFINITION. The state of the machine as plain data: the block (10_state.md section 2), the chip behind the bus as
far as the spec gives its state (10_state.md section 4), the host's and the environment's part of the
conversation (00_scope.md rule R6), and the observable trace (rule R9). -/

namespace Sys2Proof.Machine

/-- `OPSEL`: the six primitive operations (R61). -/
inductive OpSel where
  | wreg
  | rreg
  | rbuf
  | wbuf
  | txpkt
  | setce
  deriving DecidableEq, Repr

/-- `HEADSEL`: register form or fixed-command form (R62, R86). -/
inductive HeadSel where
  | reg
  | cmd
  deriving DecidableEq, Repr

/-- The operand latches of R14. `count` is the number of data bytes of the operation's own transaction. -/
structure Operands where
  opsel   : OpSel
  headsel : HeadSel
  head    : Byte
  val     : Byte
  count   : Nat
  data    : List Byte
  deriving DecidableEq, Repr

/-- Which transaction the framer is carrying: the one of a framer operation, or one of the four of TXPKT
(`T_LOAD`, `T_RDST`, `T_CLR`, `T_FLUSH` of R123). -/
inductive Txn where
  | op
  | load
  | rdst
  | clr
  | flush
  deriving DecidableEq, Repr

/-- The framer's phases `F_SEL`, `F_HEAD`, `F_DATA`, `F_REL` (R94). -/
inductive FramePhase where
  | sel
  | head
  | data
  | rel
  deriving DecidableEq, Repr

/-- `SEQ` (R13): `S_IDLE`, a framer phase inside a transaction, `C_SET`, the event-free and single-event phases
of TXPKT (R123), and `ret`, the step that emits the `RET` of a framer operation or of SETCE. -/
inductive Phase where
  | idle
  | frame (t : Txn) (f : FramePhase)
  | cSet
  | tArm
  | tPoll
  | tSettle
  | tClass
  | tRet
  | ret
  deriving DecidableEq, Repr

/-- The outcome of TXPKT (R63, R117). -/
inductive TxOutcome where
  | success
  | maxRetransmitExceeded
  | unknown (s : Byte)
  deriving DecidableEq, Repr

/-- The response record of R63, with the fields that the operation returns: `ST` for WREG and WBUF, `VALUE` for
RREG, `ST` and `BYTES` for RBUF, `OUTCOME` (and `S`) for TXPKT, nothing for SETCE. -/
inductive Response where
  | status (st : Byte)
  | value (v : Byte)
  | buffer (st : Byte) (bytes : List Byte)
  | outcome (o : TxOutcome)
  | empty
  deriving DecidableEq, Repr

/-- The events of R9. -/
inductive Event where
  | csn (v : Level)
  | ce (v : Level)
  | x (o i : Byte)
  | irq (l : Level)
  | ret (r : Response)
  deriving DecidableEq, Repr

/-- One step of a host sequence (R140): present a primitive operation and wait for its `RET`; write a register
with the value just read, masked and OR-ed (the second half of a read-modify-write, R145 to R147); or
compare the bytes just read with a pattern (R142). -/
inductive HostStep where
  | op (o : Operands)
  | writeBack (a : RegAddr) (keep set : Byte)
  | compare (pattern : List Byte)
  deriving DecidableEq, Repr

/-- The chip's conceptual runtime states (R22). -/
inductive ChipMode where
  | powerDown
  | standby
  | txSettling
  | transmitting
  deriving DecidableEq, Repr

/-- The chip's own state as far as the spec names it (R19 to R22, R208). The chip may change all of it by itself
at any exchange or sample (`Reply.chip`, `Sample.chip`): no law binds it (R46, R201). -/
structure Chip where
  /-- The bytes of the configuration registers but STATUS, by `Chip.key`; a byte that is not listed is the register's
  reset content. -/
  regs : List Host.Cell
  /-- The STATUS register (R54). Its bits 7:6 and 3:0 are as the chip's own moves leave them and follow neither queue: a
  DESIGN CHOICE (U5 says any value), log entry 34. -/
  status : Byte
  /-- The "counter field" of an unnamed status register that a write of RF_CH clears (R19, R208). Its register and width
  are not given (N13): a natural apart from the register bytes is a DESIGN CHOICE, log entry 26. -/
  counter : Nat
  /-- The transmit FIFO, oldest payload first (R20). -/
  txFifo : List (List Byte)
  /-- The receive FIFO, oldest payload first (R20). -/
  rxFifo : List (List Byte)
  /-- The internal transmit sequence has been triggered by chip-enable (R38 (e)). -/
  txStarted : Bool
  /-- The retransmission counter, executed by the chip (R21 (d)). The spec gives neither its width nor a register that
  shows it: a natural apart from the register bytes is a DESIGN CHOICE, log entry 30. -/
  retransmits : Nat
  /-- The runtime state (R22). Of its transitions the source gives only that CONFIG's power-up bit selects power up or
  down (`poweredMode`, log entry 33). -/
  mode : ChipMode
  deriving DecidableEq, Repr

/-- The environment's answer to one byte exchange: the byte received and, where the chip changed its own state
up to that moment, what that state now is (R46). -/
structure Reply where
  rx   : Byte
  chip : Option Chip
  deriving DecidableEq, Repr

/-- The environment's answer to one interrupt-line sample (R12, R46). -/
structure Sample where
  level : Level
  chip  : Option Chip
  deriving DecidableEq, Repr

/-- The environment (Byte Transport and chip) as a script (95_test_vectors.md section 1.2): the answers to the
coming exchanges, the answers to the coming samples, and the level the interrupt line keeps once those
are used up. An exchange with no answer left has not completed (R30). -/
structure Env where
  replies : List Reply
  samples : List Sample
  line    : Level
  deriving DecidableEq, Repr

/-- The open transaction as it has gone over the bus: the command byte, once it has been sent, and the data bytes
the block has sent after it. -/
structure BusTxn where
  cmd  : Option Byte
  data : List Byte
  deriving DecidableEq, Repr

/-- The state of the machine. INVENTORY.md lists each field with the rule that names it. -/
structure State where
  /-- The parameters of the instance (R7): constants, which no step changes. -/
  params : Params
  /-- The chip-select latch (R10). -/
  csn : Level
  /-- The chip-enable latch (R11). -/
  ce : Level
  /-- `BUSY` (R13). -/
  busy : Bool
  /-- `SEQ` (R13). -/
  seq : Phase
  /-- `IDX` (R13). -/
  idx : Nat
  /-- The operand latches (R14). -/
  ops : Operands
  /-- `ST`, the status capture latch (R15). -/
  st : Byte
  /-- `IN`, the data bytes received in the current transaction, index 0 first (R15). -/
  inBytes : List Byte
  /-- `S`, the STATUS value that TXPKT read (R15). -/
  sReg : Byte
  /-- The response record of the last completed operation, in the host's hands (R63). -/
  resp : Option Response
  /-- The result of the last completed PRESENT, in the host's hands: present or absent (R142). -/
  presence : Option Bool
  /-- What remains of the sequence the host is running (R140). -/
  hostSeq : List HostStep
  /-- The operations the host is going to present, first one first (R6, R42). -/
  inbox : List Request
  /-- How many free values have been used for data bytes that did not come: the model's own counter (log entry 6). -/
  freeCount : Nat
  /-- The environment (R6). -/
  env : Env
  /-- The chip's own state (R19 to R22). -/
  chip : Chip
  /-- The transaction the chip is receiving: none outside a bracket, and none in a bracket that opened without a
  falling edge, of which the chip's reading is not specified (R80, R214). -/
  bus : Option BusTxn
  /-- The events emitted since reset, oldest first (R9). -/
  trace : List Event
  deriving DecidableEq, Repr

/-- Reasons for a fault. There is none: "No operation throws" (R170), "this driver has no fatal-error path"; a hang
is no fault (R177). Safe: no step of the model faults, and the spec names no event that would. -/
inductive Fault where
  deriving DecidableEq, Repr

/-- Reasons for a refusal. -/
inductive Refusal where
  /-- Raised by an arm of `exec` for an operation with no meaning yet; safe. No arm raises it. -/
  | notModelled (mnemonic : String)
  /-- Raised by every meaning when an operation is presented while another is in progress, which the block does
  not accept and a model refuses (R97; between the operations of a host sequence, log entry 17); the hardware's own refusal, safe. -/
  | busy
  /-- Raised by a meaning for an operation outside its domain, which the block does not accept and a model refuses
  (R64, R141, R144); safe. -/
  | illegal (why : Illegal)
  /-- Raised by the step for a request that is no legal operation: a reserved selector, field or command (R64), or an
  operation outside its domain (R64, R141, R144); the hardware's own refusal, safe. -/
  | undecodable (why : DecodeError)
  deriving DecidableEq, Repr

/-- Operand latches after reset. R200: unspecified. DESIGN CHOICE, log entry 8. -/
def Operands.reset : Operands :=
  { opsel := .wreg, headsel := .reg, head := 0x00#8, val := 0x00#8, count := 0, data := [] }

/-- The chip's state at reset. The spec gives none (R201): the nRF24L01 family's, PRESUMED, log entry 9. -/
def Chip.reset : Chip :=
  { regs := [], status := 0x0E#8, counter := 0, txFifo := [], rxFifo := [], txStarted := false,
    retransmits := 0, mode := .powerDown }

/-- The environment before it has answered anything: no exchange completes, and the interrupt line is not asserted.
DESIGN CHOICE, log entry 10. -/
def Env.silent : Env := { replies := [], samples := [], line := .high }

/-- The machine right after reset (R200), for any parameters. -/
def State.resetWith (p : Params) : State where
  params   := p
  csn      := p.resetCsn
  ce       := p.resetCe
  busy     := false
  seq      := .idle
  idx      := 0
  ops      := Operands.reset
  st       := 0x00#8
  inBytes  := []
  sReg     := 0x00#8
  resp     := none
  presence := none
  hostSeq  := []
  inbox    := []
  freeCount := 0
  env      := Env.silent
  chip     := Chip.reset
  bus      := none
  trace    := []

/-- The machine right after reset (R200). -/
def State.reset : State := State.resetWith Params.default

end Sys2Proof.Machine
end

