-- ==== Sys2Proof/Machine/Flags.lean ====
section
/-! DEFINITION. The flags: bits 4, 5 and 6 of the chip's status byte (10_state.md rule R18, 30_encoding.md rule R54).
The block has no flag of its own; it reads bits 4 and 5 in the classification of TXPKT and nowhere else. -/

namespace Sys2Proof.Machine

/-- Bit 4, "retransmit limit reached". -/
def maxRt (s : Byte) : Bool := s &&& maskMaxRt != 0x00#8

/-- Bit 5, "data sent, ack received if enabled". -/
def txDs (s : Byte) : Bool := s &&& maskTxDs != 0x00#8

/-- Bit 6, "data ready". The block never decodes it. -/
def rxDr (s : Byte) : Bool := s &&& maskRxDr != 0x00#8

/-- The classification of R117: MAX_RT first, then TX_DS, else Unknown with the byte itself. -/
def classify (s : Byte) : TxOutcome :=
  if maxRt s then .maxRetransmitExceeded
  else if txDs s then .success
  else .unknown s

/-- Whether the classification goes through `T_FLUSH` (R123). -/
def flushNeeded (s : Byte) : Bool := maxRt s || txDs s

/-- `OUTCOME` (R63): 0 Success, 1 MaxRetransmitExceeded, 2 Unknown; 3 is never produced. -/
def TxOutcome.code : TxOutcome → BitVec 2
  | .success => 0#2
  | .maxRetransmitExceeded => 1#2
  | .unknown _ => 2#2

/-- What writing `v` does to STATUS (R38 (b), R116): it clears the two latched completion bits where `v` has a 1.
What a write does to the other bits is not specified (93_implementation_defined.md U14); they are left
as the chip has them, and the chip may change them at any exchange (log entry 12). -/
def clearLatched (old v : Byte) : Byte := old &&& ~~~(v &&& (maskMaxRt ||| maskTxDs))

/-- Bit 4 of FIFO status, "the TX FIFO is empty": the default reading of R69, PRESUMED by the spec itself (G6; log
entry 25). -/
def maskTxEmpty : Byte := 0x10#8

/-- FIFO status as it reads: bit 4 follows the TX FIFO (R19, R69, R91), the other bits are as stored. -/
def fifoStatusByte (stored : Byte) (txFifo : List (List Byte)) : Byte :=
  (stored &&& ~~~maskTxEmpty) ||| (if txFifo.isEmpty then maskTxEmpty else 0x00#8)

end Sys2Proof.Machine
end

