-- ==== Sys2Proof/Machine/Memory.lean ====
section
/-! DEFINITION. The chip's register space (20_memory.md rules R32, R36, R43) as a memory of bytes: a list of
(address, byte) pairs in one canonical form, addresses strictly rising and no entry equal to what an
unlisted address reads as, which is the reset content `d`. -/

namespace Sys2Proof.Machine

/-- A memory in the form of the chip's register bytes. -/
abbrev Memory := List Host.Cell

/-- The canonical form: addresses strictly rising, and no entry equal to what it would read as unlisted. -/
def Memory.wf (d : Nat → Byte) : Memory → Bool
  | [] => true
  | [c] => c.2 != d c.1
  | c :: e :: m => c.2 != d c.1 && decide (c.1 < e.1) && Memory.wf d (e :: m)

/-- The byte at an address. -/
def Memory.read (d : Nat → Byte) : Memory → Nat → Byte
  | [], k => d k
  | c :: m, k => if c.1 = k then c.2 else Memory.read d m k

/-- Unlists an address. -/
def Memory.erase (m : Memory) (k : Nat) : Memory := m.filter fun c => c.1 != k

/-- Lists an address that is not listed, in its place. -/
def Memory.insert : Memory → Nat → Byte → Memory
  | [], k, b => [(k, b)]
  | c :: m, k, b => if k < c.1 then (k, b) :: c :: m else c :: Memory.insert m k b

/-- Writes one byte and keeps the canonical form. -/
def Memory.write (d : Nat → Byte) (m : Memory) (k : Nat) (b : Byte) : Memory :=
  if b = d k then Memory.erase m k else Memory.insert (Memory.erase m k) k b

/-- Where byte `j` of register `a` stands in the register memory: eight places a register, which is more than the
widest register needs (R36). -/
def Chip.key (a : RegAddr) (j : Nat) : Nat := 8 * a.toNat + j

/-- The width of a register in bytes: 5 at most for the two address registers, else 1 (R19, R32, R36). -/
def regWidth (p : Params) (a : RegAddr) : Nat :=
  if a = p.aTxAddr ∨ a = p.aRxAddrP0 then 5 else 1

/-- The bytes of the register space of which the spec states what a write does: a defined register (R43, R64) and
an index within its width (R37, R87). -/
def regByteExists (p : Params) (a : RegAddr) (j : Nat) : Bool :=
  decide (a.toNat ≤ lastRegAddr) && decide (j < regWidth p a)

/-- The stored content of byte `j` of register `a` at reset. The spec gives none (R201): the values of the nRF24L01 family
for the registers the spec names, PRESUMED, and 0 for every other byte, DESIGN CHOICE (log entry 9). Bit 4 of FIFO
status is not stored: it follows the TX FIFO. -/
def regResetByte (p : Params) (a : RegAddr) (j : Nat) : Byte :=
  if a = p.aTxAddr ∨ a = p.aRxAddrP0 then (if j < 5 then 0xE7#8 else 0x00#8)
  else if j ≠ 0 then 0x00#8
  else if a = p.aConfig then 0x08#8
  else if a = p.aEnAa then 0x3F#8
  else if a = p.aSetupRetr then 0x03#8
  else if a = p.aRfCh then 0x02#8
  else if a = p.aRfSetup then 0x0F#8
  else if a = p.aFifoStatus then 0x01#8
  else 0x00#8

/-- What an unlisted address of the register memory reads as. -/
def Chip.unlisted (p : Params) (k : Nat) : Byte := regResetByte p (BitVec.ofNat 5 (k / 8)) (k % 8)

/-- The content of byte `j` of register `a`. FIFO status shows whether the TX FIFO is empty (R69, log entry 25). No
register shows the counter field of R208, whose place the spec does not give (log entry 26). -/
def Chip.readByte (p : Params) (c : Chip) (a : RegAddr) (j : Nat) : Byte :=
  if a = p.aStatus ∧ j = 0 then c.status
  else if a = p.aFifoStatus ∧ j = 0 then
    fifoStatusByte (Memory.read (Chip.unlisted p) c.regs (Chip.key a j)) c.txFifo
  else Memory.read (Chip.unlisted p) c.regs (Chip.key a j)

/-- What a write of `v` to byte `j` of register `a` stores: the byte, but for bit 4 of FIFO status, which goes on to
follow the TX FIFO (log entry 25). -/
def storedByte (p : Params) (a : RegAddr) (j : Nat) (v : Byte) : Byte :=
  if a = p.aFifoStatus ∧ j = 0 then v &&& ~~~maskTxEmpty else v

end Sys2Proof.Machine
end

