-- ==== Sys2Proof/Machine/Operands.lean ====
section
/-! DEFINITION. Every operand form: what acceptance latches for each primitive (10_state.md rule R14,
30_encoding.md rules R61 and R62), the head byte (40_command_framer.md rule R86), and the bytes and the
closing level of each transaction (rules R80 to R84, 41_transmit_fsm.md rule R123). -/

namespace Sys2Proof.Machine

/-- The operands of WREG (R81). One data byte (R65). -/
def opWreg (a : RegAddr) (v : Byte) : Operands :=
  { opsel := .wreg, headsel := .reg, head := regByte a, val := v, count := 1, data := [] }

/-- The operands of RREG (R82). One data byte (R65). -/
def opRreg (a : RegAddr) : Operands :=
  { opsel := .rreg, headsel := .reg, head := regByte a, val := 0x00#8, count := 1, data := [] }

/-- The operands of RBUF (R83), in either form. -/
def opRbuf (sel : HeadSel) (head : Byte) (n : Nat) : Operands :=
  { opsel := .rbuf, headsel := sel, head := head, val := 0x00#8, count := n, data := [] }

/-- The operands of WBUF (R84), in either form. -/
def opWbuf (sel : HeadSel) (head : Byte) (data : List Byte) : Operands :=
  { opsel := .wbuf, headsel := sel, head := head, val := 0x00#8, count := data.length, data := data }

/-- The operands of TXPKT (R110). -/
def opTxpkt (payload : List Byte) : Operands :=
  { opsel := .txpkt, headsel := .reg, head := 0x00#8, val := 0x00#8, count := payload.length,
    data := payload }

/-- The operands of SETCE (R85): the level stands in `VAL`. -/
def opSetce (l : Level) : Operands :=
  { opsel := .setce, headsel := .reg, head := 0x00#8, val := levelByte l, count := 0, data := [] }

/-- `HeadByte(read, Reg a)` (R86). -/
def readHead (p : Params) (a : RegAddr) : Byte := p.opRRegister ||| regByte a

/-- `HeadByte(write, Reg a)` (R86). -/
def writeHead (p : Params) (a : RegAddr) : Byte := p.opWRegister ||| regByte a

/-- The head byte of a framer operation (R86): in register form the read or the write opcode OR-ed with the address,
in fixed-command form the latched byte unchanged in either direction. -/
def opHead (p : Params) (o : Operands) : Byte :=
  match o.headsel with
  | .cmd => o.head
  | .reg =>
    match o.opsel with
    | .rreg | .rbuf => readHead p (addrOf o.head)
    | .wreg | .wbuf | .txpkt | .setce => writeHead p (addrOf o.head)

/-- The bytes a framer operation sends after the head byte (R81 to R84). -/
def opOut (p : Params) (o : Operands) : List Byte :=
  match o.opsel with
  | .wreg => [o.val]
  | .rreg => [p.dummy]
  | .rbuf => List.replicate o.count p.dummy
  | .wbuf | .txpkt => o.data
  | .setce => []

/-- The level that closes a buffer read (R83): high, or low under the erratum switch. -/
def rbufClose (p : Params) : Level := if p.rbufCloseLow then .low else .high

/-- The level that closes a framer operation's bracket: high for every operation but RBUF under the erratum
switch (R80). -/
def opClose (p : Params) (o : Operands) : Level :=
  match o.opsel with
  | .rbuf => rbufClose p
  | .wreg | .rreg | .wbuf | .txpkt | .setce => .high

/-- The head byte of the transaction the framer is carrying (R86, R123). -/
def txnHead (s : State) : Txn → Byte
  | .op => opHead s.params s.ops
  | .load => s.params.opWTxPayload
  | .rdst => readHead s.params s.params.aStatus
  | .clr => writeHead s.params s.params.aStatus
  | .flush => s.params.opFlushTx

/-- The data bytes of the transaction the framer is carrying (R80, R123). -/
def txnOut (s : State) : Txn → List Byte
  | .op => opOut s.params s.ops
  | .load => s.ops.data
  | .rdst => [s.params.dummy]
  | .clr => [s.sReg]
  | .flush => s.params.flushTrailer

/-- The level that closes the transaction the framer is carrying (R80, R123). -/
def txnClose (s : State) : Txn → Level
  | .op => opClose s.params s.ops
  | .load | .rdst | .clr | .flush => .high

/-- SETUP_RETR, "high nibble = delay, low nibble = count" (R55). -/
def packRetr (delay count : Nat) : Byte := (BitVec.ofNat 8 delay <<< 4) ||| BitVec.ofNat 8 count

/-- RF_SETUP, `dataRate | txPower` (R56). -/
def packRfSetup (cfg : TxConfig) : Byte := cfg.dataRate ||| cfg.txPower

/-- CONFIG, `crcEnable | crcWidth | powerState | PRIM_TX` (R57). -/
def packConfig (p : Params) (cfg : TxConfig) : Byte :=
  (if cfg.crcEnable then p.mEnCrc else 0x00#8)
    ||| (if cfg.crcWidth = 2 then p.mCrc2B else 0x00#8)
    ||| (if cfg.powerUp then p.mPwrUp else 0x00#8)
    ||| p.mPrimTx

/-- RF_CH: the channel as one byte, unmasked (R59, R144). -/
def channelByte (ch : Nat) : Byte := BitVec.ofNat 8 ch

end Sys2Proof.Machine
end

