-- ==== Sys2Proof/Machine/Chip.lean ====
section
/-! DEFINITION. What the block's lines and bytes do to the chip, as far as the spec states it (20_memory.md rule R38,
40_command_framer.md rules R87 to R93), and what an answering chip returns (rules R33 and R34). The chip's
own activity is the environment's (rule R46). -/

namespace Sys2Proof.Machine

/-- The runtime state after `v` is written to CONFIG: its power-up bit "selects power up or down" (R22, R182). That power
up from Power-Down is Standby, with no settling, and that the bit leaves a chip that is up in its state, is DEDUCED
(log entry 33). -/
def poweredMode (p : Params) (v : Byte) (m : ChipMode) : ChipMode :=
  if v &&& p.mPwrUp = 0x00#8 then .powerDown
  else
    match m with
    | .powerDown => .standby
    | .standby => .standby
    | .txSettling => .txSettling
    | .transmitting => .transmitting

/-- Byte `j` of a W_REGISTER transaction to address `a` (R88, R38). STATUS is write-one-to-clear; RF_CH also clears
the counter (R208; its place and width are the model's choice, log entry 26); CONFIG also powers the chip up
or down (R22, R182); outside the defined registers
and widths nothing is stated, and nothing is changed (log entry 12). -/
def Chip.store (p : Params) (a : RegAddr) (j : Nat) (v : Byte) (c : Chip) : Chip :=
  if regByteExists p a j then
    if a = p.aStatus then { c with status := clearLatched c.status v }
    else
      { c with
        regs := Memory.write (Chip.unlisted p) c.regs (Chip.key a j) (storedByte p a j v)
        counter := if a = p.aRfCh then 0 else c.counter
        mode := if a = p.aConfig ∧ j = 0 then poweredMode p v c.mode else c.mode }
  else c

/-- The data byte `o`, number `j` after the command byte `cmd`: of the seven wire commands only W_REGISTER stores
it at once (R88). The bytes of a register for which no data byte comes keep their content: R37 does not say what
becomes of them (DESIGN CHOICE, log entry 27). -/
def Chip.takeData (p : Params) (cmd : Byte) (j : Nat) (o : Byte) (c : Chip) : Chip :=
  if opBits cmd = p.opWRegister then Chip.store p (addrOf cmd) j o c else c

/-- The end of a transaction (R90 to R92): W_TX_PAYLOAD queues the payload, FLUSH_TX and FLUSH_RX clear their queue.
That the effect falls on the closing edge is DEDUCED (log entry 13). The payload is queued whole whatever its
length: with no data byte an empty payload is queued, and one longer than the chip holds is not cut, of
both of which U11 says any value (DESIGN CHOICE, log entry 28). The other fixed commands have their effect
whatever data bytes follow them, of which R37 does not say what the chip makes (DESIGN CHOICE, log entry 32).
None of them moves a bit of STATUS: its bits 3:0, of which R54 has only general knowledge and U5 says any value, follow
neither queue (DESIGN CHOICE, log entry 34). -/
def Chip.finish (p : Params) (t : BusTxn) (c : Chip) : Chip :=
  match t.cmd with
  | none => c
  | some cmd =>
    if opBits cmd = p.opRRegister ∨ opBits cmd = p.opWRegister then c
    else if cmd = p.opWTxPayload then { c with txFifo := c.txFifo ++ [t.data] }
    else if cmd = p.opFlushTx then { c with txFifo := [] }
    else if cmd = p.opFlushRx then { c with rxFifo := [] }
    else c

/-- The open transaction after chip-select goes from `old` to `new`. Only a falling edge opens one that the chip is
known to read (R80, R214). At a close that leaves chip-select low (R83) it is dropped: what the chip makes of it
and of the next one is not given (U2; DESIGN CHOICE, log entry 31). -/
def busSelect (old new : Level) : Option BusTxn :=
  match old, new with
  | .high, .low => some { cmd := none, data := [] }
  | .low, .low | .low, .high | .high, .high => none

/-- The chip after chip-select goes from `old` to `new`: a rising edge ends the open transaction. A FIFO command that
RBUF carries and closes low has no effect (DESIGN CHOICE, log entry 31). -/
def chipSelect (p : Params) (old new : Level) (bus : Option BusTxn) (c : Chip) : Chip :=
  match old, new, bus with
  | .low, .high, some t => Chip.finish p t c
  | _, _, _ => c

/-- The open transaction after the block has sent the byte `o`. -/
def busTake (o : Byte) : Option BusTxn → Option BusTxn
  | none => none
  | some { cmd := none, data := _ } => some { cmd := some o, data := [] }
  | some { cmd := some c, data := d } => some { cmd := some c, data := d ++ [o] }

/-- The chip after the block has sent it the byte `o`. -/
def chipTake (p : Params) (o : Byte) (bus : Option BusTxn) (c : Chip) : Chip :=
  match bus with
  | some { cmd := some cmd, data := d } => Chip.takeData p cmd d.length o c
  | _ => c

/-- The chip after chip-enable goes from `old` to `new`: raising it with a payload loaded triggers the transmit
sequence (R38 (e)). It does so whatever CONFIG's power-up bit and the runtime state are: what happens outside the
powered-up idle state of R182 is not given (log entry 21). -/
def chipEnable (old new : Level) (c : Chip) : Chip :=
  match old, new with
  | .low, .high => if c.txFifo = [] then c else { c with txStarted := true }
  | _, _ => c

/-- What R33 and R34 say the chip answers to the next exchange: its STATUS to the command byte, the register's bytes
to the data bytes of a read; `none` where they say nothing. -/
def Chip.answer (p : Params) (c : Chip) : Option BusTxn → Option Byte
  | none => none
  | some { cmd := none, data := _ } => some c.status
  | some { cmd := some cmd, data := d } =>
    if opBits cmd = p.opRRegister ∧ regByteExists p (addrOf cmd) d.length then
      some (Chip.readByte p c (addrOf cmd) d.length)
    else none

/-- The chip when the environment answers with a move of the chip's own. -/
def Chip.moved (c : Chip) (m : Option Chip) : Chip := m.getD c

end Sys2Proof.Machine
end

