-- ==== Sys2Proof/Machine/Ops.lean ====
section
/-! DEFINITION. The named operations every phase is built from: one per event of 00_scope.md rule R9, acceptance
(40_command_framer.md rule R97) and the change of phase. The block takes no exception and returns from
none (60_exceptions.md rules R170, R175, R176), so there is no such operation here. -/

namespace Sys2Proof.Machine

/-- `SEQ <- phase` (R8). -/
def State.goto (q : Phase) (s : State) : State := { s with seq := q }

/-- `CSN <- v`: writes the latch and emits `CSN(v)` (R8, R10); the chip sees the edge. -/
def State.driveCsn (v : Level) (s : State) : State :=
  { s with
    csn := v
    bus := busSelect s.csn v
    chip := chipSelect s.params s.csn v s.bus s.chip
    trace := s.trace ++ [.csn v] }

/-- `CE <- v`: writes the latch and emits `CE(v)` (R8, R11); the chip sees the edge. -/
def State.driveCe (v : Level) (s : State) : State :=
  { s with
    ce := v
    chip := chipEnable s.ce v s.chip
    trace := s.trace ++ [.ce v] }

/-- `Xchg(o)` answered by `r` (R30): the environment's answer is used up, the chip moves by itself if the answer says
so, then takes the byte `o`, and `X(o, i)` is emitted. -/
def State.xchg (o : Byte) (r : Reply) (rest : List Reply) (s : State) : State :=
  { s with
    env := { s.env with replies := rest }
    bus := busTake o s.bus
    chip := chipTake s.params o s.bus (s.chip.moved r.chip)
    trace := s.trace ++ [.x o r.rx] }

/-- `ST <- s`, `IDX <- 0` (R94). -/
def State.latchStatus (b : Byte) (s : State) : State := { s with st := b, idx := 0 }

/-- `IN[i] <- r`, keeping the bytes before it. What the array holds from `i + 1` on is not kept, which R16 allows. -/
def latchIn (old : List Byte) (i : Nat) (r : Byte) : List Byte := old.take i ++ [r]

/-- `IN[IDX] <- r`, `IDX <- IDX + 1` (R94). -/
def State.latchData (b : Byte) (s : State) : State :=
  { s with inBytes := latchIn s.inBytes s.idx b, idx := s.idx + 1 }

/-- `S <- IN[0]` (R116, R123). -/
def State.latchS (s : State) : State := { s with sReg := s.inBytes.getD 0 0x00#8 }

/-- The next sample of the interrupt line (R12): the next of the scripted ones, or the level the line keeps. -/
def Env.sample (e : Env) : Sample :=
  match e.samples with
  | [] => { level := e.line, chip := none }
  | x :: _ => x

/-- `IrqSample()` (R12): always returns a level, and emits `IRQ?(l)`. -/
def State.irqSample (s : State) : State :=
  { s with
    env := { s.env with samples := s.env.samples.tail }
    chip := s.chip.moved s.env.sample.chip
    trace := s.trace ++ [.irq s.env.sample.level] }

/-- The first phase of an operation (R94, R123). -/
def firstPhase : OpSel → Phase
  | .wreg | .rreg | .rbuf | .wbuf => .frame .op .sel
  | .txpkt => .frame .load .sel
  | .setce => .cSet

/-- Acceptance (R97): latches the operands, sets `BUSY`, and starts the sequencer; no event. -/
def State.accept (o : Operands) (s : State) : State :=
  { s with ops := o, busy := true, seq := firstPhase o.opsel }

/-- `RET(r)` (R97): hands the response to the host, clears `BUSY` and goes to `S_IDLE`. -/
def State.finish (r : Response) (s : State) : State :=
  { s with
    busy := false
    seq := .idle
    resp := some r
    trace := s.trace ++ [.ret r] }

end Sys2Proof.Machine
end

