-- ==== Sys2Proof/Machine/Framer.lean ====
section
/-! DEFINITION. The Command Framer, one event a step: the phases of 40_command_framer.md rule R94, which are the program
points of `Frame` (rule R80). -/

namespace Sys2Proof.Machine

/-- The phase after the head byte, and after data byte number `i - 1`: `F_DATA` while bytes remain (R94). -/
def dataOrRel (s : State) (t : Txn) (i : Nat) : Phase :=
  if i < (txnOut s t).length then .frame t .data else .frame t .rel

/-- The phase after the bracket has closed (R94, R123). -/
def afterFrame : Txn → Phase
  | .op => .ret
  | .load => .tArm
  | .rdst => .frame .clr .sel
  | .clr => .tClass
  | .flush => .tRet

/-- `F_SEL`: `CSN(0)` (R94). -/
def frameSel (t : Txn) (s : State) : State := (s.driveCsn .low).goto (.frame t .head)

/-- `F_HEAD`: `X(h, s)`, `ST <- s`, `IDX <- 0` (R94). Enabled when the environment completes the exchange. -/
def frameHead (t : Txn) (s : State) : State :=
  match s.env.replies with
  | [] => s
  | r :: rest =>
    ((s.xchg (txnHead s t) r rest).latchStatus r.rx).goto (dataOrRel s t 0)

/-- `F_DATA`: `X(out[IDX], r)`, `IN[IDX] <- r`, `IDX <- IDX + 1` (R94). Enabled when the environment completes the
exchange. With no byte left to send, which no run reaches, the bracket closes. -/
def frameData (t : Txn) (s : State) : State :=
  match (txnOut s t)[s.idx]? with
  | none => s.goto (.frame t .rel)
  | some o =>
    match s.env.replies with
    | [] => s
    | r :: rest =>
      ((s.xchg o r rest).latchData r.rx).goto (dataOrRel s t (s.idx + 1))

/-- What the caller does with the transaction's result when the bracket closes: TXPKT's read of STATUS goes to `S`
(R116, R123); every other caller reads `ST` and `IN` at its `RET`. -/
def takeResult (t : Txn) (s : State) : State :=
  match t with
  | .rdst => s.latchS
  | .op | .load | .clr | .flush => s

/-- `F_REL`: `CSN(close)`, and back to the caller (R94). -/
def frameRel (t : Txn) (s : State) : State :=
  (takeResult t (s.driveCsn (txnClose s t))).goto (afterFrame t)

/-- One step of the framer (R94). -/
def frameTick (t : Txn) (f : FramePhase) (s : State) : State :=
  match f with
  | .sel => frameSel t s
  | .head => frameHead t s
  | .data => frameData t s
  | .rel => frameRel t s

/-- The response of a framer operation or of SETCE (R63, R81 to R85). -/
def opResponse (s : State) : Response :=
  match s.ops.opsel with
  | .wreg => .status s.st
  | .rreg => .value (s.inBytes.getD 0 0x00#8)
  | .rbuf => .buffer s.st (s.inBytes.take s.ops.count)
  | .wbuf => .status s.st
  | .setce | .txpkt => .empty

end Sys2Proof.Machine
end

