-- ==== Sys2Proof/Machine/Transmit.lean ====
section
/-! DEFINITION. The Transmit State Machine, one event a step: the phases of 41_transmit_fsm.md rule R123 that are not
framer phases. -/

namespace Sys2Proof.Machine

/-- `T_ARM`: `CE <- 1` (R113). -/
def transmitArm (s : State) : State := (s.driveCe .high).goto .tPoll

/-- `T_POLL`: one sample; a sample of 1 stays, a sample of 0 leaves (R114). -/
def transmitPoll (s : State) : State :=
  s.irqSample.goto
    (match s.env.sample.level with
     | .high => .tPoll
     | .low => .tSettle)

/-- `T_SETTLE`: `CE <- 0` (R115). -/
def transmitSettle (s : State) : State := (s.driveCe .low).goto (.frame .rdst .sel)

/-- `T_CLASS`: tests bits 4 and 5 of `S`; no event (R117, R123). -/
def transmitClass (s : State) : State :=
  s.goto (if flushNeeded s.sReg then .frame .flush .sel else .tRet)

/-- `T_RET`: returns the outcome (R117, R121). -/
def transmitRet (s : State) : State := s.finish (.outcome (classify s.sReg))

end Sys2Proof.Machine
end

