-- ==== Sys2Proof/Machine/Sequencer.lean ====
section
/-! DEFINITION. The machine's micro-steps and the run of an operation: the block's sequencer (10_state.md rule R13,
40_command_framer.md rules R94 and R97, 41_transmit_fsm.md rule R123), the host's part (42_host_sequences.md
rule R140), and the run until the machine rests. -/

namespace Sys2Proof.Machine

/-- `C_SET`: `CE <- l` (R85, R94). -/
def ceSet (s : State) : State := (s.driveCe (levelOf s.ops.val)).goto .ret

/-- The return of a framer operation and of SETCE (R94, R97). -/
def opRet (s : State) : State := s.finish (opResponse s)

/-- One step of the block's sequencer: at most one event (R94, R123). -/
def blockTick (s : State) : State :=
  match s.seq with
  | .idle => s
  | .frame t f => frameTick t f s
  | .cSet => ceSet s
  | .tArm => transmitArm s
  | .tPoll => transmitPoll s
  | .tSettle => transmitSettle s
  | .tClass => transmitClass s
  | .tRet => transmitRet s
  | .ret => opRet s

/-- The host's comparison in PRESENT (R142): an exact match of the bytes RBUF returned. -/
def matchesPattern (r : Option Response) (pattern : List Byte) : Bool :=
  match r with
  | some (.buffer _ bytes) => bytes == pattern
  | _ => false

/-- One step of the host while the block is idle (R140): it presents the next operation of its sequence, or works on
the response it has. A read-modify-write whose read returned no value, which no run reaches, ends. -/
def hostTick (s : State) : State :=
  match s.hostSeq with
  | [] => s
  | .op o :: rest => { s with hostSeq := rest }.accept o
  | .writeBack a keep set :: rest =>
    match s.resp with
    | some (.value c) => { s with hostSeq := rest }.accept (opWreg a ((c &&& keep) ||| set))
    | _ => { s with hostSeq := rest }
  | .compare pattern :: rest =>
    { s with hostSeq := rest, presence := some (matchesPattern s.resp pattern) }

/-- One micro-step of the whole machine (R6): the block's while it is busy, else the host's. -/
def micro (s : State) : State := if s.busy then blockTick s else hostTick s

/-- The block waits for an exchange to complete (R30, R177). -/
def waitsForReply (s : State) : Bool :=
  match s.seq with
  | .frame _ .head => s.env.replies.isEmpty
  | .frame t .data => s.env.replies.isEmpty && (txnOut s t)[s.idx]?.isSome
  | _ => false

/-- The block polls a line of which the environment has said no more than that it stays at 1 (R114, R177). -/
def pollsForEver (s : State) : Bool :=
  s.seq == .tPoll && s.env.samples.isEmpty && s.env.line == .high

/-- The machine rests: the operation is over, or it goes no further until the environment acts. A busy block in
`S_IDLE`, which no run reaches, rests too. -/
def atRest (s : State) : Bool :=
  if s.busy then s.seq == .idle || waitsForReply s || pollsForEver s else s.hostSeq.isEmpty

/-- Steps left in a framer transaction with `n` data bytes, at most. -/
def frameCost (n idx : Nat) : FramePhase → Nat
  | .sel => n + 4
  | .head => n + 3
  | .data => (n - idx) + 2
  | .rel => 1

/-- Steps of TXPKT left from `T_CLASS` on, at most. -/
def classCost (p : Params) : Nat := p.flushTrailer.length + 6

/-- Steps left in an operation once the given transaction is over, at most, but for the scripted samples. -/
def tailCost (p : Params) : Txn → Nat
  | .op => 1
  | .flush => 1
  | .clr => classCost p
  | .rdst => 5 + classCost p
  | .load => 13 + classCost p

/-- Steps left in the current operation, at most, but for the scripted samples. -/
def phaseCost (s : State) : Nat :=
  match s.seq with
  | .idle => 0
  | .ret => 1
  | .cSet => 2
  | .tRet => 1
  | .tClass => classCost s.params
  | .tSettle => 11 + classCost s.params
  | .tPoll => 12 + classCost s.params
  | .tArm => 13 + classCost s.params
  | .frame t f => frameCost (txnOut s t).length s.idx f + tailCost s.params t

/-- Steps of a host step, at most. -/
def hostStepCost (p : Params) : HostStep → Nat
  | .op o => (opOut p o).length + 18 + classCost p
  | .writeBack _ _ _ => 7
  | .compare _ => 1

/-- A bound on the micro-steps before the machine rests. -/
def cost (s : State) : Nat :=
  (if s.busy then phaseCost s else 0) + (s.hostSeq.map (hostStepCost s.params)).sum
    + s.env.samples.length

/-- Micro-steps until the machine rests, at most `k` of them. -/
def run : Nat → State → State
  | 0, s => s
  | k + 1, s => if atRest s then s else run k (micro s)

/-- Runs the machine until it rests. -/
def settle (s : State) : State := run (cost s) s

/-- The meaning of an operation (R97, R140): refused while another is in progress and outside its domain; else the
host presents the operation's steps one after another and the machine runs until it rests, which is the end
of the operation or the point where the environment keeps it waiting. -/
def perform (i : Instr) (steps : List HostStep) (s : State) :
    Host.Outcome State Fault Refusal :=
  if s.busy || !s.hostSeq.isEmpty then .refused .busy
  else
    match i.illegal s.params with
    | some why => .refused (.illegal why)
    | none => .next (settle { s with hostSeq := steps })

end Sys2Proof.Machine
end

