-- ==== Sys2Proof/Machine/HostOps.lean ====
section
/-! DEFINITION. The six primitive operations (30_encoding.md rule R61): the four of the framer's contract
(40_command_framer.md rules R81 to R84), SETCE (rule R85) and TXPKT (41_transmit_fsm.md rule R110). -/

namespace Sys2Proof.Machine

/-- WREG (R81). -/
def execWreg (a : RegAddr) (v : Byte) (s : State) : Host.Outcome State Fault Refusal :=
  perform (.wreg a v) [.op (opWreg a v)] s

/-- RREG (R82). -/
def execRreg (a : RegAddr) (s : State) : Host.Outcome State Fault Refusal :=
  perform (.rreg a) [.op (opRreg a)] s

/-- RBUF, register form (R83). -/
def execRbufReg (a : RegAddr) (n : Nat) (s : State) : Host.Outcome State Fault Refusal :=
  perform (.rbufReg a n) [.op (opRbuf .reg (regByte a) n)] s

/-- RBUF, fixed-command form (R83). -/
def execRbufCmd (c : Byte) (n : Nat) (s : State) : Host.Outcome State Fault Refusal :=
  perform (.rbufCmd c n) [.op (opRbuf .cmd c n)] s

/-- WBUF, register form (R84). -/
def execWbufReg (a : RegAddr) (data : List Byte) (s : State) : Host.Outcome State Fault Refusal :=
  perform (.wbufReg a data) [.op (opWbuf .reg (regByte a) data)] s

/-- WBUF, fixed-command form (R84). -/
def execWbufCmd (c : Byte) (data : List Byte) (s : State) : Host.Outcome State Fault Refusal :=
  perform (.wbufCmd c data) [.op (opWbuf .cmd c data)] s

/-- TXPKT (R110). -/
def execTxpkt (payload : List Byte) (s : State) : Host.Outcome State Fault Refusal :=
  perform (.txpkt payload) [.op (opTxpkt payload)] s

/-- SETCE (R85). -/
def execSetce (l : Level) (s : State) : Host.Outcome State Fault Refusal :=
  perform (.setce l) [.op (opSetce l)] s

end Sys2Proof.Machine
end

