-- ==== Sys2Proof/Machine/Pseudo.lean ====
section
/-! DEFINITION. The host's sequences (42_host_sequences.md): each is a fixed list of primitive operations that the host
presents one after another. -/

namespace Sys2Proof.Machine

/-- PRESENT (R142). -/
def presentSteps (p : Params) : List HostStep :=
  [.op (opWbuf .reg (regByte p.aTxAddr) p.pattern.toList),
   .op (opRbuf .reg (regByte p.aTxAddr) 5),
   .compare p.pattern.toList]

/-- SETCH (R144). -/
def setChStep (p : Params) (ch : Nat) : HostStep := .op (opWreg p.aRfCh (channelByte ch))

/-- ENTERTX, its eight steps in order (R143). -/
def enterTxSteps (p : Params) (cfg : TxConfig) : List HostStep :=
  [.op (opSetce .low),
   .op (opWreg p.aSetupRetr (packRetr cfg.delay cfg.count)),
   .op (opWreg p.aRfSetup (packRfSetup cfg)),
   .op (opWreg p.aConfig (packConfig p cfg)),
   setChStep p cfg.channel,
   .op (opWbuf .reg (regByte p.aTxAddr) (cfg.addr.take cfg.width)),
   .op (opWreg p.aEnAa p.mEnaaP0),
   .op (opWbuf .reg (regByte p.aRxAddrP0) (cfg.addr.take cfg.width))]

/-- PWRDN (R145). -/
def pwrDnSteps (p : Params) : List HostStep :=
  [.op (opSetce .low), .op (opRreg p.aConfig), .writeBack p.aConfig (~~~p.mPwrUp) 0x00#8]

/-- WAKE (R146). -/
def wakeSteps (p : Params) : List HostStep :=
  [.op (opRreg p.aConfig), .writeBack p.aConfig 0xFF#8 p.mPwrUp]

/-- SETPWR (R147). -/
def setPwrSteps (p : Params) (level : Byte) : List HostStep :=
  [.op (opRreg p.aRfSetup), .writeBack p.aRfSetup (~~~p.mRfPwr) level]

/-- PRESENT (R142). -/
def execPresent (s : State) : Host.Outcome State Fault Refusal :=
  perform .present (presentSteps s.params) s

/-- ENTERTX (R143). -/
def execEnterTx (cfg : TxConfig) (s : State) : Host.Outcome State Fault Refusal :=
  perform (.enterTx cfg) (enterTxSteps s.params cfg) s

/-- SETCH (R144). -/
def execSetCh (ch : Nat) (s : State) : Host.Outcome State Fault Refusal :=
  perform (.setCh ch) [setChStep s.params ch] s

/-- PWRDN (R145). -/
def execPwrDn (s : State) : Host.Outcome State Fault Refusal :=
  perform .pwrDn (pwrDnSteps s.params) s

/-- WAKE (R146). -/
def execWake (s : State) : Host.Outcome State Fault Refusal :=
  perform .wake (wakeSteps s.params) s

/-- SETPWR (R147). -/
def execSetPwr (level : Byte) (s : State) : Host.Outcome State Fault Refusal :=
  perform (.setPwr level) (setPwrSteps s.params level) s

/-- FLUSHTX (R148). -/
def execFlushTxFifo (s : State) : Host.Outcome State Fault Refusal :=
  perform .flushTxFifo [.op (opWbuf .cmd s.params.opFlushTx s.params.flushTrailer)] s

end Sys2Proof.Machine
end

