-- ==== Sys2Proof/Machine/Wire.lean ====
section
/-! DEFINITION. The seven wire commands (40_command_framer.md rules R87 to R93): each is the transaction its rule writes,
carried by the buffer operation that issues it. Its effect on the chip is `Machine/Chip.lean`'s. -/

namespace Sys2Proof.Machine

/-- R_REGISTER (R87): `Frame(OP_R_REGISTER | zext_8(a), [DUMMY]*n, close)`, carried by RBUF in register form. -/
def execRRegister (a : RegAddr) (n : Nat) (s : State) : Host.Outcome State Fault Refusal :=
  perform (.rRegister a n) [.op (opRbuf .reg (regByte a) n)] s

/-- W_REGISTER (R88): `Frame(OP_W_REGISTER | zext_8(a), bytes, 1)`, carried by WBUF in register form. -/
def execWRegister (a : RegAddr) (data : List Byte) (s : State) : Host.Outcome State Fault Refusal :=
  perform (.wRegister a data) [.op (opWbuf .reg (regByte a) data)] s

/-- R_RX_PAYLOAD (R89): `Frame(OP_R_RX_PAYLOAD, [DUMMY]*n, close)`, carried by RBUF in fixed-command form. -/
def execRRxPayload (n : Nat) (s : State) : Host.Outcome State Fault Refusal :=
  perform (.rRxPayload n) [.op (opRbuf .cmd s.params.opRRxPayload n)] s

/-- W_TX_PAYLOAD (R90): `Frame(OP_W_TX_PAYLOAD, payload, 1)`, carried by WBUF in fixed-command form. -/
def execWTxPayload (data : List Byte) (s : State) : Host.Outcome State Fault Refusal :=
  perform (.wTxPayload data) [.op (opWbuf .cmd s.params.opWTxPayload data)] s

/-- FLUSH_TX (R91): `WBUF(Cmd OP_FLUSH_TX, FLUSH_TRAILER)`. -/
def execFlushTx (s : State) : Host.Outcome State Fault Refusal :=
  perform .flushTx [.op (opWbuf .cmd s.params.opFlushTx s.params.flushTrailer)] s

/-- FLUSH_RX (R92): `Frame(OP_FLUSH_RX, [], 1)`. -/
def execFlushRx (s : State) : Host.Outcome State Fault Refusal :=
  perform .flushRx [.op (opWbuf .cmd s.params.opFlushRx [])] s

/-- NOP (R93): `Frame(OP_NOP, [], 1)`. -/
def execNop (s : State) : Host.Outcome State Fault Refusal :=
  perform .nop [.op (opWbuf .cmd s.params.opNop [])] s

end Sys2Proof.Machine
end

