-- ==== Sys2Proof/Machine/Dispatch.lean ====
section
/-! DEFINITION. One arm per operation. -/

namespace Sys2Proof.Machine

/-- What each operation does. -/
def exec (i : Instr) (s : State) : Host.Outcome State Fault Refusal :=
  match i with
  | .rRegister a n => Sys2Proof.Machine.execRRegister a n s
  | .wRegister a data => Sys2Proof.Machine.execWRegister a data s
  | .rRxPayload n => Sys2Proof.Machine.execRRxPayload n s
  | .wTxPayload data => Sys2Proof.Machine.execWTxPayload data s
  | .flushTx => Sys2Proof.Machine.execFlushTx s
  | .flushRx => Sys2Proof.Machine.execFlushRx s
  | .nop => Sys2Proof.Machine.execNop s
  | .wreg a v => Sys2Proof.Machine.execWreg a v s
  | .rreg a => Sys2Proof.Machine.execRreg a s
  | .rbufReg a n => Sys2Proof.Machine.execRbufReg a n s
  | .rbufCmd c n => Sys2Proof.Machine.execRbufCmd c n s
  | .wbufReg a data => Sys2Proof.Machine.execWbufReg a data s
  | .wbufCmd c data => Sys2Proof.Machine.execWbufCmd c data s
  | .txpkt payload => Sys2Proof.Machine.execTxpkt payload s
  | .setce l => Sys2Proof.Machine.execSetce l s
  | .present => Sys2Proof.Machine.execPresent s
  | .enterTx cfg => Sys2Proof.Machine.execEnterTx cfg s
  | .setCh ch => Sys2Proof.Machine.execSetCh ch s
  | .pwrDn => Sys2Proof.Machine.execPwrDn s
  | .wake => Sys2Proof.Machine.execWake s
  | .setPwr level => Sys2Proof.Machine.execSetPwr level s
  | .flushTxFifo => Sys2Proof.Machine.execFlushTxFifo s

end Sys2Proof.Machine
end

