-- ==== Sys2Proof/Machine/Fetch.lean ====
section
/-! DEFINITION. What a step takes up: the operation in progress, or the next request at the command port
(40_command_framer.md rule R97, 20_memory.md rule R42). -/

namespace Sys2Proof.Machine

/-- The machine is not between two operations of the command port: the block is busy or the host is inside a
sequence (R97, R140). -/
def inProgress (s : State) : Bool := s.busy || !s.hostSeq.isEmpty

/-- The next request at the command port, decoded, and the state without it (R42). The data bytes that it asks for and
that did not come are free values, fresh ones each time (log entry 6). -/
def fetch (s : State) : Option (Except DecodeError Instr × State) :=
  match s.inbox with
  | [] => none
  | r :: rest => 
    some (decode s.params (r.complete s.freeCount),
      { s with inbox := rest, freeCount := s.freeCount + r.missing })

/-- The operation in progress goes on: one micro-step if one is enabled, then on until the machine rests again. A
block that waits for an exchange stays as it is (R177). -/
def continueRun (s : State) : State := settle (micro s)

/-- The state with a request at the head of the command port and nothing in progress. -/
def State.present (r : Request) (s : State) : State :=
  { s with busy := false, seq := .idle, hostSeq := [], inbox := r :: s.inbox }

end Sys2Proof.Machine
end

