-- ==== Sys2Proof/Machine/Step.lean ====
section
/-! DEFINITION. One step of the machine: the operation in progress goes on, or the next operation of the command port is
decoded and performed. -/

namespace Sys2Proof.Machine

/-- One step (R97). With nothing in progress and nothing at the port the block waits (R200). A request that is no
legal operation is refused (R64). -/
def step (s : State) : Host.Outcome State Fault Refusal :=
  if inProgress s then .next (continueRun s)
  else
    match fetch s with
    | none => .next s
    | some (.error e, _) => .refused (.undecodable e)
    | some (.ok i, s') => exec i s'

/-- `s` with an instruction, given by its bits in spec/opcode_table.json, where the next step fetches it. -/
def State.withFetchWord (s : State) (nbits w : Nat) : State :=
  match tableRequest nbits w with
  | some r => s.present r
  | none => s

end Sys2Proof.Machine
end

