-- ==== Sys2Proof/Safety.lean ====
section
/-! DEFINITION. The terms in which claims are made: the idle machine, the events and the effect of one whole bracket
(40_command_framer.md rule R80), what the trace says of the two lines, and the invariant that every
step keeps. -/

namespace Sys2Proof.Machine

/-- Nothing is in progress: the block is idle and the host is in no sequence (R97, R140). -/
abbrev State.Idle (s : State) : Prop := inProgress s = false

/-- The exchanges of the data bytes `out`, answered by `rs` (R80). -/
def dataEvents (out : List Byte) (rs : List Reply) : List Event :=
  List.zipWith (fun o r => Event.x o r.rx) out rs

/-- The events of `Frame(h, out, close)` answered by `r0` and then `rs` (R80). -/
def frameEvents (h : Byte) (out : List Byte) (close : Level) (r0 : Reply) (rs : List Reply) :
    List Event :=
  [.csn .low, .x h r0.rx] ++ dataEvents out rs ++ [.csn close]

/-- The bytes received with a list of answers. -/
def received (rs : List Reply) : List Byte := rs.map Reply.rx

/-- From `s` the operation `i` is accepted and never returns (R30, R177): after the events `done` it waits for ever inside
the bracket of the transaction `t`, of whose command byte `h` and data bytes `out` the environment has answered the
first with `rs`: busy, chip-select low, with no response, and no step changes anything. -/
def HangsIn (i : Instr) (s : State) (t : Txn) (done : List Event) (h : Byte) (out : List Byte)
    (rs : List Reply) : Prop :=
  ∃ u f, exec i s = .next u ∧ u.busy = true ∧ u.seq = .frame t f ∧ u.csn = .low ∧ u.resp = s.resp
    ∧ u.env.replies = [] ∧ u.trace = s.trace ++ done ++ [.csn .low] ++ dataEvents (h :: out) rs
    ∧ step u = .next u

/-- The chip after its own moves alone (R46). -/
def Chip.movedAll (c : Chip) (rs : List Reply) : Chip := rs.foldl (fun c r => c.moved r.chip) c

/-- The chip after the data bytes `out` of a transaction with command byte `h`, from number `j` on, each after the
chip's own move up to that exchange (R38, R88). -/
def Chip.takeAll (p : Params) (h : Byte) : Nat → List Byte → List Reply → Chip → Chip
  | j, o :: out, r :: rs, c => Chip.takeAll p h (j + 1) out rs (Chip.takeData p h j o (c.moved r.chip))
  | _, _, _, c => c

/-- The chip after a whole bracket that opened with chip-select at `old` (R80, R38): what the spec states of it if
the bracket opened with a falling edge, and its own moves alone if it did not (R214). -/
def bracketChip (p : Params) (old close : Level) (h : Byte) (out : List Byte) (r0 : Reply)
    (rs : List Reply) (c : Chip) : Chip :=
  match old with
  | .low => c.movedAll (r0 :: rs)
  | .high =>
    match close with
    | .low => Chip.takeAll p h 0 out rs (c.moved r0.chip)
    | .high => Chip.finish p { cmd := some h, data := out } (Chip.takeAll p h 0 out rs (c.moved r0.chip))

/-- `IN` after a bracket whose data exchanges were answered by `rs`: what it was if there were none (R15, R16). -/
def latched (old : List Byte) (rs : List Reply) : List Byte :=
  match rs with
  | [] => old
  | _ :: _ => received rs

/-- The state after a framer operation with the latches `o` whose bracket sent the command byte `h` and the data bytes
`out`, closed at `close`, was answered by `r0` and `rs`, and returned `r`: everything it writes, and
everything else as in `s` (R80). -/
def framerEnd (o : Operands) (h : Byte) (out : List Byte) (close : Level) (r : Response)
    (r0 : Reply) (rs rest : List Reply) (s : State) : State :=
  { s with
    csn := close
    seq := .idle
    idx := rs.length
    ops := o
    st := r0.rx
    inBytes := latched s.inBytes rs
    resp := some r
    env := { s.env with replies := rest }
    chip := bracketChip s.params s.csn close h out r0 rs s.chip
    bus := none
    trace := s.trace ++ frameEvents h out close r0 rs ++ [.ret r] }

/-- The operands with which the block carries a framer operation or a wire command (R81 to R84, R87 to R93). -/
def carriedBy (p : Params) : Instr → Option Operands
  | .rRegister a n => some (opRbuf .reg (regByte a) n)
  | .wRegister a data => some (opWbuf .reg (regByte a) data)
  | .rRxPayload n => some (opRbuf .cmd p.opRRxPayload n)
  | .wTxPayload data => some (opWbuf .cmd p.opWTxPayload data)
  | .flushTx => some (opWbuf .cmd p.opFlushTx p.flushTrailer)
  | .flushRx => some (opWbuf .cmd p.opFlushRx [])
  | .nop => some (opWbuf .cmd p.opNop [])
  | .wreg a v => some (opWreg a v)
  | .rreg a => some (opRreg a)
  | .rbufReg a n => some (opRbuf .reg (regByte a) n)
  | .rbufCmd c n => some (opRbuf .cmd c n)
  | .wbufReg a data => some (opWbuf .reg (regByte a) data)
  | .wbufCmd c data => some (opWbuf .cmd c data)
  | .flushTxFifo => some (opWbuf .cmd p.opFlushTx p.flushTrailer)
  | .txpkt _ | .setce _ | .present | .enterTx _ | .setCh _ | .pwrDn | .wake | .setPwr _ => none

/-- The host steps of an operation: the one operation that carries it, or the sequence of its rule (R142 to R147). -/
def hostSteps (p : Params) (i : Instr) : List HostStep :=
  match i with
  | .rRegister _ _ | .wRegister _ _ | .rRxPayload _ | .wTxPayload _ | .flushTx | .flushRx | .nop
  | .wreg _ _ | .rreg _ | .rbufReg _ _ | .rbufCmd _ _ | .wbufReg _ _ | .wbufCmd _ _ | .flushTxFifo =>
    ((carriedBy p i).map HostStep.op).toList
  | .txpkt payload => [.op (opTxpkt payload)]
  | .setce l => [.op (opSetce l)]
  | .present => presentSteps p
  | .enterTx cfg => enterTxSteps p cfg
  | .setCh ch => [setChStep p ch]
  | .pwrDn => pwrDnSteps p
  | .wake => wakeSteps p
  | .setPwr level => setPwrSteps p level

/-- The registers the spec names (R19). -/
def namedRegisters (p : Params) : List RegAddr :=
  [p.aConfig, p.aEnAa, p.aSetupRetr, p.aRfCh, p.aRfSetup, p.aStatus, p.aRxAddrP0, p.aTxAddr, p.aFifoStatus]

/-- The coming samples of the interrupt line: those of `hs`, all 1, then `x`, the first that is 0, and `more` after it.
The line may have been scripted up to `x`, or keep the level 0 once the script `hs` is used up (R12, R114). -/
def NextLow (e : Env) (hs : List Sample) (x : Sample) (more : List Sample) : Prop :=
  (∀ h ∈ hs, h.level = .high) ∧ x.level = .low
    ∧ (e.samples = hs ++ x :: more
        ∨ (e.samples = hs ∧ x = { level := e.line, chip := none } ∧ more = []))

/-- The chip after its own moves up to these samples (R46). -/
def Chip.sampledAll (c : Chip) (xs : List Sample) : Chip := xs.foldl (fun c x => c.moved x.chip) c

/-- The chip changes nothing by itself in these exchanges. -/
def Quiet (rs : List Reply) : Prop := ∀ r ∈ rs, r.chip = none

/-- The level of chip-select after a run of events that began at level `l`. -/
def csnAfter (l : Level) : List Event → Level
  | [] => l
  | .csn v :: es => csnAfter v es
  | .ce _ :: es | .x _ _ :: es | .irq _ :: es | .ret _ :: es => csnAfter l es

/-- The level of chip-enable after a run of events that began at level `l`. -/
def ceAfter (l : Level) : List Event → Level
  | [] => l
  | .ce v :: es => ceAfter v es
  | .csn _ :: es | .x _ _ :: es | .irq _ :: es | .ret _ :: es => ceAfter l es

/-- Every exchange of the run happens while chip-select is low (R31, R96 (b)). -/
def exchangesSelected (l : Level) : List Event → Bool
  | [] => true
  | .csn v :: es => exchangesSelected v es
  | .x _ _ :: es => (l == .low) && exchangesSelected l es
  | .ce _ :: es | .irq _ :: es | .ret _ :: es => exchangesSelected l es

/-- A chip whose register memory is in canonical form. -/
def Chip.wf (p : Params) (c : Chip) : Bool := Memory.wf (Chip.unlisted p) c.regs

/-- An environment whose moves of the chip are all in canonical form. -/
def Env.wf (p : Params) (e : Env) : Bool :=
  e.replies.all (fun r => (r.chip.map (Chip.wf p)).getD true)
    && e.samples.all (fun x => (x.chip.map (Chip.wf p)).getD true)

/-- Operands as acceptance latches them (R14, R37). -/
def Operands.wf (p : Params) (o : Operands) : Bool :=
  decide (o.count ≤ p.nMax)
    && match o.opsel with
       | .wbuf | .txpkt => o.count == o.data.length
       | .wreg | .rreg => o.count == 1
       | .rbuf => true
       | .setce => o.count == 0

/-- Where in a bracket the phase is: chip-select is low from `F_HEAD` to `F_REL` (R94). -/
def Phase.inBracket : Phase → Bool
  | .frame _ .head | .frame _ .data | .frame _ .rel => true
  | .frame _ .sel => false
  | .idle | .cSet | .tArm | .tPoll | .tSettle | .tClass | .tRet | .ret => false

/-- The phases of TXPKT between `CE <- 1` and `CE <- 0` (R113, R115). -/
def Phase.armed : Phase → Bool
  | .tPoll | .tSettle => true
  | .frame _ _ | .idle | .cSet | .tArm | .tClass | .tRet | .ret => false

/-- The phases of TXPKT after `CE <- 0` (R115). -/
def Phase.settled : Phase → Bool
  | .frame .rdst _ | .frame .clr _ | .frame .flush _ | .tClass | .tRet => true
  | .frame .op _ | .frame .load _ | .idle | .cSet | .tArm | .tPoll | .tSettle | .ret => false

/-- The phases that an operation goes through (R94, R123). -/
def Phase.belongs (o : OpSel) : Phase → Bool
  | .idle => true
  | .frame .op _ => o == .wreg || o == .rreg || o == .rbuf || o == .wbuf
  | .frame .load _ | .frame .rdst _ | .frame .clr _ | .frame .flush _ => o == .txpkt
  | .cSet => o == .setce
  | .tArm | .tPoll | .tSettle | .tClass | .tRet => o == .txpkt
  | .ret => o != .txpkt

/-- The host steps of a sequence are legal operations. -/
def HostStep.wf (p : Params) : HostStep → Bool
  | .op o => o.wf p
  | .writeBack _ _ _ => true
  | .compare _ => true

/-- The brackets of this instance all close high, and chip-select was high at reset (R96 (a)). -/
def closesHigh (p : Params) : Bool := !p.rbufCloseLow && p.resetCsn == .high

/-- The invariant that every step keeps. -/
structure Invariant (s : State) : Prop where
  /-- The parameters meet R7's constraints. -/
  paramsWf : s.params.wf = true
  /-- `SEQ` is `S_IDLE` exactly when `BUSY` is 0 (R97). -/
  idle_iff : s.busy = false ↔ s.seq = .idle
  /-- The phase is one of the latched operation's (R94, R123). -/
  belongs : s.seq.belongs s.ops.opsel = true
  /-- The operand latches hold legal operands while an operation is performed (R14, R37). -/
  operands : s.busy = true → s.ops.wf s.params = true
  /-- So do the operations the host is going to present. -/
  host : s.hostSeq.all (HostStep.wf s.params) = true
  /-- Chip-select is low inside a bracket (R80, R94). -/
  selected : s.seq.inBracket = true → s.csn = .low
  /-- Chip-select is high outside a bracket, where every bracket closes high (R96 (a)). -/
  released : closesHigh s.params = true → s.seq.inBracket = false → s.csn = .high
  /-- Chip-enable is high from `T_ARM` to `T_SETTLE` (R113, R115). -/
  armed : s.seq.armed = true → s.ce = .high
  /-- Chip-enable is low from `T_SETTLE` to the end of TXPKT (R115, R121). -/
  settled : s.seq.settled = true → s.ce = .low
  /-- In `F_DATA` a byte remains to be sent (R94). -/
  index : ∀ t, s.seq = .frame t .data → s.idx < (txnOut s t).length
  /-- No transaction is open outside a bracket. -/
  closed : s.seq.inBracket = false → s.bus = none
  /-- The chip-select latch is what the trace says (R9, R10). -/
  csnTrace : csnAfter s.params.resetCsn s.trace = s.csn
  /-- The chip-enable latch is what the trace says (R9, R11). -/
  ceTrace : ceAfter s.params.resetCe s.trace = s.ce
  /-- Every exchange so far happened while chip-select was low (R31, R96 (b)). -/
  exchanges : exchangesSelected s.params.resetCsn s.trace = true
  /-- The chip's register memory has its canonical form. -/
  chipWf : s.chip.wf s.params = true
  /-- So have the moves the environment is going to make. -/
  envWf : s.env.wf s.params = true

end Sys2Proof.Machine
end

