-- ==== Sys2Proof/Certificates/Slice0/Obligations.lean ====
section
/-! DEFINITION. The statements for the provers, rule by rule of spec/. A hypothesis `s.Idle` says that the block may accept
an operation (40_command_framer.md rule R97); the answers of the environment are any answers
(20_memory.md rule R46) unless a hypothesis says otherwise. -/

open Sys2Proof Sys2Proof.Machine

/-! ### Reset and the step -/

/-- R200: the lines at their inactive levels, the block idle, no event; and the block waits for the first operation.
(R200 is the spec's own decision D5. That the other latches, the chip and the environment hold the values they
hold is the model's choice, log entries 8 to 10, and is not stated.) -/
def Obligations.ResetLeavesLinesInactiveAndWaits : Prop :=
  (State.reset.csn = .high ∧ State.reset.ce = .low ∧ State.reset.busy = false
      ∧ State.reset.seq = .idle ∧ State.reset.idx = 0 ∧ State.reset.trace = [])
    ∧ (∀ p, (State.resetWith p).csn = p.resetCsn ∧ (State.resetWith p).ce = p.resetCe)
    ∧ step State.reset = .next State.reset

/-- A step runs the decoded operation: with nothing in progress, the request at the head of the command port is
decoded and performed on the state without it; one that decodes to nothing is refused by name; and with
none at the port the block waits (R42, R64, R97, R200). Data bytes that the request asks for and that did not come
with it are filled in with free values, which the counter of free values then passes by (log entry 6). -/
def Obligations.StepDecodesAndPerformsTheNextRequest : Prop :=
  ∀ s : State, s.Idle →
    (s.inbox = [] → step s = .next s)
      ∧ ∀ r rest, s.inbox = r :: rest →
          (∀ i, decode s.params (r.complete s.freeCount) = .ok i →
              step s = exec i { s with inbox := rest, freeCount := s.freeCount + r.missing })
            ∧ ∀ e, decode s.params (r.complete s.freeCount) = .error e →
              step s = .refused (.undecodable e)

/-- R97: while an operation is in progress none is accepted: every operation is refused, and a step goes on with the
one in progress and leaves the command port alone. R97 speaks of BUSY; that the same holds between the primitive
operations of a host sequence (R140), where BUSY is 0, is the model's choice (log entry 17). -/
def Obligations.NothingIsAcceptedWhileBusy : Prop :=
  ∀ s : State, ¬ s.Idle →
    (∀ i, exec i s = .refused .busy) ∧ ∃ t, step s = .next t ∧ t.inbox = s.inbox

/-- D10, D28, D29, R64: an operation outside its domain is refused by the name of its reason: more data bytes than
`N_MAX`, a fixed command that is none of the five, a channel above 127, a configuration with a field
outside its domain. (SETPWR with a level outside its domain runs: `WakeAndSetPwrModifyOneField`.) -/
def Obligations.OutOfDomainOperationsAreRefused : Prop :=
  ∀ s : State, s.Idle →
    (∀ a n, s.params.nMax < n →
        exec (.rRegister a n) s = .refused (.illegal .countAboveMax)
          ∧ exec (.rRxPayload n) s = .refused (.illegal .countAboveMax)
          ∧ exec (.rbufReg a n) s = .refused (.illegal .countAboveMax))
      ∧ (∀ a data, s.params.nMax < data.length →
          exec (.wRegister a data) s = .refused (.illegal .countAboveMax)
            ∧ exec (.wTxPayload data) s = .refused (.illegal .countAboveMax)
            ∧ exec (.wbufReg a data) s = .refused (.illegal .countAboveMax)
            ∧ exec (.txpkt data) s = .refused (.illegal .countAboveMax))
      ∧ (∀ c n data, c ∉ s.params.fixedCommands →
          exec (.rbufCmd c n) s = .refused (.illegal .notFixedCommand)
            ∧ exec (.wbufCmd c data) s = .refused (.illegal .notFixedCommand))
      ∧ (∀ c n data, c ∈ s.params.fixedCommands →
          (s.params.nMax < n → exec (.rbufCmd c n) s = .refused (.illegal .countAboveMax))
            ∧ (s.params.nMax < data.length →
                exec (.wbufCmd c data) s = .refused (.illegal .countAboveMax)))
      ∧ (∀ ch, 127 < ch → exec (.setCh ch) s = .refused (.illegal .channelOutOfDomain))
      ∧ ∀ cfg : TxConfig,
          (15 < cfg.count ∨ 15 < cfg.delay ∨ 127 < cfg.channel ∨ cfg.dataRate ∉ s.params.rate
            ∨ cfg.txPower ∉ s.params.pwr ∨ (cfg.crcWidth ≠ 1 ∧ cfg.crcWidth ≠ 2)
            ∨ cfg.width < 3 ∨ 5 < cfg.width ∨ cfg.addr.length ≠ cfg.width) →
          exec (.enterTx cfg) s = .refused (.illegal .configOutOfDomain)

/-- R64, R97, R170: exactly when a step stops. It is refused, by name, if nothing is in progress and the request at the
head of the command port decodes to no operation; from every other state it answers a next state, and from none
does it fault. -/
def Obligations.AStepIsRefusedExactlyIfItsRequestDoesNotDecode : Prop :=
  ∀ s : State,
    (∀ r rest e, s.Idle → s.inbox = r :: rest →
        decode s.params (r.complete s.freeCount) = .error e → step s = .refused (.undecodable e))
      ∧ ((∀ r rest e, s.Idle → s.inbox = r :: rest →
            decode s.params (r.complete s.freeCount) ≠ .error e) →
          ∃ t, step s = .next t)

/-! ### Encodings -/

/-- Decoding an encoded well-formed operation gives it back, every operand at every value, for every choice of the
parameters that meets R7's constraints (R50 to R53, R62, R64, R68). -/
def Obligations.DecodingAnEncodedOperationGivesItBack : Prop :=
  ∀ (p : Params) (i : Instr), p.wf = true → i.WellFormed p → decode p (encode p i) = .ok i

/-- A request has one meaning: what decodes to an operation is that operation's encoding, once the request has the data
bytes that the block takes for it (`Request.taken`: a read sends `DUMMY` for each, R34; a host word takes as many
as it asks for, R62; the flushes and NOP take none; log entry 6), and the operation is well-formed. So no bit of a
command byte or a host word is ignored. -/
def Obligations.OnlyTheEncodingDecodesToAnOperation : Prop :=
  ∀ (p : Params) (r : Request) (i : Instr), p.wf = true → decode p r = .ok i →
    encode p i = r.taken p ∧ i.WellFormed p

/-- Words written out from R62's table and R53's map, for the default parameters, decode to the operations they stand
for (95_test_vectors.md V1, V3, V5, V9, V11, and a flush on the wire). -/
def Obligations.WordsOfTheSpecDecode : Prop :=
  decode Params.default (.host 0x00052800#32 []) = .ok (.wreg 0x05#5 0x28#8)
    ∧ decode Params.default (.host 0x40100005#32 []) = .ok (.rbufReg 0x10#5 5)
    ∧ decode Params.default (.host 0x60100005#32 [0x6E#8, 0x52#8, 0x46#8, 0x32#8, 0x34#8])
        = .ok (.wbufReg 0x10#5 [0x6E#8, 0x52#8, 0x46#8, 0x32#8, 0x34#8])
    ∧ decode Params.default (.host 0x80000003#32 [0x11#8, 0x22#8, 0x33#8])
        = .ok (.txpkt [0x11#8, 0x22#8, 0x33#8])
    ∧ decode Params.default (.host 0xA0000100#32 []) = .ok (.setce .high)
    ∧ decode Params.default (.wire 0xE1#8 []) = .ok .flushTx
    ∧ decode Params.default (.pseudo .present) = .ok .present

/-- R64, host side: no word with `OPSEL` 6 or 7, with `HEADSEL` = 1 where the operation takes a register only, with a
non-zero value in a must-be-zero field of its operation's row (bits 27:24; `HEAD` 23:21 in register form and all
of `HEAD` for TXPKT and SETCE; `VAL` for all but WREG, and its bits 7:1 for SETCE; `COUNT` for WREG, RREG and
SETCE), with a fixed command that is none of the five, or with a count above `N_MAX` is accepted, whatever
bytes follow it. -/
def Obligations.IllegalHostWordsAreRejected : Prop :=
  ∀ (p : Params) (w : BitVec 32) (data : List Byte) (i : Instr), decode p (.host w data) = .ok i →
    w.extractLsb' 29 3 ≠ 6#3 ∧ w.extractLsb' 29 3 ≠ 7#3 ∧ w.extractLsb' 24 4 = 0#4
      ∧ (w.extractLsb' 28 1 = 1#1 → w.extractLsb' 29 3 = 2#3 ∨ w.extractLsb' 29 3 = 3#3)
      ∧ (w.extractLsb' 28 1 = 1#1 → w.extractLsb' 16 8 ∈ p.fixedCommands)
      ∧ (w.extractLsb' 28 1 = 0#1 → w.extractLsb' 21 3 = 0#3)
      ∧ (w.extractLsb' 29 3 = 4#3 ∨ w.extractLsb' 29 3 = 5#3 → w.extractLsb' 16 8 = 0#8)
      ∧ (w.extractLsb' 29 3 ≠ 0#3 → w.extractLsb' 29 3 ≠ 5#3 → w.extractLsb' 8 8 = 0#8)
      ∧ (w.extractLsb' 29 3 = 5#3 → w.extractLsb' 9 7 = 0#7)
      ∧ (w.extractLsb' 29 3 = 0#3 ∨ w.extractLsb' 29 3 = 1#3 ∨ w.extractLsb' 29 3 = 5#3 →
          w.extractLsb' 0 8 = 0#8)
      ∧ (w.extractLsb' 0 8).toNat ≤ p.nMax

/-- R62's table: a host word that is accepted matches the row of its operation, under the row's mask. -/
def Obligations.AcceptedHostWordsMatchTheirTableRow : Prop :=
  ∀ (p : Params) (w : BitVec 32) (data : List Byte) (i : Instr), decode p (.host w data) = .ok i →
    match i with
    | .wreg _ _ => w &&& 0xFFE000FF#32 = 0x00000000#32
    | .rreg _ => w &&& 0xFFE0FFFF#32 = 0x20000000#32
    | .rbufReg _ _ => w &&& 0xFFE0FF00#32 = 0x40000000#32
    | .rbufCmd _ _ => w &&& 0xFF00FF00#32 = 0x50000000#32
    | .wbufReg _ _ => w &&& 0xFFE0FF00#32 = 0x60000000#32
    | .wbufCmd _ _ => w &&& 0xFF00FF00#32 = 0x70000000#32
    | .txpkt _ => w &&& 0xFFFFFF00#32 = 0x80000000#32
    | .setce _ => w &&& 0xFFFFFEFF#32 = 0xA0000000#32
    | .rRegister _ _ | .wRegister _ _ | .rRxPayload _ | .wTxPayload _ | .flushTx | .flushRx | .nop => False
    | .present | .enterTx _ | .setCh _ | .pwrDn | .wake | .setPwr _ | .flushTxFifo => False

/-- R62, for WBUF and TXPKT: the operation has exactly the `COUNT` data bytes that its word asks for: those that came on
the byte stream, in order, and for each that did not come a free value, whatever it is. That bytes beyond `COUNT`
are not taken, and that missing ones are free values, is the model's choice (log entry 6). -/
def Obligations.TheBlockTakesCountBytesFromTheStream : Prop :=
  ∀ (p : Params) (w : BitVec 32) (data d : List Byte) (k : Nat) (i : Instr),
    decode p ((Request.host w data).complete k) = .ok i →
    ((∃ a, i = .wbufReg a d) ∨ (∃ c, i = .wbufCmd c d) ∨ i = .txpkt d) →
    d.length = (w.extractLsb' 0 8).toNat
      ∧ ∀ j, j < d.length →
          d[j]? = if j < data.length then data[j]?
                  else some (Config.missingByte (k + (j - data.length)))

/-- R55: SETUP_RETR is "one packed byte: high nibble = delay, low nibble = count". -/
def Obligations.RetransmitByteIsPackedInNibbles : Prop :=
  (∀ delay count : Nat, delay ≤ 15 → count ≤ 15 →
      (packRetr delay count).extractLsb' 4 4 = BitVec.ofNat 4 delay
        ∧ (packRetr delay count).extractLsb' 0 4 = BitVec.ofNat 4 count)
    ∧ packRetr 3 5 = 0x35#8

/-! ### The Command Framer -/

/-- R81, WREG: one bracket, the framing byte (write-opcode | regAddr) and then one data byte; it returns the status
byte captured from the first exchange, and writes nothing but the latches, CSN, the trace and the chip's
register. What the bracket does to the chip is `bracketChip`'s, and where the spec leaves it open the model's choice:
that a bracket without a falling edge does nothing of its own is log entry 12's (U2: any value), and so is it of a
reserved address; of FIFO status, RF_CH and CONFIG it is log entries 25, 26 and 33. -/
def Obligations.WregWritesOneByteAndReturnsStatus : Prop :=
  ∀ (s : State) (a : RegAddr) (v : Byte) (r0 r1 : Reply) (rest : List Reply), s.Idle →
    s.env.replies = r0 :: r1 :: rest →
    exec (.wreg a v) s
      = .next (framerEnd (opWreg a v) (s.params.opWRegister ||| regByte a) [v] .high
          (.status r0.rx) r0 [r1] rest s)

/-- R82, RREG: one bracket, the framing byte (read-opcode | regAddr) and then a dummy byte; it returns the value from
the second exchange, not the status. That the chip makes its own moves alone of a bracket without a falling edge (U2:
any value) and of a reserved address is log entry 12's choice. -/
def Obligations.RregReturnsTheSecondByte : Prop :=
  ∀ (s : State) (a : RegAddr) (r0 r1 : Reply) (rest : List Reply), s.Idle →
    s.env.replies = r0 :: r1 :: rest →
    exec (.rreg a) s
      = .next (framerEnd (opRreg a) (s.params.opRRegister ||| regByte a) [s.params.dummy] .high
          (.value r1.rx) r0 [r1] rest s)

/-- R83, RBUF in both forms: the framing byte, then `count` dummy bytes, each returned byte collected in order, and
the status byte; the bracket closes high, or low under the erratum switch. Of the chip the model's choice is: its own
moves alone of a bracket without a falling edge, of a reserved address and of R_RX_PAYLOAD (log entry 12; U2: any
value), a FIFO command's effect at the closing edge (13), none if the bracket closes low (31), the payload queued whole
(28), the data bytes after a flush ignored (32), STATUS left as it is (34). -/
def Obligations.RbufCollectsTheBytesInOrder : Prop :=
  ∀ (s : State) (n : Nat) (r0 : Reply) (rs rest : List Reply), s.Idle → n ≤ s.params.nMax →
    s.env.replies = r0 :: (rs ++ rest) → rs.length = n →
    (∀ a : RegAddr,
        exec (.rbufReg a n) s
          = .next (framerEnd (opRbuf .reg (regByte a) n) (s.params.opRRegister ||| regByte a)
              (List.replicate n s.params.dummy) (if s.params.rbufCloseLow then .low else .high)
              (.buffer r0.rx (received rs)) r0 rs rest s))
      ∧ ∀ c : Byte, c ∈ s.params.fixedCommands →
          exec (.rbufCmd c n) s
            = .next (framerEnd (opRbuf .cmd c n) c (List.replicate n s.params.dummy)
                (if s.params.rbufCloseLow then .low else .high)
                (.buffer r0.rx (received rs)) r0 rs rest s)

/-- R84, WBUF in both forms: the framing byte, then each input byte in order, the returned bytes discarded; it returns
the status byte. Of the chip the model's choice is: its own moves alone of a bracket without a falling edge (log entry
12; U2: any value), a FIFO command's effect at the closing edge, after the last move (13), and what log entries 12, 20,
25 to 28 and 32 to 34 say of surplus and missing bytes, of the width of the addresses, of FIFO status, the counter,
the payload, the runtime state and STATUS. -/
def Obligations.WbufSendsTheBytesInOrder : Prop :=
  ∀ (s : State) (data : List Byte) (r0 : Reply) (rs rest : List Reply), s.Idle →
    data.length ≤ s.params.nMax → s.env.replies = r0 :: (rs ++ rest) → rs.length = data.length →
    (∀ a : RegAddr,
        exec (.wbufReg a data) s
          = .next (framerEnd (opWbuf .reg (regByte a) data) (s.params.opWRegister ||| regByte a) data
              .high (.status r0.rx) r0 rs rest s))
      ∧ ∀ c : Byte, c ∈ s.params.fixedCommands →
          exec (.wbufCmd c data) s
            = .next (framerEnd (opWbuf .cmd c data) c data .high (.status r0.rx) r0 rs rest s)

/-- R85, SETCE: it drives chip-enable, emits `CE(l)` even if the level does not change, returns an empty record, needs
no answer of the environment, and writes nothing else (R96 (d)); of the chip it changes nothing but the
trigger of R38 (e). That the trigger is an edge from 0 to 1 with a payload in the TX FIFO, and nothing else, is
the model's choice (log entry 21). -/
def Obligations.SetceDrivesChipEnableOnly : Prop :=
  ∀ (s : State) (l : Level), s.Idle →
    exec (.setce l) s = .next { s with
      ce := l
      seq := .idle
      ops := opSetce l
      resp := some .empty
      chip := if s.ce = .low ∧ l = .high ∧ s.chip.txFifo ≠ [] then { s.chip with txStarted := true }
              else s.chip
      trace := s.trace ++ [.ce l, .ret .empty] }

/-- R87, R89: R_REGISTER and R_RX_PAYLOAD are the transactions `Frame(OP_R_REGISTER | zext_8(a), [DUMMY]*n, close)` and
`Frame(OP_R_RX_PAYLOAD, [DUMMY]*n, close)`, carried by RBUF. R87 names RREG and RBUF as carriers of R_REGISTER: that
it is RBUF, which gives the response and the closing level, is the model's choice (log entry 11), and so is it that the
chip makes its own moves alone of R_RX_PAYLOAD, of a reserved address and of a bracket without a falling edge (log
entry 12; U2: any value). -/
def Obligations.WireReadsAreBracketsOfDummyBytes : Prop :=
  ∀ (s : State) (n : Nat) (r0 : Reply) (rs rest : List Reply), s.Idle → n ≤ s.params.nMax →
    s.env.replies = r0 :: (rs ++ rest) → rs.length = n →
    (∀ a : RegAddr,
        exec (.rRegister a n) s
          = .next (framerEnd (opRbuf .reg (regByte a) n) (s.params.opRRegister ||| regByte a)
              (List.replicate n s.params.dummy) (rbufClose s.params)
              (.buffer r0.rx (received rs)) r0 rs rest s))
      ∧ exec (.rRxPayload n) s
          = .next (framerEnd (opRbuf .cmd s.params.opRRxPayload n) s.params.opRRxPayload
              (List.replicate n s.params.dummy) (rbufClose s.params)
              (.buffer r0.rx (received rs)) r0 rs rest s)

/-- R88, R90: W_REGISTER and W_TX_PAYLOAD are the transactions `Frame(OP_W_REGISTER | zext_8(a), bytes, 1)` and
`Frame(OP_W_TX_PAYLOAD, payload, 1)`, carried by WBUF: R88 names WREG and WBUF, and that it is WBUF is the model's choice
(log entry 11). So is of the chip: its own moves alone of a bracket without a falling edge (log entry 12; U2: any
value), the payload queued at the closing edge, after the last move (13), and what log entries 12, 20, 25 to 28, 33 and
34 say of surplus and missing bytes, of the width of the addresses, of FIFO status, the counter, the payload, the runtime
state and STATUS. -/
def Obligations.WireWritesAreBracketsOfTheirBytes : Prop :=
  ∀ (s : State) (data : List Byte) (r0 : Reply) (rs rest : List Reply), s.Idle →
    data.length ≤ s.params.nMax → s.env.replies = r0 :: (rs ++ rest) → rs.length = data.length →
    (∀ a : RegAddr,
        exec (.wRegister a data) s
          = .next (framerEnd (opWbuf .reg (regByte a) data) (s.params.opWRegister ||| regByte a) data
              .high (.status r0.rx) r0 rs rest s))
      ∧ exec (.wTxPayload data) s
          = .next (framerEnd (opWbuf .cmd s.params.opWTxPayload data) s.params.opWTxPayload data
              .high (.status r0.rx) r0 rs rest s)

/-- R91, R92, R93: FLUSH_TX is the head byte and `FLUSH_TRAILER`; FLUSH_RX and NOP are the head byte alone; each
returns the chip's status byte. The pseudo-operation FLUSHTX (R148) is the same transaction as FLUSH_TX. That the chip
makes its own moves alone of a bracket without a falling edge is log entry 12's choice (U2: any value), that a flush
takes effect at the closing edge, after the last move, is log entry 13's, whatever trailer follows it log entry 32's, and
that STATUS stays is log entry 34's. -/
def Obligations.FlushesAndNopSendTheirHeadByte : Prop :=
  ∀ (s : State) (r0 : Reply) (rs rest : List Reply), s.Idle → s.env.replies = r0 :: (rs ++ rest) →
    (rs.length = s.params.flushTrailer.length →
        exec .flushTx s
            = .next (framerEnd (opWbuf .cmd s.params.opFlushTx s.params.flushTrailer)
                s.params.opFlushTx s.params.flushTrailer .high (.status r0.rx) r0 rs rest s)
          ∧ exec .flushTxFifo s
            = .next (framerEnd (opWbuf .cmd s.params.opFlushTx s.params.flushTrailer)
                s.params.opFlushTx s.params.flushTrailer .high (.status r0.rx) r0 rs rest s))
      ∧ (rs = [] →
          exec .flushRx s
              = .next (framerEnd (opWbuf .cmd s.params.opFlushRx []) s.params.opFlushRx [] .high
                  (.status r0.rx) r0 [] rest s)
            ∧ exec .nop s
                = .next (framerEnd (opWbuf .cmd s.params.opNop []) s.params.opNop [] .high
                    (.status r0.rx) r0 [] rest s))

/-- R80, R96 (c): a framer operation with `n` data bytes emits, when it returns, exactly `n + 3` events before its
`RET`, of which `n + 1` are exchanges. -/
def Obligations.AFramerOperationEmitsNPlusThreeEvents : Prop :=
  ∀ (s t : State) (i : Instr) (o : Operands), s.Idle → carriedBy s.params i = some o →
    exec i s = .next t → t.busy = false →
    ∃ es r, t.trace = s.trace ++ es ++ [.ret r] ∧ es.length = o.count + 3
      ∧ (es.filter fun e => match e with
          | .x _ _ => true
          | .csn _ | .ce _ | .irq _ | .ret _ => false).length = o.count + 1

/-- R96 (d), (e): whatever the environment answers, and whether or not the operation returns, no framer operation
writes chip-enable or samples the interrupt line: no CE event and no sample is among its events, and what the
environment scripted for the line is all there; nor does it touch `S`, PRESENT's result, the command port or the
parameters. -/
def Obligations.FramerOperationsLeaveChipEnableAndTheLineAlone : Prop :=
  ∀ (s t : State) (i : Instr) (o : Operands), s.Idle → carriedBy s.params i = some o →
    exec i s = .next t →
    t.ce = s.ce ∧ t.env.samples = s.env.samples ∧ t.env.line = s.env.line ∧ t.sReg = s.sReg
      ∧ t.presence = s.presence ∧ t.inbox = s.inbox ∧ t.params = s.params ∧ t.ops = o
      ∧ t.freeCount = s.freeCount
      ∧ ∃ es, t.trace = s.trace ++ es ∧ ∀ l, Event.ce l ∉ es ∧ Event.irq l ∉ es

/-- R30, R95, R177: a framer operation whose exchanges do not all complete does not return: it is accepted, emits
`CSN(0)` and the exchanges that complete, and then waits, busy, with chip-select low; it hands over no
response; and every further step leaves the machine exactly as it is. -/
def Obligations.AnUnansweredFramerOperationHangs : Prop :=
  ∀ (s : State) (i : Instr) (o : Operands), s.Idle → i.WellFormed s.params →
    carriedBy s.params i = some o → s.env.replies.length ≤ (opOut s.params o).length →
    ∃ t, exec i s = .next t ∧ t.busy = true ∧ t.csn = .low ∧ t.resp = s.resp
      ∧ t.trace = s.trace ++ [.csn .low]
          ++ dataEvents (opHead s.params o :: opOut s.params o) s.env.replies
      ∧ step t = .next t

/-- R94: the framer's phases, one step each: what each emits, what it writes, and where it goes. -/
def Obligations.FramerPhasesStepAsTabulated : Prop :=
  ∀ (s : State) (t : Txn), s.busy = true →
    (s.seq = .frame t .sel →
        (micro s).csn = .low ∧ (micro s).trace = s.trace ++ [.csn .low]
          ∧ (micro s).seq = .frame t .head)
      ∧ (s.seq = .frame t .head → s.env.replies = [] → micro s = s)
      ∧ (∀ r rest, s.seq = .frame t .head → s.env.replies = r :: rest →
          (micro s).st = r.rx ∧ (micro s).idx = 0 ∧ (micro s).csn = s.csn
            ∧ (micro s).trace = s.trace ++ [.x (txnHead s t) r.rx]
            ∧ (micro s).seq
                = (if 0 < (txnOut s t).length then .frame t .data else .frame t .rel))
      ∧ (∀ o, s.seq = .frame t .data → (txnOut s t)[s.idx]? = some o → s.env.replies = [] →
          micro s = s)
      ∧ (∀ o r rest, s.seq = .frame t .data → (txnOut s t)[s.idx]? = some o →
          s.env.replies = r :: rest → s.idx ≤ s.inBytes.length →
          (micro s).inBytes[s.idx]? = some r.rx ∧ (micro s).idx = s.idx + 1
            ∧ (micro s).st = s.st ∧ (micro s).csn = s.csn
            ∧ (micro s).trace = s.trace ++ [.x o r.rx]
            ∧ (micro s).seq
                = (if s.idx + 1 < (txnOut s t).length then .frame t .data else .frame t .rel))
      ∧ (s.seq = .frame t .rel →
          (micro s).csn = txnClose s t ∧ (micro s).trace = s.trace ++ [.csn (txnClose s t)]
            ∧ (micro s).seq = (match t with
                | .op => .ret
                | .load => .tArm
                | .rdst => .frame .clr .sel
                | .clr => .tClass
                | .flush => .tRet))

/-- R14, D17: the operand latches do not change while `BUSY` is 1. -/
def Obligations.OperandLatchesHoldWhileBusy : Prop :=
  ∀ s : State, s.busy = true → (micro s).ops = s.ops

/-! ### The Transmit State Machine -/

/-- R123: the phases of TXPKT that are not framer phases, one step each. -/
def Obligations.TransmitPhasesStepAsTabulated : Prop :=
  ∀ s : State, s.busy = true →
    (s.seq = .tArm →
        (micro s).ce = .high ∧ (micro s).trace = s.trace ++ [.ce .high] ∧ (micro s).seq = .tPoll)
      ∧ (s.seq = .tPoll →
          (micro s).trace = s.trace ++ [.irq s.env.sample.level] ∧ (micro s).ce = s.ce
            ∧ (micro s).csn = s.csn
            ∧ (micro s).seq = (if s.env.sample.level = .high then .tPoll else .tSettle))
      ∧ (s.seq = .tSettle →
          (micro s).ce = .low ∧ (micro s).trace = s.trace ++ [.ce .low]
            ∧ (micro s).seq = .frame .rdst .sel)
      ∧ (s.seq = .frame .rdst .rel →
          (micro s).sReg = s.inBytes.getD 0 0x00#8 ∧ (micro s).seq = .frame .clr .sel)
      ∧ (s.seq = .tClass →
          (micro s).trace = s.trace
            ∧ (micro s).seq
                = (if s.sReg &&& 0x30#8 = 0x00#8 then .tRet else .frame .flush .sel))
      ∧ (s.seq = .tRet →
          (micro s).busy = false ∧ (micro s).seq = .idle
            ∧ ∀ o, o = (if s.sReg &&& 0x10#8 ≠ 0x00#8 then TxOutcome.maxRetransmitExceeded
                        else if s.sReg &&& 0x20#8 ≠ 0x00#8 then TxOutcome.success
                        else TxOutcome.unknown s.sReg) →
                (micro s).resp = some (.outcome o)
                  ∧ (micro s).trace = s.trace ++ [.ret (.outcome o)])

/-- R110: TXPKT from acceptance to `RET`, for every payload, every number of samples and every answer: the payload is
loaded, chip-enable raised, the line sampled until it reads 0, chip-enable lowered, STATUS read and the
same value written back, and the TX FIFO flushed if and only if bit 4 or bit 5 of that value is set;
the outcome is decided by bit 4 and then bit 5. Every field of the state after it is given. The chip is as its own
moves and the stated effects of the four transactions and of raising chip-enable leave it; when raising it triggers
the transmit sequence is the model's choice (`chipEnable`, log entry 21), and so is what the spec leaves open of the
transactions (`bracketChip`, log entries 12, 13, 28, 32 and 34). -/
def Obligations.TxpktRunsFromLoadToReturn : Prop :=
  ∀ (s : State) (payload : List Byte) (l0 : Reply) (ls : List Reply) (h1 d1 h2 d2 : Reply)
    (fl rest : List Reply) (hs : List Sample) (x : Sample) (more : List Sample),
    s.Idle → payload.length ≤ s.params.nMax →
    s.env.replies = l0 :: (ls ++ h1 :: d1 :: h2 :: d2 :: (fl ++ rest)) →
    ls.length = payload.length →
    fl.length = (if d1.rx &&& 0x30#8 = 0x00#8 then 0 else 1 + s.params.flushTrailer.length) →
    NextLow s.env hs x more →
    ∃ t flush outcome,
      exec (.txpkt payload) s = .next t
        ∧ (match fl with
            | [] => flush = []
            | f0 :: fs =>
              flush = frameEvents s.params.opFlushTx s.params.flushTrailer .high f0 fs)
        ∧ outcome = (if d1.rx &&& 0x10#8 ≠ 0x00#8 then TxOutcome.maxRetransmitExceeded
                     else if d1.rx &&& 0x20#8 ≠ 0x00#8 then TxOutcome.success
                     else TxOutcome.unknown d1.rx)
        ∧ t.trace = s.trace
            ++ frameEvents s.params.opWTxPayload payload .high l0 ls
            ++ [.ce .high] ++ hs.map (fun _ => Event.irq .high) ++ [.irq .low] ++ [.ce .low]
            ++ frameEvents (s.params.opRRegister ||| regByte s.params.aStatus) [s.params.dummy] .high
                h1 [d1]
            ++ frameEvents (s.params.opWRegister ||| regByte s.params.aStatus) [d1.rx] .high h2 [d2]
            ++ flush ++ [.ret (.outcome outcome)]
        ∧ t.resp = some (.outcome outcome) ∧ t.sReg = d1.rx ∧ t.ops = opTxpkt payload
        ∧ t.busy = false ∧ t.seq = .idle ∧ t.csn = .high ∧ t.ce = .low ∧ t.bus = none
        ∧ t.st = (match fl with
            | [] => h2.rx
            | f0 :: _ => f0.rx)
        ∧ t.idx = (match fl with
            | [] => 1
            | _ :: fs => fs.length)
        ∧ t.inBytes = (match fl with
            | [] => [d2.rx]
            | _ :: fs => latched [d2.rx] fs)
        ∧ t.env = { replies := rest, samples := more, line := s.env.line }
        ∧ t.params = s.params ∧ t.inbox = s.inbox ∧ t.presence = s.presence ∧ t.hostSeq = []
        ∧ t.freeCount = s.freeCount
        ∧ ∃ c1 c2 c3 : Chip,
            c1 = (chipEnable s.ce .high
                (bracketChip s.params s.csn .high s.params.opWTxPayload payload l0 ls s.chip)).sampledAll
                (hs ++ [x])
              ∧ c2 = bracketChip s.params .high .high (s.params.opRRegister ||| regByte s.params.aStatus)
                  [s.params.dummy] h1 [d1] c1
              ∧ c3 = bracketChip s.params .high .high (s.params.opWRegister ||| regByte s.params.aStatus)
                  [d1.rx] h2 [d2] c2
              ∧ t.chip = (match fl with
                  | [] => c3
                  | f0 :: fs =>
                    bracketChip s.params .high .high s.params.opFlushTx s.params.flushTrailer f0 fs c3)

/-- The source's property of 95_test_vectors.md E4 as 90_conflicts.md C2 restricts it (R116, R118, R119, R120,
R125 (c)): when TXPKT returns, each completion bit that the read showed as 1 is clear, unless the chip sets
it anew during the flush, and after Success and MaxRetransmitExceeded the TX FIFO is empty and FIFO status shows it
(bit 4, log entry 25), whatever the chip does by itself during the flush, whose effect comes last (log entry 13). After
Unknown nothing has emptied it: on a chip that changes nothing by itself the payload is still its last; that it is
whatever the queue held before is the model's choice (log entry 12; N9), and for an empty payload, and for one longer
than the chip holds, so is it too (log entry 28; U11 says any value). -/
def Obligations.TxpktClearsTheBitsItReadAndFlushes : Prop :=
  ∀ (s t : State) (payload : List Byte) (l0 : Reply) (ls : List Reply) (h1 d1 h2 d2 : Reply)
    (fl rest : List Reply),
    s.Idle → s.params.opcodesWf = true → s.params.aStatus.toNat ≤ 0x17 →
    s.env.replies = l0 :: (ls ++ h1 :: d1 :: h2 :: d2 :: (fl ++ rest)) →
    ls.length = payload.length →
    fl.length = (if d1.rx &&& 0x30#8 = 0x00#8 then 0 else 1 + s.params.flushTrailer.length) →
    exec (.txpkt payload) s = .next t → t.busy = false →
    (Quiet fl → t.chip.status &&& d1.rx &&& 0x30#8 = 0x00#8)
      ∧ (d1.rx &&& 0x30#8 ≠ 0x00#8 → t.chip.txFifo = []
          ∧ (s.params.aFifoStatus ≠ s.params.aStatus →
              Chip.readByte t.params t.chip s.params.aFifoStatus 0 &&& 0x10#8 = 0x10#8))
      ∧ (d1.rx &&& 0x30#8 = 0x00#8 → s.csn = .high → Quiet s.env.replies →
          (∀ x ∈ s.env.samples, x.chip = none) → t.chip.txFifo = s.chip.txFifo ++ [payload])

/-- R117: "transmitPacket returns Success exactly when the simulated chip's STATUS register shows TX_DS=1, MAX_RT=0
after completion, and MaxRetransmitExceeded exactly when MAX_RT=1 regardless of TX_DS", and Unknown with
the byte read otherwise; the STATUS value is the one TXPKT read, whatever the environment answers. -/
def Obligations.OutcomeIsClassifiedFromTheStatusRead : Prop :=
  ∀ (s t : State) (payload : List Byte), s.Idle → exec (.txpkt payload) s = .next t →
    t.busy = false →
    ∃ o, t.resp = some (.outcome o)
      ∧ (o = .success ↔ t.sReg &&& 0x20#8 ≠ 0x00#8 ∧ t.sReg &&& 0x10#8 = 0x00#8)
      ∧ (o = .maxRetransmitExceeded ↔ t.sReg &&& 0x10#8 ≠ 0x00#8)
      ∧ (∀ b, o = .unknown b ↔ b = t.sReg ∧ t.sReg &&& 0x30#8 = 0x00#8)

/-- R114: "an unbounded blocking wait — no timeout": if every sample is 1 TXPKT never returns. It polls with
chip-enable and chip-select high, and each further step is one more sample, for ever. -/
def Obligations.TxpktNeverReturnsIfTheLineIsNeverAsserted : Prop :=
  ∀ (s : State) (payload : List Byte) (l0 : Reply) (ls rest : List Reply), s.Idle →
    payload.length ≤ s.params.nMax → s.env.replies = l0 :: (ls ++ rest) →
    ls.length = payload.length →
    (∀ x ∈ s.env.samples, x.level = .high) → s.env.line = .high →
    ∃ t, exec (.txpkt payload) s = .next t
      ∧ t.trace = s.trace ++ frameEvents s.params.opWTxPayload payload .high l0 ls ++ [.ce .high]
          ++ s.env.samples.map (fun _ => Event.irq .high)
      ∧ t.resp = s.resp
      ∧ ∃ u : Nat → State, u 0 = t ∧ ∀ k, step (u k) = .next (u (k + 1))
          ∧ (u k).busy = true ∧ (u k).seq = .tPoll ∧ (u k).ce = .high ∧ (u k).csn = .high
          ∧ (u k).resp = s.resp ∧ (u k).trace = t.trace ++ List.replicate k (.irq .high)

/-- R30, R95, R177 (95_test_vectors.md V39c), TXPKT: if the environment answers the line but not every exchange, TXPKT does
not return. It waits for ever inside the bracket in which the answers run out: that of the load, whatever the line
does, of the read of STATUS, of its write-back, or of the flush where the value read asks for one. -/
def Obligations.AnUnansweredTxpktHangs : Prop :=
  ∀ (s : State) (payload : List Byte), s.Idle → payload.length ≤ s.params.nMax →
    (s.env.replies.length ≤ payload.length →
        HangsIn (.txpkt payload) s .load [] s.params.opWTxPayload payload s.env.replies)
      ∧ ∀ (l0 : Reply) (ls rs : List Reply) (hs : List Sample) (x : Sample) (more : List Sample)
          (loaded : List Event), s.env.replies = l0 :: (ls ++ rs) → ls.length = payload.length →
        NextLow s.env hs x more →
        loaded = frameEvents s.params.opWTxPayload payload .high l0 ls
          ++ [.ce .high] ++ hs.map (fun _ => Event.irq .high) ++ [.irq .low] ++ [.ce .low] →
        (rs.length ≤ 1 →
            HangsIn (.txpkt payload) s .rdst loaded (s.params.opRRegister ||| regByte s.params.aStatus)
              [s.params.dummy] rs)
          ∧ ∀ (h1 d1 : Reply) (rs' : List Reply) (read : List Event), rs = h1 :: d1 :: rs' →
            read = frameEvents (s.params.opRRegister ||| regByte s.params.aStatus) [s.params.dummy] .high
              h1 [d1] →
            (rs'.length ≤ 1 →
                HangsIn (.txpkt payload) s .clr (loaded ++ read)
                  (s.params.opWRegister ||| regByte s.params.aStatus) [d1.rx] rs')
              ∧ ∀ (h2 d2 : Reply) (fl : List Reply), rs' = h2 :: d2 :: fl →
                d1.rx &&& 0x30#8 ≠ 0x00#8 → fl.length ≤ s.params.flushTrailer.length →
                HangsIn (.txpkt payload) s .flush
                  (loaded ++ read
                    ++ frameEvents (s.params.opWRegister ||| regByte s.params.aStatus) [d1.rx] .high
                        h2 [d2])
                  s.params.opFlushTx s.params.flushTrailer fl

/-- R121, R125 (a): whatever the environment answers, every return of TXPKT leaves chip-enable low and chip-select
high, and R125 (f): the poll ended with a sample of 0. -/
def Obligations.TxpktReturnsWithTheLinesReleased : Prop :=
  ∀ (s t : State) (payload : List Byte), s.Idle → exec (.txpkt payload) s = .next t →
    t.busy = false → t.ce = .low ∧ t.csn = .high
      ∧ ∃ es, t.trace = s.trace ++ es ∧ Event.irq .low ∈ es

/-- R122: TXPKT does not look at chip-enable when it starts: with any level at entry it emits the same events, hands
over the same response and ends in the same phase. -/
def Obligations.TxpktDoesNotLookAtChipEnable : Prop :=
  ∀ (s t : State) (payload : List Byte) (l : Level), s.Idle → exec (.txpkt payload) s = .next t →
    ∃ u, exec (.txpkt payload) { s with ce := l } = .next u
      ∧ u.trace = t.trace ∧ u.resp = t.resp ∧ u.seq = t.seq ∧ u.busy = t.busy

/-- R46, R117, C5: of all the bytes that TXPKT receives, its outcome depends on one, the second byte of its read of
STATUS: two environments with the same samples that answer the same number of exchanges and agree on
that byte give the same outcome. -/
def Obligations.OnlyTheStatusByteDecidesTheOutcome : Prop :=
  ∀ (s t u : State) (payload : List Byte) (rs : List Reply), s.Idle →
    rs.length = s.env.replies.length →
    (∀ r r', s.env.replies[payload.length + 2]? = some r → rs[payload.length + 2]? = some r' →
        r'.rx = r.rx) →
    exec (.txpkt payload) s = .next t → t.busy = false →
    exec (.txpkt payload) { s with env := { s.env with replies := rs } } = .next u →
    u.busy = false ∧ u.resp = t.resp

/-! ### The host's sequences -/

/-- R142, PRESENT: the pattern is written into TX_ADDR, five bytes are read back, and the result is present only on an
exact match. -/
def Obligations.PresentComparesTheEcho : Prop :=
  ∀ (s : State) (w0 : Reply) (ws : List Reply) (q0 : Reply) (qs rest : List Reply), s.Idle →
    s.env.replies = w0 :: (ws ++ q0 :: (qs ++ rest)) → ws.length = 5 → qs.length = 5 →
    ∃ t, exec .present s = .next t
      ∧ t.presence = some (decide (received qs = s.params.pattern.toList))
      ∧ t.trace = s.trace
          ++ frameEvents (s.params.opWRegister ||| regByte s.params.aTxAddr) s.params.pattern.toList
              .high w0 ws
          ++ [.ret (.status w0.rx)]
          ++ frameEvents (s.params.opRRegister ||| regByte s.params.aTxAddr)
              (List.replicate 5 s.params.dummy) (rbufClose s.params) q0 qs
          ++ [.ret (.buffer q0.rx (received qs))]
      ∧ t.csn = rbufClose s.params ∧ t.ce = s.ce ∧ t.busy = false ∧ t.hostSeq = []
      ∧ t.env = { s.env with replies := rest } ∧ t.sReg = s.sReg ∧ t.params = s.params
      ∧ t.inbox = s.inbox ∧ t.freeCount = s.freeCount

/-- R143, ENTERTX: the eight steps in the fixed order, with the bytes the configuration gives; the status bytes are
discarded. -/
def Obligations.EnterTxAppliesTheConfigurationInOrder : Prop :=
  ∀ (s : State) (cfg : TxConfig) (a0 a1 b0 b1 c0 c1 d0 d1 e0 : Reply) (es : List Reply)
    (f0 f1 g0 : Reply) (gs rest : List Reply), s.Idle → cfg.wf s.params = true →
    s.env.replies = a0 :: a1 :: b0 :: b1 :: c0 :: c1 :: d0 :: d1
        :: e0 :: (es ++ f0 :: f1 :: g0 :: (gs ++ rest)) →
    es.length = cfg.width → gs.length = cfg.width →
    ∃ t, exec (.enterTx cfg) s = .next t
      ∧ t.trace = s.trace
          ++ [.ce .low, .ret .empty]
          ++ frameEvents (s.params.opWRegister ||| regByte s.params.aSetupRetr)
              [(BitVec.ofNat 8 cfg.delay <<< 4) ||| BitVec.ofNat 8 cfg.count] .high a0 [a1]
          ++ [.ret (.status a0.rx)]
          ++ frameEvents (s.params.opWRegister ||| regByte s.params.aRfSetup)
              [cfg.dataRate ||| cfg.txPower] .high b0 [b1]
          ++ [.ret (.status b0.rx)]
          ++ frameEvents (s.params.opWRegister ||| regByte s.params.aConfig)
              [(if cfg.crcEnable then s.params.mEnCrc else 0x00#8)
                ||| (if cfg.crcWidth = 2 then s.params.mCrc2B else 0x00#8)
                ||| (if cfg.powerUp then s.params.mPwrUp else 0x00#8) ||| s.params.mPrimTx]
              .high c0 [c1]
          ++ [.ret (.status c0.rx)]
          ++ frameEvents (s.params.opWRegister ||| regByte s.params.aRfCh)
              [BitVec.ofNat 8 cfg.channel] .high d0 [d1]
          ++ [.ret (.status d0.rx)]
          ++ frameEvents (s.params.opWRegister ||| regByte s.params.aTxAddr) cfg.addr .high e0 es
          ++ [.ret (.status e0.rx)]
          ++ frameEvents (s.params.opWRegister ||| regByte s.params.aEnAa) [s.params.mEnaaP0] .high
              f0 [f1]
          ++ [.ret (.status f0.rx)]
          ++ frameEvents (s.params.opWRegister ||| regByte s.params.aRxAddrP0) cfg.addr .high g0 gs
          ++ [.ret (.status g0.rx)]
      ∧ t.csn = .high ∧ t.ce = .low ∧ t.busy = false ∧ t.hostSeq = []
      ∧ t.env = { s.env with replies := rest } ∧ t.sReg = s.sReg ∧ t.presence = s.presence
      ∧ t.params = s.params ∧ t.inbox = s.inbox ∧ t.freeCount = s.freeCount

/-- R144, SETCH: `WREG(A_RF_CH, ch)`, the channel unmasked. That the chip makes its own moves alone of a bracket without a
falling edge is log entry 12's choice (U2: any value), and the place of the counter it clears is log entry 26's. -/
def Obligations.SetChWritesTheChannel : Prop :=
  ∀ (s : State) (ch : Nat) (r0 r1 : Reply) (rest : List Reply), s.Idle → ch ≤ 127 →
    s.env.replies = r0 :: r1 :: rest →
    exec (.setCh ch) s
      = .next (framerEnd (opWreg s.params.aRfCh (BitVec.ofNat 8 ch))
          (s.params.opWRegister ||| regByte s.params.aRfCh) [BitVec.ofNat 8 ch] .high
          (.status r0.rx) r0 [r1] rest s)

/-- R145, PWRDN: "lowers chip-enable, reads CONFIG, clears the power-up bit, writes CONFIG back". -/
def Obligations.PwrDnClearsThePowerUpBit : Prop :=
  ∀ (s : State) (q0 q1 w0 w1 : Reply) (rest : List Reply), s.Idle →
    s.env.replies = q0 :: q1 :: w0 :: w1 :: rest →
    ∃ t, exec .pwrDn s = .next t
      ∧ t.trace = s.trace ++ [.ce .low, .ret .empty]
          ++ frameEvents (s.params.opRRegister ||| regByte s.params.aConfig) [s.params.dummy] .high
              q0 [q1]
          ++ [.ret (.value q1.rx)]
          ++ frameEvents (s.params.opWRegister ||| regByte s.params.aConfig)
              [q1.rx &&& ~~~s.params.mPwrUp] .high w0 [w1]
          ++ [.ret (.status w0.rx)]
      ∧ t.csn = .high ∧ t.ce = .low ∧ t.busy = false ∧ t.hostSeq = []
      ∧ t.env = { s.env with replies := rest } ∧ t.sReg = s.sReg ∧ t.presence = s.presence
      ∧ t.params = s.params ∧ t.inbox = s.inbox ∧ t.freeCount = s.freeCount

/-- R146, WAKE: "reads CONFIG, sets the power-up bit, writes CONFIG back"; it does not write chip-enable. R147,
SETPWR: it reads RF_SETUP, clears the power field, ORs in the level and writes back; a level outside its domain "would
set those bits too" (R147), and that SETPWR runs with it is the model's choice (log entry 29). -/
def Obligations.WakeAndSetPwrModifyOneField : Prop :=
  ∀ (s : State) (q0 q1 w0 w1 : Reply) (rest : List Reply), s.Idle →
    s.env.replies = q0 :: q1 :: w0 :: w1 :: rest →
    (∃ t, exec .wake s = .next t
        ∧ t.trace = s.trace
            ++ frameEvents (s.params.opRRegister ||| regByte s.params.aConfig) [s.params.dummy] .high
                q0 [q1]
            ++ [.ret (.value q1.rx)]
            ++ frameEvents (s.params.opWRegister ||| regByte s.params.aConfig)
                [q1.rx ||| s.params.mPwrUp] .high w0 [w1]
            ++ [.ret (.status w0.rx)]
        ∧ t.csn = .high ∧ t.ce = s.ce ∧ t.busy = false ∧ t.hostSeq = []
        ∧ t.env = { s.env with replies := rest } ∧ t.sReg = s.sReg ∧ t.presence = s.presence
        ∧ t.params = s.params ∧ t.inbox = s.inbox ∧ t.freeCount = s.freeCount)
      ∧ ∀ level : Byte,
          ∃ t, exec (.setPwr level) s = .next t
            ∧ t.trace = s.trace
                ++ frameEvents (s.params.opRRegister ||| regByte s.params.aRfSetup) [s.params.dummy]
                    .high q0 [q1]
                ++ [.ret (.value q1.rx)]
                ++ frameEvents (s.params.opWRegister ||| regByte s.params.aRfSetup)
                    [(q1.rx &&& ~~~s.params.mRfPwr) ||| level] .high w0 [w1]
                ++ [.ret (.status w0.rx)]
            ∧ t.csn = .high ∧ t.ce = s.ce ∧ t.busy = false ∧ t.hostSeq = []
            ∧ t.env = { s.env with replies := rest } ∧ t.sReg = s.sReg ∧ t.presence = s.presence
            ∧ t.params = s.params ∧ t.inbox = s.inbox ∧ t.freeCount = s.freeCount

/-- R30, R95, R149, R177: a host sequence whose exchanges are not all answered does not return, whichever of them is the
first that is not: the answers used up, it waits for ever inside a bracket, busy, with chip-select low and no result,
and no step changes anything. -/
def Obligations.AnUnansweredSequenceHangs : Prop :=
  ∀ (s : State) (i : Instr), s.Idle → i.WellFormed s.params →
    s.env.replies.length < (match i with
      | .present => 12
      | .enterTx cfg => 12 + 2 * cfg.width
      | .setCh _ => 2
      | .pwrDn | .wake | .setPwr _ => 4
      | .flushTxFifo => 1 + s.params.flushTrailer.length
      | .rRegister _ _ | .wRegister _ _ | .rRxPayload _ | .wTxPayload _ | .flushTx | .flushRx | .nop => 0
      | .wreg _ _ | .rreg _ | .rbufReg _ _ | .rbufCmd _ _ | .wbufReg _ _ | .wbufCmd _ _ | .txpkt _
      | .setce _ => 0) →
    ∃ t f, exec i s = .next t ∧ t.busy = true ∧ t.seq = .frame .op f ∧ t.csn = .low ∧ t.env.replies = []
      ∧ t.presence = s.presence ∧ step t = .next t

/-! ### The chip behind the bus -/

/-- Source property of R81 and R82 (95_test_vectors.md E1): on a chip that returns a register's content to a read
(R34), a byte written to a defined register other than STATUS is read back. Of FIFO status every bit is but bit 4,
which says whether the TX FIFO is empty: that a write leaves that bit alone is the model's choice (log entry 25). -/
def Obligations.AWrittenRegisterIsReadBack : Prop :=
  ∀ (s t : State) (a : RegAddr) (v : Byte) (r0 r1 q0 q1 : Reply) (rest : List Reply), s.Idle →
    s.params.opcodesWf = true → s.csn = .high → a.toNat ≤ 0x17 → a ≠ s.params.aStatus →
    s.env.replies = r0 :: r1 :: q0 :: q1 :: rest → q0.chip = none → q1.chip = none →
    exec (.wreg a v) s = .next t →
    (∀ b, Chip.answer t.params t.chip
          (some { cmd := some (t.params.opRRegister ||| regByte a), data := [] }) = some b →
        q1.rx = b) →
    ∃ u, exec (.rreg a) t = .next u
      ∧ (a ≠ s.params.aFifoStatus → u.resp = some (.value v))
      ∧ (a = s.params.aFifoStatus →
          u.resp = some (.value ((v &&& 0xEF#8) ||| (if t.chip.txFifo = [] then 0x10#8 else 0x00#8))))

/-- R38 (b), R88, R116: a write of STATUS, by WREG, WBUF or W_REGISTER, clears the two latched completion bits where its
byte has a 1, leaves them where it has a 0, and changes no byte of any other register. The chip may move by itself up
to the write of the byte; that surplus bytes change nothing is the model's choice (log entry 12), and so is it that a
write with no byte changes nothing (log entry 27). -/
def Obligations.StatusIsWriteOneToClear : Prop :=
  ∀ (s : State) (data : List Byte) (r0 : Reply) (rs rest : List Reply) (i : Instr), s.Idle →
    s.params.opcodesWf = true → s.params.aStatus.toNat ≤ 0x17 → s.params.aStatus ≠ s.params.aTxAddr →
    s.params.aStatus ≠ s.params.aRxAddrP0 → s.csn = .high →
    (i = .wbufReg s.params.aStatus data ∨ i = .wRegister s.params.aStatus data
      ∨ ∃ v, data = [v] ∧ i = .wreg s.params.aStatus v) →
    i.WellFormed s.params → s.env.replies = r0 :: (rs ++ rest) → rs.length = data.length →
    Quiet (rs.drop 1) →
    ∃ t, exec i s = .next t
      ∧ t.chip.status &&& 0x30#8
          = (s.chip.movedAll (r0 :: rs)).status &&& 0x30#8 &&& ~~~(data.headD 0x00#8)
      ∧ ∀ a j, (a ≠ s.params.aStatus ∨ j ≠ 0) →
          Chip.readByte t.params t.chip a j
            = Chip.readByte s.params (s.chip.movedAll (r0 :: rs)) a j

/-- R38 (c), R208: a write of RF_CH, by WREG, WBUF or W_REGISTER, clears the counter field, and so do SETCH and ENTERTX
when they have returned, on a chip that changes nothing by itself. That a write of any other register, and one with no
data byte, leaves it is the model's choice: the spec does not say which register holds it (log entries 26 and 27). -/
def Obligations.TheChannelWriteClearsTheCounter : Prop :=
  ∀ s : State, s.Idle → s.params.opcodesWf = true → s.params.aRfCh.toNat ≤ 0x17 →
    s.params.aRfCh ≠ s.params.aStatus → s.csn = .high →
    (∀ (a : RegAddr) (data : List Byte) (r0 : Reply) (rs rest : List Reply) (i : Instr),
        (i = .wbufReg a data ∨ i = .wRegister a data ∨ ∃ v, data = [v] ∧ i = .wreg a v) →
        i.WellFormed s.params → s.env.replies = r0 :: (rs ++ rest) → rs.length = data.length →
        Quiet (rs.drop 1) →
        ∃ t, exec i s = .next t
          ∧ t.chip.counter
              = if a = s.params.aRfCh ∧ data ≠ [] then 0 else (s.chip.movedAll (r0 :: rs)).counter)
      ∧ ∀ (i : Instr) (t : State), ((∃ ch, i = .setCh ch) ∨ ∃ cfg, i = .enterTx cfg) →
          Quiet s.env.replies → exec i s = .next t → t.Idle → t.chip.counter = 0

/-- R90, R91, R92, R38 (d): W_TX_PAYLOAD queues the payload at the end of the TX FIFO, FLUSH_TX empties the TX FIFO,
FLUSH_RX the RX FIFO, on a chip that changes nothing by itself meanwhile. Bit 4 of FIFO status, "the TX FIFO is
empty", is 0 after the load and 1 after the flush (R69, R91; its place is log entry 25's), and every other register byte
is as before, as all of them are after FLUSH_RX. That the other bits of FIFO status stay, whatever the queues do, is
log entry 25's choice too, and that those of STATUS do is log entry 34's. That the payload is queued whatever the queue
holds is log entry 12's (N9), that one of any length is queued whole is log entry 28's, and that the effect falls on
the closing edge is log entry 13's. -/
def Obligations.PayloadsAreQueuedAndFlushed : Prop :=
  ∀ (s : State) (r0 : Reply) (rs rest : List Reply), s.Idle → s.params.opcodesWf = true →
    s.csn = .high → s.env.replies = r0 :: (rs ++ rest) → Quiet (r0 :: rs) →
    (∀ data, data.length ≤ s.params.nMax → rs.length = data.length →
        ∃ t, exec (.wTxPayload data) s = .next t ∧ t.chip.txFifo = s.chip.txFifo ++ [data]
          ∧ t.chip.rxFifo = s.chip.rxFifo
          ∧ (s.params.aFifoStatus ≠ s.params.aStatus →
              Chip.readByte t.params t.chip s.params.aFifoStatus 0
                = Chip.readByte s.params s.chip s.params.aFifoStatus 0 &&& 0xEF#8)
          ∧ ∀ a j, (a ≠ s.params.aFifoStatus ∨ j ≠ 0) →
              Chip.readByte t.params t.chip a j = Chip.readByte s.params s.chip a j)
      ∧ (rs.length = s.params.flushTrailer.length →
          ∃ t, exec .flushTx s = .next t ∧ t.chip.txFifo = [] ∧ t.chip.rxFifo = s.chip.rxFifo
            ∧ (s.params.aFifoStatus ≠ s.params.aStatus →
                Chip.readByte t.params t.chip s.params.aFifoStatus 0
                  = Chip.readByte s.params s.chip s.params.aFifoStatus 0 ||| 0x10#8)
            ∧ ∀ a j, (a ≠ s.params.aFifoStatus ∨ j ≠ 0) →
                Chip.readByte t.params t.chip a j = Chip.readByte s.params s.chip a j)
      ∧ (rs = [] →
          ∃ t, exec .flushRx s = .next t ∧ t.chip.rxFifo = [] ∧ t.chip.txFifo = s.chip.txFifo
            ∧ ∀ a j, Chip.readByte t.params t.chip a j = Chip.readByte s.params s.chip a j)

/-- R91, R69 (95_test_vectors.md E4, P3): "a subsequent read of FIFO status shows empty". On a chip that returns the
register to a read, RREG of FIFO status after a flush of the TX FIFO returns a byte with bit 4 set, and after
W_TX_PAYLOAD one with bit 4 clear. That it is bit 4 is log entry 25's; that the chip's own moves during the load or the
flush come before its effect is log entry 13's; that a load with no data byte counts is log entry 28's. -/
def Obligations.FifoStatusShowsTheLoadAndTheFlush : Prop :=
  ∀ (s t : State) (i : Instr) (q0 q1 : Reply) (rest : List Reply), s.Idle →
    s.params.opcodesWf = true → s.csn = .high → s.params.aFifoStatus.toNat ≤ 0x17 →
    s.params.aFifoStatus ≠ s.params.aStatus →
    (i = .flushTx ∨ i = .flushTxFifo ∨ ∃ data, i = .wTxPayload data) →
    exec i s = .next t → t.busy = false → t.env.replies = q0 :: q1 :: rest → q0.chip = none →
    q1.chip = none →
    (∀ b, Chip.answer t.params t.chip
          (some { cmd := some (t.params.opRRegister ||| regByte s.params.aFifoStatus), data := [] })
            = some b → q1.rx = b) →
    ∃ u v, exec (.rreg s.params.aFifoStatus) t = .next u ∧ u.resp = some (.value v)
      ∧ v &&& 0x10#8 = (match i with
          | .flushTx | .flushTxFifo => 0x10#8
          | _ => 0x00#8)

/-- The frame of the register writes, byte by byte of the chip's register space (R32, R88): on a chip that changes
nothing by itself meanwhile, WBUF, WREG and W_REGISTER store data byte `j` into byte `j` of register `a`, and every
byte other than those reads as before; after a write of RF_CH, which also clears a counter in a register the
spec does not name (R208), this is said of the named registers alone. Of FIFO status bit 4 is not stored (log
entry 25). STATUS is apart. That bytes beyond a register's width and at reserved addresses stay as they are is
log entry 12's choice, that the bytes of a register for which no data byte comes do is log entry 27's, and that
TX_ADDR and RX_ADDR_P0 have a fourth and a fifth byte is log entry 20's (R32: 3 to 5). -/
def Obligations.RegisterWritesStoreTheirBytesAndNoOther : Prop :=
  ∀ (s : State) (a : RegAddr) (data : List Byte) (r0 : Reply) (rs rest : List Reply) (i : Instr),
    s.Idle → s.params.opcodesWf = true → s.csn = .high → a ≠ s.params.aStatus →
    (i = .wbufReg a data ∨ i = .wRegister a data ∨ (∃ v, data = [v] ∧ i = .wreg a v)) →
    i.WellFormed s.params → s.env.replies = r0 :: (rs ++ rest) → rs.length = data.length →
    Quiet (r0 :: rs) →
    ∃ t, exec i s = .next t
      ∧ (∀ j, regByteExists s.params a j = true → j < data.length →
          (a ≠ s.params.aFifoStatus ∨ j ≠ 0) →
          some (Chip.readByte t.params t.chip a j) = data[j]?)
      ∧ (∀ v, a = s.params.aFifoStatus → regByteExists s.params a 0 = true → data[0]? = some v →
          Chip.readByte t.params t.chip a 0 &&& 0xEF#8 = v &&& 0xEF#8)
      ∧ ∀ a' j', j' < 8 → (a' ≠ a ∨ data.length ≤ j' ∨ regByteExists s.params a j' = false) →
          (a = s.params.aRfCh → a' ∈ namedRegisters s.params) →
          Chip.readByte t.params t.chip a' j' = Chip.readByte s.params s.chip a' j'

/-- The frame of the operations that store nothing (R38 (f), R85): on a chip that changes nothing by itself meanwhile,
RREG, RBUF in register form and with R_RX_PAYLOAD, the wire reads and NOP leave all of the chip's state as it is. That
R_RX_PAYLOAD, a read of a reserved address and a bracket without a falling edge have no effect either is log entry
12's choice. -/
def Obligations.ReadsLeaveTheChipAsItIs : Prop :=
  ∀ (s t : State) (i : Instr), s.Idle → s.params.opcodesWf = true → Quiet s.env.replies →
    ((∃ a, i = .rreg a) ∨ (∃ a n, i = .rbufReg a n) ∨ (∃ n, i = .rbufCmd s.params.opRRxPayload n)
      ∨ (∃ a n, i = .rRegister a n) ∨ (∃ n, i = .rRxPayload n) ∨ i = .nop) →
    exec i s = .next t → t.chip = s.chip

/-- R83, R214, D7: under the erratum switch RBUF leaves chip-select low. The bracket of a WREG after
it then opens without a falling edge; its events are as ever, and it closes high. That the chip makes nothing of
that bracket but its own moves, whatever they are, is log entry 12's choice: U2 says any value. -/
def Obligations.TheErratumLeavesChipSelectLow : Prop :=
  ∀ (s : State) (a b : RegAddr) (n : Nat) (v : Byte) (r0 : Reply) (rs : List Reply) (q0 q1 : Reply)
    (rest : List Reply), s.Idle → s.params.rbufCloseLow = true → n ≤ s.params.nMax →
    s.env.replies = r0 :: (rs ++ q0 :: q1 :: rest) → rs.length = n →
    ∃ t u, exec (.rbufReg a n) s = .next t ∧ t.csn = .low ∧ t.busy = false
      ∧ exec (.wreg b v) t = .next u ∧ u.csn = .high
      ∧ u.chip = (t.chip.moved q0.chip).moved q1.chip
      ∧ u.trace = t.trace
          ++ frameEvents (s.params.opWRegister ||| regByte b) [v] .high q0 [q1]
          ++ [.ret (.status q0.rx)]

/-- Source property of R145 and R146 (95_test_vectors.md E6), on a chip that returns CONFIG to a read and changes
nothing by itself: CONFIG's power-up bit is 0 after PWRDN and 1 after WAKE, and no other bit of CONFIG and no
other register changes. The runtime state follows the bit (R22, R182): Power-Down, and then (log entry 33) Standby. -/
def Obligations.PowerDownThenWakeKeepsTheOtherRegisters : Prop :=
  ∀ (s t : State) (c : Byte) (q0 q1 w0 w1 p0 p1 v0 v1 : Reply) (rest : List Reply), s.Idle →
    s.params.opcodesWf = true → s.params.aConfig.toNat ≤ 0x17 →
    s.params.aConfig ≠ s.params.aStatus → s.params.aConfig ≠ s.params.aFifoStatus → s.csn = .high →
    s.env.replies = q0 :: q1 :: w0 :: w1 :: p0 :: p1 :: v0 :: v1 :: rest →
    Quiet [q0, q1, w0, w1, p0, p1, v0, v1] →
    Chip.readByte s.params s.chip s.params.aConfig 0 = c → q1.rx = c →
    p1.rx = c &&& ~~~s.params.mPwrUp →
    exec .pwrDn s = .next t →
    Chip.readByte t.params t.chip s.params.aConfig 0 = c &&& ~~~s.params.mPwrUp
      ∧ t.chip.mode = .powerDown
      ∧ ∃ u, exec .wake t = .next u
          ∧ Chip.readByte u.params u.chip s.params.aConfig 0
              = (c &&& ~~~s.params.mPwrUp) ||| s.params.mPwrUp
          ∧ (s.params.mPwrUp ≠ 0x00#8 → u.chip.mode = .standby)
          ∧ ∀ a j, j < 8 → (a ≠ s.params.aConfig ∨ j ≠ 0) →
              Chip.readByte u.params u.chip a j = Chip.readByte s.params s.chip a j

/-- R143 (95_test_vectors.md P3, end state): after ENTERTX, on a chip that changes nothing by itself and whose named
registers are defined, distinct and not STATUS, each register that the path depends on holds the byte the
configuration gives it, and TX_ADDR and RX_ADDR_P0 hold the address; for widths 4 and 5 that rests on log entry 20
(five bytes in the chip; R32: 3 to 5). The runtime state follows `cfg.powerState` (R182; log entry 33). -/
def Obligations.EnterTxProgramsTheRegisters : Prop :=
  ∀ (s t : State) (cfg : TxConfig), s.Idle → s.params.opcodesWf = true → cfg.wf s.params = true →
    s.csn = .high → Quiet s.env.replies →
    ([s.params.aStatus, s.params.aFifoStatus, s.params.aSetupRetr, s.params.aRfSetup, s.params.aConfig,
        s.params.aRfCh, s.params.aTxAddr, s.params.aEnAa, s.params.aRxAddrP0].Nodup) →
    (∀ a ∈ [s.params.aSetupRetr, s.params.aRfSetup, s.params.aConfig, s.params.aRfCh,
        s.params.aTxAddr, s.params.aEnAa, s.params.aRxAddrP0], a.toNat ≤ 0x17) →
    exec (.enterTx cfg) s = .next t → t.Idle →
    Chip.readByte t.params t.chip s.params.aSetupRetr 0 = packRetr cfg.delay cfg.count
      ∧ Chip.readByte t.params t.chip s.params.aRfSetup 0 = cfg.dataRate ||| cfg.txPower
      ∧ Chip.readByte t.params t.chip s.params.aConfig 0 = packConfig s.params cfg
      ∧ Chip.readByte t.params t.chip s.params.aRfCh 0 = BitVec.ofNat 8 cfg.channel
      ∧ Chip.readByte t.params t.chip s.params.aEnAa 0 = s.params.mEnaaP0
      ∧ t.chip.mode = poweredMode s.params (packConfig s.params cfg) s.chip.mode
      ∧ ∀ j, j < cfg.width →
          some (Chip.readByte t.params t.chip s.params.aTxAddr j) = cfg.addr[j]?
            ∧ some (Chip.readByte t.params t.chip s.params.aRxAddrP0 j) = cfg.addr[j]?

/-- R142: PRESENT overwrites TX_ADDR with the pattern and does not restore it: on a chip that changes nothing by itself,
TX_ADDR holds the pattern when PRESENT has returned, whatever it answers. That TX_ADDR has five bytes in the chip is
log entry 20's. -/
def Obligations.PresentLeavesThePatternInTxAddr : Prop :=
  ∀ s t : State, s.Idle → s.params.opcodesWf = true → s.params.aTxAddr.toNat ≤ 0x17 →
    s.params.aTxAddr ≠ s.params.aStatus → s.params.aTxAddr ≠ s.params.aFifoStatus → s.csn = .high →
    Quiet s.env.replies → exec .present s = .next t → t.Idle →
    ∀ j, j < 5 →
      some (Chip.readByte t.params t.chip s.params.aTxAddr j) = s.params.pattern.toList[j]?

/-- R147: on a chip that returns RF_SETUP to a read and changes nothing by itself, after SETPWR the power field of
RF_SETUP holds the level, its other bits and every other register byte are as before; with a level outside the
domain the level's other bits are set too (log entry 29). -/
def Obligations.SetPwrWritesThePowerField : Prop :=
  ∀ (s : State) (level c : Byte) (q0 q1 w0 w1 : Reply) (rest : List Reply), s.Idle →
    s.params.opcodesWf = true → s.params.aRfSetup.toNat ≤ 0x17 →
    s.params.aRfSetup ≠ s.params.aStatus → s.params.aRfSetup ≠ s.params.aFifoStatus →
    s.csn = .high → s.env.replies = q0 :: q1 :: w0 :: w1 :: rest → Quiet [q0, q1, w0, w1] →
    Chip.readByte s.params s.chip s.params.aRfSetup 0 = c → q1.rx = c →
    ∃ t, exec (.setPwr level) s = .next t
      ∧ Chip.readByte t.params t.chip s.params.aRfSetup 0 = (c &&& ~~~s.params.mRfPwr) ||| level
      ∧ ∀ a j, j < 8 → (a ≠ s.params.aRfSetup ∨ j ≠ 0) →
          Chip.readByte t.params t.chip a j = Chip.readByte s.params s.chip a j

/-- The frame of the host's sequences over the rest of the chip, whether or not they return, on a chip that changes
nothing by itself: none touches a FIFO, the transmit trigger or the retransmission counter; all but SETCH and
ENTERTX leave the counter that a write of RF_CH clears, and all but ENTERTX, PWRDN and WAKE, which write CONFIG, the
runtime state, where the registers they name are not that one. (That a write of another register leaves the counter,
and that only CONFIG moves the runtime state, is log entries 26 and 33; that a first bracket that opens without a
falling edge does nothing to the chip is log entry 12's choice, where U2 says any value.) -/
def Obligations.SequencesLeaveTheQueuesAndTheCounters : Prop :=
  ∀ (s t : State) (i : Instr), s.Idle → s.params.opcodesWf = true → Quiet s.env.replies →
    (i = .present ∨ (∃ cfg, i = .enterTx cfg) ∨ (∃ ch, i = .setCh ch) ∨ i = .pwrDn ∨ i = .wake
      ∨ ∃ level, i = .setPwr level) →
    exec i s = .next t →
    t.chip.txFifo = s.chip.txFifo ∧ t.chip.rxFifo = s.chip.rxFifo
      ∧ t.chip.txStarted = s.chip.txStarted ∧ t.chip.retransmits = s.chip.retransmits
      ∧ ((i = .present ∨ i = .pwrDn ∨ i = .wake ∨ ∃ level, i = .setPwr level) →
          s.params.aRfCh ∉ [s.params.aTxAddr, s.params.aConfig, s.params.aRfSetup] →
          t.chip.counter = s.chip.counter)
      ∧ ((i = .present ∨ (∃ ch, i = .setCh ch) ∨ ∃ level, i = .setPwr level) →
          s.params.aConfig ∉ [s.params.aTxAddr, s.params.aRfCh, s.params.aRfSetup] →
          t.chip.mode = s.chip.mode)

/-- The frame of the host's sequences and of TXPKT over the chip's register space, whether or not they return, on a
chip that changes nothing by itself: each writes the registers its rule names and no byte of any other (R110, R142 to
R147). SETCH and ENTERTX also clear a counter in a register the spec does not name (R208), so of them this is said of
the named registers; TXPKT and FLUSHTX change what FIFO status shows (R91), so that register is apart there. That bytes
of which the spec says nothing, and a first bracket that opens without a falling edge, change nothing is log entry
12's choice; that FLUSHTX leaves STATUS is log entry 34's. -/
def Obligations.SequencesWriteOnlyTheRegistersTheyName : Prop :=
  ∀ (s t : State) (i : Instr) (a : RegAddr) (j : Nat), s.Idle → s.params.opcodesWf = true →
    Quiet s.env.replies → (∀ x ∈ s.env.samples, x.chip = none) → j < 8 →
    exec i s = .next t →
    (match i with
     | .present => a ≠ s.params.aTxAddr
     | .enterTx _ => a ∈ namedRegisters s.params ∧ a ∉ [s.params.aSetupRetr, s.params.aRfSetup, s.params.aConfig, s.params.aRfCh,
         s.params.aTxAddr, s.params.aEnAa, s.params.aRxAddrP0]
     | .setCh _ => a ∈ namedRegisters s.params ∧ a ≠ s.params.aRfCh
     | .pwrDn | .wake => a ≠ s.params.aConfig
     | .setPwr _ => a ≠ s.params.aRfSetup
     | .txpkt _ => a ≠ s.params.aStatus ∧ a ≠ s.params.aFifoStatus
     | .flushTxFifo => a ≠ s.params.aFifoStatus
     | .setce _ => True
     | .rRegister _ _ | .wRegister _ _ | .rRxPayload _ | .wTxPayload _ | .flushTx | .flushRx | .nop => False
     | .wreg _ _ | .rreg _ | .rbufReg _ _ | .rbufCmd _ _ | .wbufReg _ _ | .wbufCmd _ _ => False) →
    Chip.readByte t.params t.chip a j = Chip.readByte s.params s.chip a j

/-! ### Invariants and whole-machine rules -/

/-- The invariant holds at reset, for every choice of the parameters that `Params.wf` admits, the erratum switch and the
reset levels of the two lines among them (R200), and so for the default one. -/
def Obligations.ResetMeetsTheInvariant : Prop :=
  (∀ p : Params, p.wf = true → Invariant (State.resetWith p)) ∧ Invariant State.reset

/-- Every step keeps the invariant, from every state that meets it: among other things chip-select is low at every
exchange so far and high outside a bracket (R31, R96), chip-enable is high exactly where TXPKT armed it
(R125 (e)), the sequencer's phase belongs to the operation latched, and the chip's register memory keeps its
canonical form. -/
def Obligations.StepKeepsTheInvariant : Prop :=
  ∀ s t : State, Invariant s → step s = .next t → Invariant t

/-- R96 (a): where every bracket closes high, chip-select is high whenever `BUSY` is 0, after any step from any state
that meets the invariant. -/
def Obligations.ChipSelectIsHighWheneverIdle : Prop :=
  ∀ s t : State, Invariant s → s.params.rbufCloseLow = false → s.params.resetCsn = .high →
    step s = .next t → t.busy = false → t.csn = .high

/-- 10_state.md section 3: the parameters are constants, and no step changes them; nor does a step change the level
that the environment's line keeps, or take back an event. -/
def Obligations.StepKeepsTheParametersAndThePast : Prop :=
  ∀ s t : State, step s = .next t →
    t.params = s.params ∧ t.env.line = s.env.line ∧ ∃ es, t.trace = s.trace ++ es

/-- D2: each micro-step emits at most one event. That a step of the machine is a run of micro-steps, and that an
operation is the run of its host steps from their presentation to where the machine rests, is the model's choice
(log entry 14). -/
def Obligations.AnOperationIsARunOfTheSequencer : Prop :=
  (∀ s : State, (micro s).trace = s.trace ∨ ∃ e, (micro s).trace = s.trace ++ [e])
    ∧ (∀ s t : State, ¬ s.Idle → step s = .next t → ∃ k, t = micro^[k] s)
    ∧ (∀ (i : Instr) (s t : State), exec i s = .next t →
        ∃ k, t = micro^[k] { s with hostSeq := hostSteps s.params i } ∧ atRest t = true)

/-- R16: "no cross-call state retained". Two idle machines that agree on the parameters, CSN, CE, the environment, the
chip and the open transaction it is receiving, and differ in any way in the latches and in the last response,
perform every operation with the same events and the same effect on the lines, the environment and the chip, and
return the same response. -/
def Obligations.NothingIsRetainedAcrossOperations : Prop :=
  ∀ (i : Instr) (s s' t : State), s.Idle → s'.Idle →
    s'.params = s.params → s'.csn = s.csn → s'.ce = s.ce → s'.env = s.env → s'.chip = s.chip →
    s'.bus = s.bus → exec i s = .next t →
    ∃ t', exec i s' = .next t' ∧ t'.csn = t.csn ∧ t'.ce = t.ce ∧ t'.env = t.env
      ∧ t'.chip = t.chip ∧ t'.busy = t.busy ∧ (t.Idle → t'.Idle)
      ∧ (∃ es, t.trace = s.trace ++ es ∧ t'.trace = s'.trace ++ es)
      ∧ (t.Idle → t'.resp = t.resp ∧ (i = .present → t'.presence = t.presence))
end

