-- ==== Sys2Proof/Laws/Encoding.lean ====
section
/-! SUPPORT. The fields of the encodings: a head byte is its opcode bits and its address (30_encoding.md rule R51), a host
word is its six fields and nothing else (rule R62), and R7's constraints keep the seven commands apart. -/

namespace Sys2Proof

theorem opBits_or_regByte (x : Byte) (a : RegAddr) (h : x &&& 0x1F#8 = 0x00#8) :
    opBits (x ||| regByte a) = x := by
  unfold opBits regByte
  apply BitVec.eq_of_getElem_eq
  intro i hi
  have hx := congrArg (fun b : Byte => b[i]) h
  have : i = 0 ∨ i = 1 ∨ i = 2 ∨ i = 3 ∨ i = 4 ∨ i = 5 ∨ i = 6 ∨ i = 7 := by omega
  rcases this with rfl | rfl | rfl | rfl | rfl | rfl | rfl | rfl <;> simp at hx ⊢ <;> simp [hx]

theorem addrOf_or_regByte (x : Byte) (a : RegAddr) (h : x &&& 0x1F#8 = 0x00#8) :
    addrOf (x ||| regByte a) = a := by
  unfold addrOf regByte
  apply BitVec.eq_of_getElem_eq
  intro i hi
  have hx := congrArg (fun b : Byte => b[i]) h
  have : i = 0 ∨ i = 1 ∨ i = 2 ∨ i = 3 ∨ i = 4 := by omega
  rcases this with rfl | rfl | rfl | rfl | rfl <;> simp at hx ⊢ <;> simp [hx]

/-- A byte is its opcode bits and its address bits. -/
theorem opBits_or_addrOf (h : Byte) : opBits h ||| regByte (addrOf h) = h := by
  unfold opBits addrOf regByte
  apply BitVec.eq_of_getElem_eq
  intro i hi
  have : i = 0 ∨ i = 1 ∨ i = 2 ∨ i = 3 ∨ i = 4 ∨ i = 5 ∨ i = 6 ∨ i = 7 := by omega
  rcases this with rfl | rfl | rfl | rfl | rfl | rfl | rfl | rfl <;> simp

theorem addrOf_regByte (a : RegAddr) : addrOf (regByte a) = a := by
  unfold addrOf regByte
  apply BitVec.eq_of_getElem_eq
  intro i hi
  simp

/-- Bit by bit, a host word is the concatenation of its fields. -/
theorem hostWord_getLsbD (o : BitVec 3) (h : BitVec 1) (a b c : Byte) (i : Nat) :
    (hostWord o h a b c).getLsbD i
      = if i < 8 then c.getLsbD i
        else if i < 16 then b.getLsbD (i - 8)
        else if i < 24 then a.getLsbD (i - 16)
        else if i < 28 then false
        else if i < 29 then h.getLsbD (i - 28)
        else o.getLsbD (i - 29) := by
  have key : (hostWord o h a b c).getLsbD i
      = (o ++ h ++ 0#4 ++ a ++ b ++ c : BitVec (3 + 1 + 4 + 8 + 8 + 8)).getLsbD i := rfl
  rw [key]
  simp only [BitVec.getLsbD_append, Nat.sub_sub]
  split_ifs <;> first | rfl | omega | simp

/-- The fields of a host word built from fields. -/
theorem hostWord_fields (o : BitVec 3) (h : BitVec 1) (a b c : Byte) :
    wordOpsel (hostWord o h a b c) = o ∧ wordHeadsel (hostWord o h a b c) = h
      ∧ wordZero (hostWord o h a b c) = 0#4 ∧ wordHead (hostWord o h a b c) = a
      ∧ wordVal (hostWord o h a b c) = b ∧ wordCount (hostWord o h a b c) = c := by
  unfold wordOpsel wordHeadsel wordZero wordHead wordVal wordCount
  refine ⟨?_, ?_, ?_, ?_, ?_, ?_⟩ <;>
  · apply BitVec.eq_of_getLsbD_eq
    intro i hi
    simp only [BitVec.getLsbD_extractLsb', hi, decide_true, Bool.true_and, hostWord_getLsbD]
    split_ifs <;> first | omega | simp

/-- A host word with its zero field zero is built from its fields. -/
theorem hostWord_of_fields (w : BitVec 32) (hz : wordZero w = 0#4) :
    hostWord (wordOpsel w) (wordHeadsel w) (wordHead w) (wordVal w) (wordCount w) = w := by
  apply BitVec.eq_of_getLsbD_eq
  intro i hi
  rw [hostWord_getLsbD]
  unfold wordOpsel wordHeadsel wordHead wordVal wordCount
  simp only [BitVec.getLsbD_extractLsb']
  have hz' : ∀ j, j < 4 → w.getLsbD (24 + j) = false := by
    intro j hj
    have := congrArg (fun x => BitVec.getLsbD x j) hz
    simpa [wordZero, BitVec.getLsbD_extractLsb', hj] using this
  split_ifs with h1 h2 h3 h4 h5
  · simp [h1]
  · simp [show i - 8 < 8 by omega, show 8 + (i - 8) = i by omega]
  · simp [show i - 16 < 8 by omega, show 16 + (i - 16) = i by omega]
  · simpa [show 24 + (i - 24) = i by omega] using (hz' (i - 24) (by omega)).symm
  · simp [show i - 28 < 1 by omega, show 28 + (i - 28) = i by omega]
  · simp [show i - 29 < 3 by omega, show 29 + (i - 29) = i by omega]

/-- R7's constraints, one by one. -/
theorem Params.opcodesWf_iff (p : Params) :
    p.opcodesWf = true ↔
      p.opRRegister &&& 0x1F#8 = 0x00#8 ∧ p.opWRegister &&& 0x1F#8 = 0x00#8
        ∧ p.opRRegister ≠ p.opWRegister ∧ p.fixedCommands.Nodup
        ∧ ∀ c ∈ p.fixedCommands, opBits c ≠ p.opRRegister ∧ opBits c ≠ p.opWRegister := by
  unfold Params.opcodesWf opBits
  simp only [Bool.and_eq_true, beq_iff_eq, bne_iff_ne, decide_eq_true_eq, List.all_eq_true, ne_eq]
  tauto

/-- The parameter sets of `Params.wf` meet R7's constraints, and their counts fit. -/
theorem Params.wf_parts (p : Params) (h : p.wf = true) :
    p.opcodesWf = true ∧ 5 ≤ p.nMax ∧ p.nMax ≤ 255 ∧ p.flushTrailer.length ≤ p.nMax := by
  unfold Params.wf at h
  simp only [Bool.and_eq_true, decide_eq_true_eq] at h
  tauto

/-- What a check lets through. -/
theorem require_ok (c : Bool) (e : DecodeError) (k : Except DecodeError Instr) (i : Instr)
    (h : require c e k = .ok i) : c = true ∧ k = .ok i := by
  cases c <;> simp_all [require]

/-- What the domain check lets through. -/
theorem inDomain_ok (p : Params) (i j : Instr) (h : inDomain p i = .ok j) :
    i = j ∧ j.WellFormed p := by
  unfold inDomain at h
  split at h
  · simp only [Except.ok.injEq] at h
    subst h
    exact ⟨rfl, ‹_›⟩
  · simp at h

theorem inDomain_of_wellFormed (p : Params) (i : Instr) (h : i.WellFormed p) : inDomain p i = .ok i := by
  simp only [inDomain, show i.illegal p = none from h]

theorem illegalCount_none (p : Params) (n : Nat) (h : illegalCount p n = none) : n ≤ p.nMax := by
  unfold illegalCount at h
  split at h <;> simp_all

theorem illegalCommand_none (p : Params) (c : Byte) (n : Nat) (h : illegalCommand p c n = none) :
    c ∈ p.fixedCommands ∧ n ≤ p.nMax := by
  unfold illegalCommand at h
  split at h
  · exact ⟨List.contains_iff_mem.mp ‹_›, illegalCount_none p n h⟩
  · simp at h

/-- The fields of the host word of an operation whose data bytes are `data` (R62's table). -/
def HostFields (w : BitVec 32) (data : List Byte) : Instr → Prop
  | .wreg a v => wordOpsel w = 0#3 ∧ wordHeadsel w = 0#1 ∧ wordHead w = regByte a ∧ wordVal w = v
      ∧ wordCount w = 0#8
  | .rreg a => wordOpsel w = 1#3 ∧ wordHeadsel w = 0#1 ∧ wordHead w = regByte a ∧ wordVal w = 0#8
      ∧ wordCount w = 0#8
  | .rbufReg a n => wordOpsel w = 2#3 ∧ wordHeadsel w = 0#1 ∧ wordHead w = regByte a
      ∧ wordVal w = 0#8 ∧ (wordCount w).toNat = n
  | .rbufCmd c n => wordOpsel w = 2#3 ∧ wordHeadsel w = 1#1 ∧ wordHead w = c ∧ wordVal w = 0#8
      ∧ (wordCount w).toNat = n
  | .wbufReg a d => wordOpsel w = 3#3 ∧ wordHeadsel w = 0#1 ∧ wordHead w = regByte a
      ∧ wordVal w = 0#8 ∧ d = data
  | .wbufCmd c d => wordOpsel w = 3#3 ∧ wordHeadsel w = 1#1 ∧ wordHead w = c ∧ wordVal w = 0#8
      ∧ d = data
  | .txpkt d => wordOpsel w = 4#3 ∧ wordHeadsel w = 0#1 ∧ wordHead w = 0#8 ∧ wordVal w = 0#8
      ∧ d = data
  | .setce l => wordOpsel w = 5#3 ∧ wordHeadsel w = 0#1 ∧ wordHead w = 0#8
      ∧ wordVal w = levelByte l ∧ wordCount w = 0#8
  | .rRegister _ _ | .wRegister _ _ | .rRxPayload _ | .wTxPayload _ | .flushTx | .flushRx | .nop => False
  | .present | .enterTx _ | .setCh _ | .pwrDn | .wake | .setPwr _ | .flushTxFifo => False

@[simp] theorem freeBytes_length (k m : Nat) : (freeBytes k m).length = m := by simp [freeBytes]

@[simp] theorem freeBytes_zero (k : Nat) : freeBytes k 0 = [] := rfl

/-- The block takes exactly as many data bytes as the word asks for. -/
@[simp] theorem streamTaken_length (k : Nat) (w : BitVec 32) (data : List Byte) :
    (streamTaken k w data).length = streamLength w := by
  simp only [streamTaken, List.length_take, List.length_append, freeBytes_length, missingBytes]
  omega

/-- Where the right number of bytes comes, those are taken. -/
theorem streamTaken_of_length (k : Nat) (w : BitVec 32) (data : List Byte)
    (h : data.length = streamLength w) : streamTaken k w data = data := by
  have hm : missingBytes w data = 0 := by
    unfold missingBytes
    omega
  simp only [streamTaken, hm, freeBytes_zero, List.append_nil]
  exact List.take_of_length_le (by omega)

/-- The first bytes are those that came, and the others are the free values. -/
theorem streamTaken_getElem? (k : Nat) (w : BitVec 32) (data : List Byte) (j : Nat)
    (hj : j < streamLength w) :
    (streamTaken k w data)[j]?
      = if j < data.length then data[j]? else some (Config.missingByte (k + (j - data.length))) := by
  unfold streamTaken freeBytes missingBytes
  rw [List.getElem?_take_of_lt hj]
  split
  · rw [List.getElem?_append_left ‹_›]
  · rw [List.getElem?_append_right (by omega)]
    simp only [List.getElem?_map]
    rw [List.getElem?_range (by omega)]
    rfl

/-- A completed request is taken with the free values it was completed with. -/
theorem streamTaken_complete (k : Nat) (w : BitVec 32) (data : List Byte) :
    streamTaken 0 w (data ++ freeBytes k (missingBytes w data)) = streamTaken k w data := by
  have h : missingBytes w (data ++ freeBytes k (missingBytes w data)) = 0 := by
    simp only [missingBytes, List.length_append, freeBytes_length]
    omega
  simp only [streamTaken, h, freeBytes_zero, List.append_nil]

/-- An accepted host word has the fields of its operation. -/
theorem decodeHost_ok (p : Params) (w : BitVec 32) (data : List Byte) (i : Instr)
    (hd : decodeHost p w data = .ok i) :
    i.WellFormed p ∧ wordZero w = 0#4 ∧ HostFields w data i := by
  have hsel : ∀ h : BitVec 1, h ≠ 0#1 → h = 1#1 := by decide
  simp only [decodeHost] at hd
  obtain ⟨hz, hd⟩ := require_ok _ _ _ _ hd
  simp only [beq_iff_eq] at hz
  have close : ∀ j, inDomain p j = .ok i → i = j ∧ i.WellFormed p := fun j h => by
    obtain ⟨rfl, h⟩ := inDomain_ok p j i h
    exact ⟨rfl, h⟩
  split at hd
  · obtain ⟨c1, hd⟩ := require_ok _ _ _ _ hd
    obtain ⟨c2, hd⟩ := require_ok _ _ _ _ hd
    obtain ⟨rfl, hw⟩ := close _ hd
    simp only [Bool.and_eq_true, beq_iff_eq] at c1 c2
    exact ⟨hw, hz, by assumption, c1, c2.1, rfl, c2.2⟩
  · split at hd
    · obtain ⟨c1, hd⟩ := require_ok _ _ _ _ hd
      obtain ⟨c2, hd⟩ := require_ok _ _ _ _ hd
      obtain ⟨rfl, hw⟩ := close _ hd
      simp only [Bool.and_eq_true, beq_iff_eq] at c1 c2
      exact ⟨hw, hz, by assumption, c1, c2.1.1, c2.1.2, c2.2⟩
    · split at hd
      · obtain ⟨c1, hd⟩ := require_ok _ _ _ _ hd
        simp only [beq_iff_eq] at c1
        split at hd
        · obtain ⟨c2, hd⟩ := require_ok _ _ _ _ hd
          obtain ⟨rfl, hw⟩ := close _ hd
          simp only [beq_iff_eq] at c2
          exact ⟨hw, hz, by assumption, by assumption, c2, c1, rfl⟩
        · obtain ⟨rfl, hw⟩ := close _ hd
          exact ⟨hw, hz, by assumption, hsel _ (by assumption), rfl, c1, rfl⟩
      · split at hd
        · obtain ⟨c1, hd⟩ := require_ok _ _ _ _ hd
          simp only [beq_iff_eq] at c1
          split at hd
          · obtain ⟨c2, hd⟩ := require_ok _ _ _ _ hd
            obtain ⟨rfl, hw⟩ := close _ hd
            simp only [beq_iff_eq] at c2
            exact ⟨hw, hz, by assumption, by assumption, c2, c1, rfl⟩
          · obtain ⟨rfl, hw⟩ := close _ hd
            exact ⟨hw, hz, by assumption, hsel _ (by assumption), rfl, c1, rfl⟩
        · split at hd
          · obtain ⟨c1, hd⟩ := require_ok _ _ _ _ hd
            obtain ⟨c2, hd⟩ := require_ok _ _ _ _ hd
            obtain ⟨rfl, hw⟩ := close _ hd
            simp only [Bool.and_eq_true, beq_iff_eq] at c1 c2
            exact ⟨hw, hz, by assumption, c1, c2.1, c2.2, rfl⟩
          · split at hd
            · obtain ⟨c1, hd⟩ := require_ok _ _ _ _ hd
              obtain ⟨c2, hd⟩ := require_ok _ _ _ _ hd
              obtain ⟨rfl, hw⟩ := close _ hd
              simp only [Bool.and_eq_true, beq_iff_eq] at c1 c2
              exact ⟨hw, hz, by assumption, c1, c2.1.1, c2.1.2, c2.2⟩
            · simp at hd

end Sys2Proof
end

