-- ==== Sys2Proof/Laws/State.lean ====
section
/-! SUPPORT. One lemma per field of State for each named operation of Machine/Ops.lean: what the operation makes of the
field, and that it leaves the bytes of the transaction alone where it does. -/

namespace Sys2Proof.Machine

@[simp] theorem State.goto_params (q : Phase) (s : State) :
    (s.goto q).params = s.params := rfl
@[simp] theorem State.goto_csn (q : Phase) (s : State) :
    (s.goto q).csn = s.csn := rfl
@[simp] theorem State.goto_ce (q : Phase) (s : State) :
    (s.goto q).ce = s.ce := rfl
@[simp] theorem State.goto_busy (q : Phase) (s : State) :
    (s.goto q).busy = s.busy := rfl
@[simp] theorem State.goto_seq (q : Phase) (s : State) :
    (s.goto q).seq = q := rfl
@[simp] theorem State.goto_idx (q : Phase) (s : State) :
    (s.goto q).idx = s.idx := rfl
@[simp] theorem State.goto_ops (q : Phase) (s : State) :
    (s.goto q).ops = s.ops := rfl
@[simp] theorem State.goto_st (q : Phase) (s : State) :
    (s.goto q).st = s.st := rfl
@[simp] theorem State.goto_inBytes (q : Phase) (s : State) :
    (s.goto q).inBytes = s.inBytes := rfl
@[simp] theorem State.goto_sReg (q : Phase) (s : State) :
    (s.goto q).sReg = s.sReg := rfl
@[simp] theorem State.goto_resp (q : Phase) (s : State) :
    (s.goto q).resp = s.resp := rfl
@[simp] theorem State.goto_presence (q : Phase) (s : State) :
    (s.goto q).presence = s.presence := rfl
@[simp] theorem State.goto_hostSeq (q : Phase) (s : State) :
    (s.goto q).hostSeq = s.hostSeq := rfl
@[simp] theorem State.goto_inbox (q : Phase) (s : State) :
    (s.goto q).inbox = s.inbox := rfl
@[simp] theorem State.goto_freeCount (q : Phase) (s : State) :
    (s.goto q).freeCount = s.freeCount := rfl
@[simp] theorem State.goto_env (q : Phase) (s : State) :
    (s.goto q).env = s.env := rfl
@[simp] theorem State.goto_chip (q : Phase) (s : State) :
    (s.goto q).chip = s.chip := rfl
@[simp] theorem State.goto_bus (q : Phase) (s : State) :
    (s.goto q).bus = s.bus := rfl
@[simp] theorem State.goto_trace (q : Phase) (s : State) :
    (s.goto q).trace = s.trace := rfl
@[simp] theorem txnOut_goto (q : Phase) (s : State) (t : Txn) :
    txnOut (s.goto q) t = txnOut s t := by
  cases t <;> rfl
@[simp] theorem txnHead_goto (q : Phase) (s : State) (t : Txn) :
    txnHead (s.goto q) t = txnHead s t := by
  cases t <;> rfl
@[simp] theorem txnClose_goto (q : Phase) (s : State) (t : Txn) :
    txnClose (s.goto q) t = txnClose s t := by
  cases t <;> rfl

@[simp] theorem State.driveCsn_params (v : Level) (s : State) :
    (s.driveCsn v).params = s.params := rfl
@[simp] theorem State.driveCsn_csn (v : Level) (s : State) :
    (s.driveCsn v).csn = v := rfl
@[simp] theorem State.driveCsn_ce (v : Level) (s : State) :
    (s.driveCsn v).ce = s.ce := rfl
@[simp] theorem State.driveCsn_busy (v : Level) (s : State) :
    (s.driveCsn v).busy = s.busy := rfl
@[simp] theorem State.driveCsn_seq (v : Level) (s : State) :
    (s.driveCsn v).seq = s.seq := rfl
@[simp] theorem State.driveCsn_idx (v : Level) (s : State) :
    (s.driveCsn v).idx = s.idx := rfl
@[simp] theorem State.driveCsn_ops (v : Level) (s : State) :
    (s.driveCsn v).ops = s.ops := rfl
@[simp] theorem State.driveCsn_st (v : Level) (s : State) :
    (s.driveCsn v).st = s.st := rfl
@[simp] theorem State.driveCsn_inBytes (v : Level) (s : State) :
    (s.driveCsn v).inBytes = s.inBytes := rfl
@[simp] theorem State.driveCsn_sReg (v : Level) (s : State) :
    (s.driveCsn v).sReg = s.sReg := rfl
@[simp] theorem State.driveCsn_resp (v : Level) (s : State) :
    (s.driveCsn v).resp = s.resp := rfl
@[simp] theorem State.driveCsn_presence (v : Level) (s : State) :
    (s.driveCsn v).presence = s.presence := rfl
@[simp] theorem State.driveCsn_hostSeq (v : Level) (s : State) :
    (s.driveCsn v).hostSeq = s.hostSeq := rfl
@[simp] theorem State.driveCsn_inbox (v : Level) (s : State) :
    (s.driveCsn v).inbox = s.inbox := rfl
@[simp] theorem State.driveCsn_freeCount (v : Level) (s : State) :
    (s.driveCsn v).freeCount = s.freeCount := rfl
@[simp] theorem State.driveCsn_env (v : Level) (s : State) :
    (s.driveCsn v).env = s.env := rfl
@[simp] theorem State.driveCsn_chip (v : Level) (s : State) :
    (s.driveCsn v).chip = chipSelect s.params s.csn v s.bus s.chip := rfl
@[simp] theorem State.driveCsn_bus (v : Level) (s : State) :
    (s.driveCsn v).bus = busSelect s.csn v := rfl
@[simp] theorem State.driveCsn_trace (v : Level) (s : State) :
    (s.driveCsn v).trace = s.trace ++ [.csn v] := rfl
@[simp] theorem txnOut_driveCsn (v : Level) (s : State) (t : Txn) :
    txnOut (s.driveCsn v) t = txnOut s t := by
  cases t <;> rfl
@[simp] theorem txnHead_driveCsn (v : Level) (s : State) (t : Txn) :
    txnHead (s.driveCsn v) t = txnHead s t := by
  cases t <;> rfl
@[simp] theorem txnClose_driveCsn (v : Level) (s : State) (t : Txn) :
    txnClose (s.driveCsn v) t = txnClose s t := by
  cases t <;> rfl

@[simp] theorem State.driveCe_params (v : Level) (s : State) :
    (s.driveCe v).params = s.params := rfl
@[simp] theorem State.driveCe_csn (v : Level) (s : State) :
    (s.driveCe v).csn = s.csn := rfl
@[simp] theorem State.driveCe_ce (v : Level) (s : State) :
    (s.driveCe v).ce = v := rfl
@[simp] theorem State.driveCe_busy (v : Level) (s : State) :
    (s.driveCe v).busy = s.busy := rfl
@[simp] theorem State.driveCe_seq (v : Level) (s : State) :
    (s.driveCe v).seq = s.seq := rfl
@[simp] theorem State.driveCe_idx (v : Level) (s : State) :
    (s.driveCe v).idx = s.idx := rfl
@[simp] theorem State.driveCe_ops (v : Level) (s : State) :
    (s.driveCe v).ops = s.ops := rfl
@[simp] theorem State.driveCe_st (v : Level) (s : State) :
    (s.driveCe v).st = s.st := rfl
@[simp] theorem State.driveCe_inBytes (v : Level) (s : State) :
    (s.driveCe v).inBytes = s.inBytes := rfl
@[simp] theorem State.driveCe_sReg (v : Level) (s : State) :
    (s.driveCe v).sReg = s.sReg := rfl
@[simp] theorem State.driveCe_resp (v : Level) (s : State) :
    (s.driveCe v).resp = s.resp := rfl
@[simp] theorem State.driveCe_presence (v : Level) (s : State) :
    (s.driveCe v).presence = s.presence := rfl
@[simp] theorem State.driveCe_hostSeq (v : Level) (s : State) :
    (s.driveCe v).hostSeq = s.hostSeq := rfl
@[simp] theorem State.driveCe_inbox (v : Level) (s : State) :
    (s.driveCe v).inbox = s.inbox := rfl
@[simp] theorem State.driveCe_freeCount (v : Level) (s : State) :
    (s.driveCe v).freeCount = s.freeCount := rfl
@[simp] theorem State.driveCe_env (v : Level) (s : State) :
    (s.driveCe v).env = s.env := rfl
@[simp] theorem State.driveCe_chip (v : Level) (s : State) :
    (s.driveCe v).chip = chipEnable s.ce v s.chip := rfl
@[simp] theorem State.driveCe_bus (v : Level) (s : State) :
    (s.driveCe v).bus = s.bus := rfl
@[simp] theorem State.driveCe_trace (v : Level) (s : State) :
    (s.driveCe v).trace = s.trace ++ [.ce v] := rfl
@[simp] theorem txnOut_driveCe (v : Level) (s : State) (t : Txn) :
    txnOut (s.driveCe v) t = txnOut s t := by
  cases t <;> rfl
@[simp] theorem txnHead_driveCe (v : Level) (s : State) (t : Txn) :
    txnHead (s.driveCe v) t = txnHead s t := by
  cases t <;> rfl
@[simp] theorem txnClose_driveCe (v : Level) (s : State) (t : Txn) :
    txnClose (s.driveCe v) t = txnClose s t := by
  cases t <;> rfl

@[simp] theorem State.xchg_params (o : Byte) (r : Reply) (rest : List Reply) (s : State) :
    (s.xchg o r rest).params = s.params := rfl
@[simp] theorem State.xchg_csn (o : Byte) (r : Reply) (rest : List Reply) (s : State) :
    (s.xchg o r rest).csn = s.csn := rfl
@[simp] theorem State.xchg_ce (o : Byte) (r : Reply) (rest : List Reply) (s : State) :
    (s.xchg o r rest).ce = s.ce := rfl
@[simp] theorem State.xchg_busy (o : Byte) (r : Reply) (rest : List Reply) (s : State) :
    (s.xchg o r rest).busy = s.busy := rfl
@[simp] theorem State.xchg_seq (o : Byte) (r : Reply) (rest : List Reply) (s : State) :
    (s.xchg o r rest).seq = s.seq := rfl
@[simp] theorem State.xchg_idx (o : Byte) (r : Reply) (rest : List Reply) (s : State) :
    (s.xchg o r rest).idx = s.idx := rfl
@[simp] theorem State.xchg_ops (o : Byte) (r : Reply) (rest : List Reply) (s : State) :
    (s.xchg o r rest).ops = s.ops := rfl
@[simp] theorem State.xchg_st (o : Byte) (r : Reply) (rest : List Reply) (s : State) :
    (s.xchg o r rest).st = s.st := rfl
@[simp] theorem State.xchg_inBytes (o : Byte) (r : Reply) (rest : List Reply) (s : State) :
    (s.xchg o r rest).inBytes = s.inBytes := rfl
@[simp] theorem State.xchg_sReg (o : Byte) (r : Reply) (rest : List Reply) (s : State) :
    (s.xchg o r rest).sReg = s.sReg := rfl
@[simp] theorem State.xchg_resp (o : Byte) (r : Reply) (rest : List Reply) (s : State) :
    (s.xchg o r rest).resp = s.resp := rfl
@[simp] theorem State.xchg_presence (o : Byte) (r : Reply) (rest : List Reply) (s : State) :
    (s.xchg o r rest).presence = s.presence := rfl
@[simp] theorem State.xchg_hostSeq (o : Byte) (r : Reply) (rest : List Reply) (s : State) :
    (s.xchg o r rest).hostSeq = s.hostSeq := rfl
@[simp] theorem State.xchg_inbox (o : Byte) (r : Reply) (rest : List Reply) (s : State) :
    (s.xchg o r rest).inbox = s.inbox := rfl
@[simp] theorem State.xchg_freeCount (o : Byte) (r : Reply) (rest : List Reply) (s : State) :
    (s.xchg o r rest).freeCount = s.freeCount := rfl
@[simp] theorem State.xchg_env (o : Byte) (r : Reply) (rest : List Reply) (s : State) :
    (s.xchg o r rest).env = { s.env with replies := rest } := rfl
@[simp] theorem State.xchg_chip (o : Byte) (r : Reply) (rest : List Reply) (s : State) :
    (s.xchg o r rest).chip = chipTake s.params o s.bus (s.chip.moved r.chip) := rfl
@[simp] theorem State.xchg_bus (o : Byte) (r : Reply) (rest : List Reply) (s : State) :
    (s.xchg o r rest).bus = busTake o s.bus := rfl
@[simp] theorem State.xchg_trace (o : Byte) (r : Reply) (rest : List Reply) (s : State) :
    (s.xchg o r rest).trace = s.trace ++ [.x o r.rx] := rfl
@[simp] theorem txnOut_xchg (o : Byte) (r : Reply) (rest : List Reply) (s : State) (t : Txn) :
    txnOut (s.xchg o r rest) t = txnOut s t := by
  cases t <;> rfl
@[simp] theorem txnHead_xchg (o : Byte) (r : Reply) (rest : List Reply) (s : State) (t : Txn) :
    txnHead (s.xchg o r rest) t = txnHead s t := by
  cases t <;> rfl
@[simp] theorem txnClose_xchg (o : Byte) (r : Reply) (rest : List Reply) (s : State) (t : Txn) :
    txnClose (s.xchg o r rest) t = txnClose s t := by
  cases t <;> rfl

@[simp] theorem State.latchStatus_params (b : Byte) (s : State) :
    (s.latchStatus b).params = s.params := rfl
@[simp] theorem State.latchStatus_csn (b : Byte) (s : State) :
    (s.latchStatus b).csn = s.csn := rfl
@[simp] theorem State.latchStatus_ce (b : Byte) (s : State) :
    (s.latchStatus b).ce = s.ce := rfl
@[simp] theorem State.latchStatus_busy (b : Byte) (s : State) :
    (s.latchStatus b).busy = s.busy := rfl
@[simp] theorem State.latchStatus_seq (b : Byte) (s : State) :
    (s.latchStatus b).seq = s.seq := rfl
@[simp] theorem State.latchStatus_idx (b : Byte) (s : State) :
    (s.latchStatus b).idx = 0 := rfl
@[simp] theorem State.latchStatus_ops (b : Byte) (s : State) :
    (s.latchStatus b).ops = s.ops := rfl
@[simp] theorem State.latchStatus_st (b : Byte) (s : State) :
    (s.latchStatus b).st = b := rfl
@[simp] theorem State.latchStatus_inBytes (b : Byte) (s : State) :
    (s.latchStatus b).inBytes = s.inBytes := rfl
@[simp] theorem State.latchStatus_sReg (b : Byte) (s : State) :
    (s.latchStatus b).sReg = s.sReg := rfl
@[simp] theorem State.latchStatus_resp (b : Byte) (s : State) :
    (s.latchStatus b).resp = s.resp := rfl
@[simp] theorem State.latchStatus_presence (b : Byte) (s : State) :
    (s.latchStatus b).presence = s.presence := rfl
@[simp] theorem State.latchStatus_hostSeq (b : Byte) (s : State) :
    (s.latchStatus b).hostSeq = s.hostSeq := rfl
@[simp] theorem State.latchStatus_inbox (b : Byte) (s : State) :
    (s.latchStatus b).inbox = s.inbox := rfl
@[simp] theorem State.latchStatus_freeCount (b : Byte) (s : State) :
    (s.latchStatus b).freeCount = s.freeCount := rfl
@[simp] theorem State.latchStatus_env (b : Byte) (s : State) :
    (s.latchStatus b).env = s.env := rfl
@[simp] theorem State.latchStatus_chip (b : Byte) (s : State) :
    (s.latchStatus b).chip = s.chip := rfl
@[simp] theorem State.latchStatus_bus (b : Byte) (s : State) :
    (s.latchStatus b).bus = s.bus := rfl
@[simp] theorem State.latchStatus_trace (b : Byte) (s : State) :
    (s.latchStatus b).trace = s.trace := rfl
@[simp] theorem txnOut_latchStatus (b : Byte) (s : State) (t : Txn) :
    txnOut (s.latchStatus b) t = txnOut s t := by
  cases t <;> rfl
@[simp] theorem txnHead_latchStatus (b : Byte) (s : State) (t : Txn) :
    txnHead (s.latchStatus b) t = txnHead s t := by
  cases t <;> rfl
@[simp] theorem txnClose_latchStatus (b : Byte) (s : State) (t : Txn) :
    txnClose (s.latchStatus b) t = txnClose s t := by
  cases t <;> rfl

@[simp] theorem State.latchData_params (b : Byte) (s : State) :
    (s.latchData b).params = s.params := rfl
@[simp] theorem State.latchData_csn (b : Byte) (s : State) :
    (s.latchData b).csn = s.csn := rfl
@[simp] theorem State.latchData_ce (b : Byte) (s : State) :
    (s.latchData b).ce = s.ce := rfl
@[simp] theorem State.latchData_busy (b : Byte) (s : State) :
    (s.latchData b).busy = s.busy := rfl
@[simp] theorem State.latchData_seq (b : Byte) (s : State) :
    (s.latchData b).seq = s.seq := rfl
@[simp] theorem State.latchData_idx (b : Byte) (s : State) :
    (s.latchData b).idx = s.idx + 1 := rfl
@[simp] theorem State.latchData_ops (b : Byte) (s : State) :
    (s.latchData b).ops = s.ops := rfl
@[simp] theorem State.latchData_st (b : Byte) (s : State) :
    (s.latchData b).st = s.st := rfl
@[simp] theorem State.latchData_inBytes (b : Byte) (s : State) :
    (s.latchData b).inBytes = latchIn s.inBytes s.idx b := rfl
@[simp] theorem State.latchData_sReg (b : Byte) (s : State) :
    (s.latchData b).sReg = s.sReg := rfl
@[simp] theorem State.latchData_resp (b : Byte) (s : State) :
    (s.latchData b).resp = s.resp := rfl
@[simp] theorem State.latchData_presence (b : Byte) (s : State) :
    (s.latchData b).presence = s.presence := rfl
@[simp] theorem State.latchData_hostSeq (b : Byte) (s : State) :
    (s.latchData b).hostSeq = s.hostSeq := rfl
@[simp] theorem State.latchData_inbox (b : Byte) (s : State) :
    (s.latchData b).inbox = s.inbox := rfl
@[simp] theorem State.latchData_freeCount (b : Byte) (s : State) :
    (s.latchData b).freeCount = s.freeCount := rfl
@[simp] theorem State.latchData_env (b : Byte) (s : State) :
    (s.latchData b).env = s.env := rfl
@[simp] theorem State.latchData_chip (b : Byte) (s : State) :
    (s.latchData b).chip = s.chip := rfl
@[simp] theorem State.latchData_bus (b : Byte) (s : State) :
    (s.latchData b).bus = s.bus := rfl
@[simp] theorem State.latchData_trace (b : Byte) (s : State) :
    (s.latchData b).trace = s.trace := rfl
@[simp] theorem txnOut_latchData (b : Byte) (s : State) (t : Txn) :
    txnOut (s.latchData b) t = txnOut s t := by
  cases t <;> rfl
@[simp] theorem txnHead_latchData (b : Byte) (s : State) (t : Txn) :
    txnHead (s.latchData b) t = txnHead s t := by
  cases t <;> rfl
@[simp] theorem txnClose_latchData (b : Byte) (s : State) (t : Txn) :
    txnClose (s.latchData b) t = txnClose s t := by
  cases t <;> rfl

@[simp] theorem State.latchS_params (s : State) :
    (s.latchS).params = s.params := rfl
@[simp] theorem State.latchS_csn (s : State) :
    (s.latchS).csn = s.csn := rfl
@[simp] theorem State.latchS_ce (s : State) :
    (s.latchS).ce = s.ce := rfl
@[simp] theorem State.latchS_busy (s : State) :
    (s.latchS).busy = s.busy := rfl
@[simp] theorem State.latchS_seq (s : State) :
    (s.latchS).seq = s.seq := rfl
@[simp] theorem State.latchS_idx (s : State) :
    (s.latchS).idx = s.idx := rfl
@[simp] theorem State.latchS_ops (s : State) :
    (s.latchS).ops = s.ops := rfl
@[simp] theorem State.latchS_st (s : State) :
    (s.latchS).st = s.st := rfl
@[simp] theorem State.latchS_inBytes (s : State) :
    (s.latchS).inBytes = s.inBytes := rfl
@[simp] theorem State.latchS_sReg (s : State) :
    (s.latchS).sReg = s.inBytes.getD 0 0x00#8 := rfl
@[simp] theorem State.latchS_resp (s : State) :
    (s.latchS).resp = s.resp := rfl
@[simp] theorem State.latchS_presence (s : State) :
    (s.latchS).presence = s.presence := rfl
@[simp] theorem State.latchS_hostSeq (s : State) :
    (s.latchS).hostSeq = s.hostSeq := rfl
@[simp] theorem State.latchS_inbox (s : State) :
    (s.latchS).inbox = s.inbox := rfl
@[simp] theorem State.latchS_freeCount (s : State) :
    (s.latchS).freeCount = s.freeCount := rfl
@[simp] theorem State.latchS_env (s : State) :
    (s.latchS).env = s.env := rfl
@[simp] theorem State.latchS_chip (s : State) :
    (s.latchS).chip = s.chip := rfl
@[simp] theorem State.latchS_bus (s : State) :
    (s.latchS).bus = s.bus := rfl
@[simp] theorem State.latchS_trace (s : State) :
    (s.latchS).trace = s.trace := rfl
@[simp] theorem txnHead_latchS (s : State) (t : Txn) :
    txnHead (s.latchS) t = txnHead s t := by
  cases t <;> rfl
@[simp] theorem txnClose_latchS (s : State) (t : Txn) :
    txnClose (s.latchS) t = txnClose s t := by
  cases t <;> rfl

@[simp] theorem State.irqSample_params (s : State) :
    (s.irqSample).params = s.params := rfl
@[simp] theorem State.irqSample_csn (s : State) :
    (s.irqSample).csn = s.csn := rfl
@[simp] theorem State.irqSample_ce (s : State) :
    (s.irqSample).ce = s.ce := rfl
@[simp] theorem State.irqSample_busy (s : State) :
    (s.irqSample).busy = s.busy := rfl
@[simp] theorem State.irqSample_seq (s : State) :
    (s.irqSample).seq = s.seq := rfl
@[simp] theorem State.irqSample_idx (s : State) :
    (s.irqSample).idx = s.idx := rfl
@[simp] theorem State.irqSample_ops (s : State) :
    (s.irqSample).ops = s.ops := rfl
@[simp] theorem State.irqSample_st (s : State) :
    (s.irqSample).st = s.st := rfl
@[simp] theorem State.irqSample_inBytes (s : State) :
    (s.irqSample).inBytes = s.inBytes := rfl
@[simp] theorem State.irqSample_sReg (s : State) :
    (s.irqSample).sReg = s.sReg := rfl
@[simp] theorem State.irqSample_resp (s : State) :
    (s.irqSample).resp = s.resp := rfl
@[simp] theorem State.irqSample_presence (s : State) :
    (s.irqSample).presence = s.presence := rfl
@[simp] theorem State.irqSample_hostSeq (s : State) :
    (s.irqSample).hostSeq = s.hostSeq := rfl
@[simp] theorem State.irqSample_inbox (s : State) :
    (s.irqSample).inbox = s.inbox := rfl
@[simp] theorem State.irqSample_freeCount (s : State) :
    (s.irqSample).freeCount = s.freeCount := rfl
@[simp] theorem State.irqSample_env (s : State) :
    (s.irqSample).env = { s.env with samples := s.env.samples.tail } := rfl
@[simp] theorem State.irqSample_chip (s : State) :
    (s.irqSample).chip = s.chip.moved s.env.sample.chip := rfl
@[simp] theorem State.irqSample_bus (s : State) :
    (s.irqSample).bus = s.bus := rfl
@[simp] theorem State.irqSample_trace (s : State) :
    (s.irqSample).trace = s.trace ++ [.irq s.env.sample.level] := rfl
@[simp] theorem txnOut_irqSample (s : State) (t : Txn) :
    txnOut (s.irqSample) t = txnOut s t := by
  cases t <;> rfl
@[simp] theorem txnHead_irqSample (s : State) (t : Txn) :
    txnHead (s.irqSample) t = txnHead s t := by
  cases t <;> rfl
@[simp] theorem txnClose_irqSample (s : State) (t : Txn) :
    txnClose (s.irqSample) t = txnClose s t := by
  cases t <;> rfl

@[simp] theorem State.accept_params (o : Operands) (s : State) :
    (s.accept o).params = s.params := rfl
@[simp] theorem State.accept_csn (o : Operands) (s : State) :
    (s.accept o).csn = s.csn := rfl
@[simp] theorem State.accept_ce (o : Operands) (s : State) :
    (s.accept o).ce = s.ce := rfl
@[simp] theorem State.accept_busy (o : Operands) (s : State) :
    (s.accept o).busy = true := rfl
@[simp] theorem State.accept_seq (o : Operands) (s : State) :
    (s.accept o).seq = firstPhase o.opsel := rfl
@[simp] theorem State.accept_idx (o : Operands) (s : State) :
    (s.accept o).idx = s.idx := rfl
@[simp] theorem State.accept_ops (o : Operands) (s : State) :
    (s.accept o).ops = o := rfl
@[simp] theorem State.accept_st (o : Operands) (s : State) :
    (s.accept o).st = s.st := rfl
@[simp] theorem State.accept_inBytes (o : Operands) (s : State) :
    (s.accept o).inBytes = s.inBytes := rfl
@[simp] theorem State.accept_sReg (o : Operands) (s : State) :
    (s.accept o).sReg = s.sReg := rfl
@[simp] theorem State.accept_resp (o : Operands) (s : State) :
    (s.accept o).resp = s.resp := rfl
@[simp] theorem State.accept_presence (o : Operands) (s : State) :
    (s.accept o).presence = s.presence := rfl
@[simp] theorem State.accept_hostSeq (o : Operands) (s : State) :
    (s.accept o).hostSeq = s.hostSeq := rfl
@[simp] theorem State.accept_inbox (o : Operands) (s : State) :
    (s.accept o).inbox = s.inbox := rfl
@[simp] theorem State.accept_freeCount (o : Operands) (s : State) :
    (s.accept o).freeCount = s.freeCount := rfl
@[simp] theorem State.accept_env (o : Operands) (s : State) :
    (s.accept o).env = s.env := rfl
@[simp] theorem State.accept_chip (o : Operands) (s : State) :
    (s.accept o).chip = s.chip := rfl
@[simp] theorem State.accept_bus (o : Operands) (s : State) :
    (s.accept o).bus = s.bus := rfl
@[simp] theorem State.accept_trace (o : Operands) (s : State) :
    (s.accept o).trace = s.trace := rfl

@[simp] theorem State.finish_params (r : Response) (s : State) :
    (s.finish r).params = s.params := rfl
@[simp] theorem State.finish_csn (r : Response) (s : State) :
    (s.finish r).csn = s.csn := rfl
@[simp] theorem State.finish_ce (r : Response) (s : State) :
    (s.finish r).ce = s.ce := rfl
@[simp] theorem State.finish_busy (r : Response) (s : State) :
    (s.finish r).busy = false := rfl
@[simp] theorem State.finish_seq (r : Response) (s : State) :
    (s.finish r).seq = .idle := rfl
@[simp] theorem State.finish_idx (r : Response) (s : State) :
    (s.finish r).idx = s.idx := rfl
@[simp] theorem State.finish_ops (r : Response) (s : State) :
    (s.finish r).ops = s.ops := rfl
@[simp] theorem State.finish_st (r : Response) (s : State) :
    (s.finish r).st = s.st := rfl
@[simp] theorem State.finish_inBytes (r : Response) (s : State) :
    (s.finish r).inBytes = s.inBytes := rfl
@[simp] theorem State.finish_sReg (r : Response) (s : State) :
    (s.finish r).sReg = s.sReg := rfl
@[simp] theorem State.finish_resp (r : Response) (s : State) :
    (s.finish r).resp = some r := rfl
@[simp] theorem State.finish_presence (r : Response) (s : State) :
    (s.finish r).presence = s.presence := rfl
@[simp] theorem State.finish_hostSeq (r : Response) (s : State) :
    (s.finish r).hostSeq = s.hostSeq := rfl
@[simp] theorem State.finish_inbox (r : Response) (s : State) :
    (s.finish r).inbox = s.inbox := rfl
@[simp] theorem State.finish_freeCount (r : Response) (s : State) :
    (s.finish r).freeCount = s.freeCount := rfl
@[simp] theorem State.finish_env (r : Response) (s : State) :
    (s.finish r).env = s.env := rfl
@[simp] theorem State.finish_chip (r : Response) (s : State) :
    (s.finish r).chip = s.chip := rfl
@[simp] theorem State.finish_bus (r : Response) (s : State) :
    (s.finish r).bus = s.bus := rfl
@[simp] theorem State.finish_trace (r : Response) (s : State) :
    (s.finish r).trace = s.trace ++ [.ret r] := rfl
@[simp] theorem txnOut_finish (r : Response) (s : State) (t : Txn) :
    txnOut (s.finish r) t = txnOut s t := by
  cases t <;> rfl
@[simp] theorem txnHead_finish (r : Response) (s : State) (t : Txn) :
    txnHead (s.finish r) t = txnHead s t := by
  cases t <;> rfl
@[simp] theorem txnClose_finish (r : Response) (s : State) (t : Txn) :
    txnClose (s.finish r) t = txnClose s t := by
  cases t <;> rfl

end Sys2Proof.Machine
end

