-- ==== Sys2Proof/Laws/Sequencer.lean ====
section
/-! SUPPORT. The run of an operation: every micro-step brings the machine nearer to rest, so `settle` runs until it
rests, and `settle` can be taken one micro-step at a time. -/

namespace Sys2Proof.Machine

theorem dataOrRel_eq (s : State) (t : Txn) (i : Nat) :
    dataOrRel s t i = .frame t .data ∨ dataOrRel s t i = .frame t .rel := by
  unfold dataOrRel
  split
  · exact .inl rfl
  · exact .inr rfl

/-- What a micro-step of the framer leaves alone. -/
theorem frameTick_keeps (t : Txn) (f : FramePhase) (s : State) :
    (frameTick t f s).params = s.params ∧ (frameTick t f s).ops = s.ops
      ∧ (frameTick t f s).busy = s.busy ∧ (frameTick t f s).hostSeq = s.hostSeq
      ∧ (frameTick t f s).ce = s.ce ∧ (frameTick t f s).inbox = s.inbox
      ∧ (frameTick t f s).resp = s.resp ∧ (frameTick t f s).presence = s.presence
      ∧ (frameTick t f s).env.samples = s.env.samples ∧ (frameTick t f s).env.line = s.env.line := by
  cases f with
  | sel => simp [frameTick, frameSel]
  | head =>
    unfold frameTick frameHead
    dsimp only
    split <;> simp
  | data =>
    unfold frameTick frameData
    dsimp only
    split
    · simp
    · split <;> simp
  | rel => cases t <;> simp [frameTick, frameRel, takeResult]

/-- Where a micro-step of the framer goes, and that it brings the transaction nearer to its end, if the block is not
waiting for an exchange. -/
theorem frameTick_seq (t : Txn) (f : FramePhase) (s : State) (hs : s.seq = .frame t f)
    (hw : waitsForReply s = false) :
    (f = .rel ∧ (frameTick t f s).seq = afterFrame t)
      ∨ ∃ f', (frameTick t f s).seq = .frame t f'
          ∧ frameCost (txnOut s t).length (frameTick t f s).idx f'
              < frameCost (txnOut s t).length s.idx f := by
  cases f with
  | sel => exact .inr ⟨.head, by simp [frameTick, frameSel], by simp [frameCost]⟩
  | head =>
    cases he : s.env.replies with
    | nil => simp [waitsForReply, hs, he] at hw
    | cons r rest =>
      right
      obtain h | h := dataOrRel_eq s t 0
      · exact ⟨.data, by simp [frameTick, frameHead, he, h], by simp [frameTick, frameHead, he, frameCost]⟩
      · exact ⟨.rel, by simp [frameTick, frameHead, he, h], by simp [frameCost]⟩
  | data =>
    right
    cases ho : (txnOut s t)[s.idx]? with
    | none => exact ⟨.rel, by simp [frameTick, frameData, ho], by simp [frameCost]⟩
    | some o =>
      have hlt : s.idx < (txnOut s t).length := by
        obtain ⟨h, _⟩ := List.getElem?_eq_some_iff.mp ho
        exact h
      cases he : s.env.replies with
      | nil => simp [waitsForReply, hs, he, ho] at hw
      | cons r rest =>
        obtain h | h := dataOrRel_eq s t (s.idx + 1)
        · exact ⟨.data, by simp [frameTick, frameData, ho, he, h],
            by simp [frameTick, frameData, ho, he, frameCost]; omega⟩
        · exact ⟨.rel, by simp [frameTick, frameData, ho, he, h], by simp [frameCost]⟩
  | rel => exact .inl ⟨rfl, by simp [frameTick, frameRel]⟩

theorem hostStepCost_op (p : Params) (o : Operands) :
    hostStepCost p (.op o) = (opOut p o).length + 18 + classCost p := rfl

/-- Acceptance starts an operation that costs less than its host step. -/
theorem accept_cost (o : Operands) (rest : List HostStep) (s : State) (n : Nat)
    (hd : o.opsel = .txpkt → o.data.length ≤ (opOut s.params o).length)
    (hn : (opOut s.params o).length + 18 + classCost s.params ≤ n
      ∨ ((o.opsel = .wreg) ∧ 7 ≤ n)) :
    phaseCost ({ s with hostSeq := rest }.accept o) < n := by
  cases ho : o.opsel <;> simp [phaseCost, firstPhase, ho, frameCost, tailCost, txnOut] at hd hn ⊢ <;>
    first
    | omega
    | (simp [opOut, ho] at hn ⊢; omega)

theorem cost_busy (s : State) (hb : s.busy = true) :
    cost s = phaseCost s + (s.hostSeq.map (hostStepCost s.params)).sum + s.env.samples.length := by
  simp [cost, hb]

theorem cost_idle (s : State) (hb : s.busy = false) :
    cost s = (s.hostSeq.map (hostStepCost s.params)).sum + s.env.samples.length := by
  simp [cost, hb]

theorem host_cost_decreases (s : State) (hb : s.busy = false) (hr : atRest s = false) :
    cost (hostTick s) < cost s := by
  unfold hostTick
  split
  · rename_i h
    simp [atRest, hb, h] at hr
  · rename_i o rest h
    have key := accept_cost o rest s (hostStepCost s.params (.op o))
      (fun h' => by simp [opOut, h']) (.inl (Nat.le_refl _))
    rw [hostStepCost_op] at key
    rw [cost_busy _ rfl, cost_idle s hb, h]
    simp only [State.accept_hostSeq, State.accept_env, State.accept_params, List.map_cons,
      List.sum_cons, hostStepCost_op]
    omega
  · rename_i a keep set rest h
    split
    · rename_i c _
      have key := accept_cost (opWreg a ((c &&& keep) ||| set)) rest s 7
        (fun h' => by simp [opWreg] at h') (.inr ⟨rfl, Nat.le_refl _⟩)
      rw [cost_busy _ rfl, cost_idle s hb, h]
      simp only [State.accept_hostSeq, State.accept_env, State.accept_params, List.map_cons,
        List.sum_cons, hostStepCost]
      omega
    · simp [cost, hb, h, hostStepCost]
  · rename_i pat rest h
    simp [cost, hb, h, hostStepCost]

/-- The steps left in a framer transaction and after it. -/
theorem phaseCost_frame (s : State) (t : Txn) (f : FramePhase) (hs : s.seq = .frame t f) :
    phaseCost s = frameCost (txnOut s t).length s.idx f + tailCost s.params t := by
  simp [phaseCost, hs]

theorem txnOut_congr (s s' : State) (t : Txn) (hp : s'.params = s.params) (ho : s'.ops = s.ops) :
    (txnOut s' t).length = (txnOut s t).length := by
  cases t <;> simp [txnOut, hp, ho]

theorem block_cost_decreases (s : State) (hb : s.busy = true) (hr : atRest s = false) :
    cost (blockTick s) < cost s := by
  simp only [atRest, hb, ↓reduceIte, Bool.or_eq_false_iff] at hr
  obtain ⟨⟨hi, hw⟩, hp⟩ := hr
  unfold blockTick
  split
  · rename_i h
    simp [h] at hi
  · rename_i t f h
    obtain ⟨k1, k2, k3, k4, -, -, -, -, k5, -⟩ := frameTick_keeps t f s
    have hc : phaseCost (frameTick t f s) < phaseCost s := by
      obtain ⟨hf, hn⟩ | ⟨f', hn, hlt⟩ := frameTick_seq t f s h hw
      · rw [phaseCost_frame s t f h]
        subst hf
        cases t <;>
          simp [phaseCost, hn, afterFrame, frameCost, tailCost, k1, txnOut, classCost]
      · rw [phaseCost_frame s t f h, phaseCost_frame _ t f' hn, k1, txnOut_congr s _ t k1 k2]
        omega
    simp only [cost, k1, k3, k4, k5, hb, ↓reduceIte]
    omega
  · rename_i h
    simp [cost, ceSet, phaseCost, h, hb]
  · rename_i h
    simp [cost, transmitArm, phaseCost, h, hb]
  · rename_i h
    simp only [pollsForEver, h, beq_self_eq_true, Bool.true_and, Bool.and_eq_false_iff] at hp
    unfold transmitPoll
    cases hsm : s.env.samples with
    | nil =>
      have hl : s.env.line = .low := by
        cases hl : s.env.line with
        | low => rfl
        | high => simp [hsm, hl] at hp
      simp [cost, phaseCost, h, hb, Env.sample, hsm, hl]
    | cons x xs =>
      cases hx : x.level <;> simp [cost, phaseCost, h, hb, Env.sample, hsm, hx]
      omega
  · rename_i h
    simp [cost, transmitSettle, phaseCost, h, hb, frameCost, tailCost, txnOut]
    omega
  · rename_i h
    cases hf : flushNeeded s.sReg <;>
      simp [cost, transmitClass, phaseCost, h, hb, frameCost, tailCost, txnOut, classCost, hf]
  · rename_i h
    simp [cost, transmitRet, phaseCost, h, hb]
  · rename_i h
    simp [cost, opRet, phaseCost, h, hb]

theorem micro_cost_decreases (s : State) (hr : atRest s = false) : cost (micro s) < cost s := by
  unfold micro
  split
  · exact block_cost_decreases s ‹_› hr
  · exact host_cost_decreases s (by simpa using ‹¬ s.busy = true›) hr

theorem run_of_atRest (k : Nat) (s : State) (hr : atRest s = true) : run k s = s := by
  cases k <;> simp [run, hr]

/-- Any two amounts of fuel that cover the cost run to the same state. -/
theorem run_fuel (k m : Nat) (s : State) (hk : cost s ≤ k) (hm : cost s ≤ m) : run k s = run m s := by
  induction k generalizing m s with
  | zero =>
    cases hr : atRest s with
    | true => rw [run_of_atRest _ _ hr, run_of_atRest _ _ hr]
    | false =>
      have := micro_cost_decreases s hr
      omega
  | succ k ih =>
    cases hr : atRest s with
    | true => rw [run_of_atRest _ _ hr, run_of_atRest _ _ hr]
    | false =>
      have hlt := micro_cost_decreases s hr
      obtain ⟨m, rfl⟩ : ∃ m', m = m' + 1 := ⟨m - 1, by omega⟩
      simp only [run, hr, Bool.false_eq_true, ↓reduceIte]
      exact ih m (micro s) (by omega) (by omega)

/-- `settle` stays where the machine rests. -/
theorem settle_of_atRest (s : State) (hr : atRest s = true) : settle s = s := run_of_atRest _ _ hr

/-- `settle` takes one micro-step and settles, where the machine does not rest. -/
theorem settle_step (s : State) (hr : atRest s = false) : settle s = settle (micro s) := by
  have hlt := micro_cost_decreases s hr
  obtain ⟨c, hc⟩ : ∃ c, cost s = c + 1 := ⟨cost s - 1, by omega⟩
  unfold settle
  rw [hc]
  simp only [run, hr, Bool.false_eq_true, ↓reduceIte]
  exact run_fuel c _ _ (by omega) (Nat.le_refl _)

/-- `settle` ends where the machine rests. -/
theorem atRest_settle (s : State) : atRest (settle s) = true := by
  have h : ∀ n s, cost s ≤ n → atRest (settle s) = true := by
    intro n
    induction n with
    | zero =>
      intro s h
      cases hr : atRest s with
      | true => rw [settle_of_atRest s hr, hr]
      | false =>
        have := micro_cost_decreases s hr
        omega
    | succ n ih =>
      intro s h
      cases hr : atRest s with
      | true => rw [settle_of_atRest s hr, hr]
      | false =>
        have := micro_cost_decreases s hr
        rw [settle_step s hr]
        exact ih _ (by omega)
  exact h _ s (Nat.le_refl _)

/-- What every micro-step keeps, `settle` keeps. -/
theorem settle_induction (P : State → Prop) (hm : ∀ s, P s → P (micro s)) (s : State) (h : P s) :
    P (settle s) := by
  have hk : ∀ k s, P s → P (run k s) := by
    intro k
    induction k with
    | zero => exact fun s h => h
    | succ k ih =>
      intro s h
      unfold run
      split
      · exact h
      · exact ih _ (hm s h)
  exact hk _ s h

/-- One block step, while the block is busy and does not rest. -/
theorem settle_block (s : State) (hb : s.busy = true) (hr : atRest s = false) :
    settle s = settle (blockTick s) := by
  rw [settle_step s hr, micro, if_pos hb]

/-- One host step, while the block is idle and the host has one. -/
theorem settle_host (s : State) (hb : s.busy = false) (hh : s.hostSeq ≠ []) :
    settle s = settle (hostTick s) := by
  have hr : atRest s = false := by
    cases h : s.hostSeq with
    | nil => exact absurd h hh
    | cons _ _ => simp [atRest, hb, h]
  rw [settle_step s hr, micro, if_neg (by simp [hb])]

end Sys2Proof.Machine
end

