-- ==== Sys2Proof/Laws/Frame.lean ====
section
/-! SUPPORT. What one whole bracket does (40_command_framer.md rule R80): `settle_bracket` says once everything that a
transaction with all its answers does to the state; `settle_bracket_short` says where it waits when answers
are missing. -/

namespace Sys2Proof.Machine

/-- The bytes of a transaction depend on the parameters, the operand latches and `S` alone. -/
theorem txnOut_eq (s s' : State) (t : Txn) (hp : s'.params = s.params) (ho : s'.ops = s.ops)
    (hS : s'.sReg = s.sReg) : txnOut s' t = txnOut s t := by
  cases t <;> simp [txnOut, hp, ho, hS]

/-- The bus and the chip after a run of data exchanges. -/
def busChip (p : Params) : Option BusTxn → Chip → List Byte → List Reply → Option BusTxn × Chip
  | b, c, o :: out, r :: rs => busChip p (busTake o b) (chipTake p o b (c.moved r.chip)) out rs
  | b, c, _, _ => (b, c)

theorem busChip_none (p : Params) (c : Chip) (out : List Byte) (rs : List Reply)
    (h : rs.length = out.length) : busChip p none c out rs = (none, c.movedAll rs) := by
  induction out generalizing c rs with
  | nil =>
    cases rs with
    | nil => rfl
    | cons _ _ => simp at h
  | cons o out ih =>
    cases rs with
    | nil => simp at h
    | cons r rs => simpa [busChip, busTake, chipTake, Chip.movedAll] using ih (c.moved r.chip) rs (by simpa using h)

theorem busChip_some (p : Params) (h : Byte) (d : List Byte) (c : Chip) (out : List Byte)
    (rs : List Reply) (hl : rs.length = out.length) :
    busChip p (some { cmd := some h, data := d }) c out rs
      = (some { cmd := some h, data := d ++ out }, Chip.takeAll p h d.length out rs c) := by
  induction out generalizing d c rs with
  | nil =>
    cases rs with
    | nil => simp [busChip, Chip.takeAll]
    | cons _ _ => simp at hl
  | cons o out ih =>
    cases rs with
    | nil => simp at hl
    | cons r rs =>
      have := ih (d ++ [o]) (Chip.takeData p h d.length o (c.moved r.chip)) rs (by simpa using hl)
      simpa [busChip, busTake, chipTake, Chip.takeAll] using this

/-- The data phase of a bracket, from a byte that remains to be sent to the closing phase. -/
theorem settle_data (t : Txn) (out : List Byte) (rs rest : List Reply) (s : State)
    (hb : s.busy = true) (hq : s.seq = .frame t .data)
    (ho : (txnOut s t).drop s.idx = out) (hne : out ≠ []) (hl : rs.length = out.length)
    (he : s.env.replies = rs ++ rest) :
    settle s = settle { s with
      seq := .frame t .rel
      idx := s.idx + rs.length
      inBytes := s.inBytes.take s.idx ++ received rs
      env := { s.env with replies := rest }
      bus := (busChip s.params s.bus s.chip out rs).1
      chip := (busChip s.params s.bus s.chip out rs).2
      trace := s.trace ++ dataEvents out rs } := by
  induction out generalizing s rs with
  | nil => exact absurd rfl hne
  | cons o out ih =>
    cases rs with
    | nil => simp at hl
    | cons r rs =>
      have hget : (txnOut s t)[s.idx]? = some o := by
        have := congrArg (·[0]?) ho
        simpa using this
      have hdrop : (txnOut s t).drop (s.idx + 1) = out := by
        have := congrArg (List.drop 1) ho
        simpa [List.drop_drop, Nat.add_comm] using this
      have hlen : (txnOut s t).length = s.idx + 1 + out.length := by
        have := congrArg List.length ho
        simp at this
        omega
      have hr : atRest s = false := by
        simp [atRest, hb, hq, waitsForReply, pollsForEver, he]
      have htick : blockTick s
          = ((s.xchg o r (rs ++ rest)).latchData r.rx).goto (dataOrRel s t (s.idx + 1)) := by
        simp [blockTick, hq, frameTick, frameData, hget, he]
      rw [settle_block s hb hr, htick]
      cases hout : out with
      | nil =>
        have hrs : rs = [] := by
          simpa [hout] using hl
        subst hrs
        have hd : dataOrRel s t (s.idx + 1) = .frame t .rel := by
          simp [dataOrRel, hlen, hout]
        simp [hd, State.xchg, State.latchData, State.goto, busChip, latchIn, received, dataEvents]
      | cons o' out' =>
        have hd : dataOrRel s t (s.idx + 1) = .frame t .data := by
          simp [dataOrRel, hlen, hout]
        rw [ih rs (((s.xchg o r (rs ++ rest)).latchData r.rx).goto (dataOrRel s t (s.idx + 1)))
          hb hd (by simpa using hdrop) (by simp [hout]) (by simpa using hl) rfl]
        have htake : (latchIn s.inBytes s.idx r.rx).take (s.idx + 1) ++ received rs
            = s.inBytes.take s.idx ++ received (r :: rs) := by
          unfold latchIn received
          rw [List.take_of_length_le (by simp)]
          simp
        rw [← hout]
        simp [State.xchg, State.latchData, State.goto, busChip, dataEvents, htake, Nat.add_comm,
          Nat.add_left_comm]

/-- The state after a whole bracket with all its answers (R80). -/
def bracketEnd (t : Txn) (r0 : Reply) (rs rest : List Reply) (s : State) : State :=
  { s with
    csn := txnClose s t
    seq := afterFrame t
    idx := rs.length
    st := r0.rx
    inBytes := latched s.inBytes rs
    sReg := if t = .rdst then (latched s.inBytes rs).getD 0 0x00#8 else s.sReg
    env := { s.env with replies := rest }
    chip := bracketChip s.params s.csn (txnClose s t) (txnHead s t) (txnOut s t) r0 rs s.chip
    bus := none
    trace := s.trace ++ frameEvents (txnHead s t) (txnOut s t) (txnClose s t) r0 rs }

theorem chipSelect_low (p : Params) (old : Level) (bus : Option BusTxn) (c : Chip) :
    chipSelect p old .low bus c = c := by
  cases old <;> rfl

theorem busSelect_from_low (v : Level) : busSelect .low v = none := by
  cases v <;> rfl

/-- A transaction with all its answers runs through its bracket and goes back to the caller. -/
theorem settle_bracket (t : Txn) (r0 : Reply) (rs rest : List Reply) (s : State)
    (hb : s.busy = true) (hq : s.seq = .frame t .sel)
    (he : s.env.replies = r0 :: (rs ++ rest)) (hl : rs.length = (txnOut s t).length) :
    settle s = settle (bracketEnd t r0 rs rest s) := by
  have hr : atRest s = false := by simp [atRest, hb, hq, waitsForReply, pollsForEver]
  rw [settle_block s hb hr]
  have h1 : blockTick s = (s.driveCsn .low).goto (.frame t .head) := by
    simp [blockTick, hq, frameTick, frameSel]
  rw [h1]
  have hr1 : atRest ((s.driveCsn .low).goto (.frame t .head)) = false := by
    simp [atRest, hb, waitsForReply, pollsForEver, he]
  rw [settle_block _ (by simp [hb]) hr1]
  have h2 : blockTick ((s.driveCsn .low).goto (.frame t .head))
      = { s with
          csn := .low
          st := r0.rx
          idx := 0
          seq := dataOrRel s t 0
          env := { s.env with replies := rs ++ rest }
          bus := busTake (txnHead s t) (busSelect s.csn .low)
          chip := s.chip.moved r0.chip
          trace := s.trace ++ [.csn .low, .x (txnHead s t) r0.rx] } := by
    have ht : ((s.driveCsn .low).goto (.frame t .head)).trace = s.trace ++ [.csn .low] := rfl
    cases hc : s.csn <;>
      simp [blockTick, frameTick, frameHead, he, dataOrRel, busSelect] <;>
      simp [State.goto, State.latchStatus, State.xchg, State.driveCsn, busSelect, chipSelect, chipTake, hc]
  rw [h2]
  clear h1 h2 hr hr1
  -- the data phase, if there is one
  have h3 : settle { s with
          csn := .low
          st := r0.rx
          idx := 0
          seq := dataOrRel s t 0
          env := { s.env with replies := rs ++ rest }
          bus := busTake (txnHead s t) (busSelect s.csn .low)
          chip := s.chip.moved r0.chip
          trace := s.trace ++ [.csn .low, .x (txnHead s t) r0.rx] }
      = settle { s with
          csn := .low
          st := r0.rx
          idx := rs.length
          seq := .frame t .rel
          inBytes := latched s.inBytes rs
          env := { s.env with replies := rest }
          bus := (busChip s.params (busTake (txnHead s t) (busSelect s.csn .low))
            (s.chip.moved r0.chip) (txnOut s t) rs).1
          chip := (busChip s.params (busTake (txnHead s t) (busSelect s.csn .low))
            (s.chip.moved r0.chip) (txnOut s t) rs).2
          trace := s.trace ++ [.csn .low, .x (txnHead s t) r0.rx] ++ dataEvents (txnOut s t) rs } := by
    cases hout : txnOut s t with
    | nil =>
      have hrs : rs = [] := by simpa [hout] using hl
      subst hrs
      simp [dataOrRel, hout, busChip, latched, dataEvents]
    | cons o out =>
      have hd : dataOrRel s t 0 = .frame t .data := by simp [dataOrRel, hout]
      rw [settle_data t (o :: out) rs rest { s with
          csn := .low
          st := r0.rx
          idx := 0
          seq := dataOrRel s t 0
          env := { s.env with replies := rs ++ rest }
          bus := busTake (txnHead s t) (busSelect s.csn .low)
          chip := s.chip.moved r0.chip
          trace := s.trace ++ [.csn .low, .x (txnHead s t) r0.rx] } hb hd
        ((txnOut_eq s _ t rfl rfl rfl).trans hout) (by simp) (by simpa [hout] using hl) rfl]
      have hlat : latched s.inBytes rs = received rs := by
        cases rs with
        | nil => simp [hout] at hl
        | cons _ _ => rfl
      simp [hlat]
  rw [h3]
  clear h3
  rw [settle_block _ (by exact hb) (by simp [atRest, hb, waitsForReply, pollsForEver])]
  congr 1
  have hbc : ∀ close, chipSelect s.params .low close
        (busChip s.params (busTake (txnHead s t) (busSelect s.csn .low)) (s.chip.moved r0.chip)
          (txnOut s t) rs).1
        (busChip s.params (busTake (txnHead s t) (busSelect s.csn .low)) (s.chip.moved r0.chip)
          (txnOut s t) rs).2
      = bracketChip s.params s.csn close (txnHead s t) (txnOut s t) r0 rs s.chip := by
    intro close
    cases hc : s.csn with
    | low =>
      simp only [busSelect, busTake, busChip_none s.params _ _ _ hl]
      cases close <;> rfl
    | high =>
      simp only [busSelect, busTake, busChip_some s.params _ _ _ _ _ hl]
      cases close <;> rfl
  have hclose : ∀ s' : State, s'.params = s.params → s'.ops = s.ops → txnClose s' t = txnClose s t := by
    intro s' hp ho
    cases t <;> simp [txnClose, hp, ho]
  have hrel : ∀ s' : State, s'.params = s.params → s'.ops = s.ops → s'.seq = .frame t .rel →
      blockTick s' = (takeResult t (s'.driveCsn (txnClose s t))).goto (afterFrame t) := by
    intro s' hp ho hseq
    simp [blockTick, hseq, frameTick, frameRel, hclose s' hp ho]
  refine Eq.trans (hrel _ ?_ ?_ ?_) ?_
  · rfl
  · rfl
  · rfl
  clear hrel hclose
  unfold bracketEnd
  generalize txnClose s t = close at hbc ⊢
  have hb := hbc close
  clear hbc
  cases t <;>
    simp [takeResult, State.driveCsn, State.goto, State.latchS, busSelect_from_low, hb, frameEvents]

/-- The data phase of a bracket whose answers run out: it takes the answers there are and waits in `F_DATA`. -/
theorem settle_data_short (t : Txn) (out : List Byte) (rs : List Reply) (s : State)
    (hb : s.busy = true) (hq : s.seq = .frame t .data)
    (ho : (txnOut s t).drop s.idx = out) (hl : rs.length < out.length) (he : s.env.replies = rs) :
    settle s = { s with
      idx := s.idx + rs.length
      inBytes := if rs = [] then s.inBytes else s.inBytes.take s.idx ++ received rs
      env := { s.env with replies := [] }
      bus := (busChip s.params s.bus s.chip out rs).1
      chip := (busChip s.params s.bus s.chip out rs).2
      trace := s.trace ++ dataEvents out rs } := by
  induction rs generalizing s out with
  | nil =>
    have hget : (txnOut s t)[s.idx]?.isSome = true := by
      have := congrArg List.length ho
      simp only [List.length_drop] at this
      simp only [List.length_nil] at hl
      rw [List.getElem?_eq_getElem (by omega)]
      rfl
    rw [settle_of_atRest s (by simp [atRest, hb, hq, waitsForReply, he, hget])]
    have henv : { s.env with replies := [] } = s.env := by rw [← he]
    rw [henv]
    cases out <;> simp [busChip, dataEvents]
  | cons r rs ih =>
    cases out with
    | nil => simp at hl
    | cons o out =>
      have hget : (txnOut s t)[s.idx]? = some o := by
        have := congrArg (·[0]?) ho
        simpa using this
      have hdrop : (txnOut s t).drop (s.idx + 1) = out := by
        have := congrArg (List.drop 1) ho
        simpa [List.drop_drop, Nat.add_comm] using this
      have hlen : (txnOut s t).length = s.idx + 1 + out.length := by
        have := congrArg List.length ho
        simp at this
        omega
      have hr : atRest s = false := by simp [atRest, hb, hq, waitsForReply, pollsForEver, he]
      have htick : blockTick s
          = ((s.xchg o r rs).latchData r.rx).goto (dataOrRel s t (s.idx + 1)) := by
        simp [blockTick, hq, frameTick, frameData, hget, he]
      have hd : dataOrRel s t (s.idx + 1) = .frame t .data := by
        simp only [List.length_cons] at hl
        simp only [dataOrRel, hlen]
        rw [if_pos (by omega)]
      rw [settle_block s hb hr, htick,
        ih out (((s.xchg o r rs).latchData r.rx).goto (dataOrRel s t (s.idx + 1)))
          hb hd (by simpa using hdrop) (by simpa using hl) rfl]
      have htake : (latchIn s.inBytes s.idx r.rx).take (s.idx + 1) ++ received rs
          = s.inBytes.take s.idx ++ received (r :: rs) := by
        unfold latchIn received
        rw [List.take_of_length_le (by simp)]
        simp
      have hin : (if rs = [] then latchIn s.inBytes s.idx r.rx
            else (latchIn s.inBytes s.idx r.rx).take (s.idx + 1) ++ received rs)
          = s.inBytes.take s.idx ++ received (r :: rs) := by
        split
        · rename_i h
          subst h
          rfl
        · exact htake
      simp [State.xchg, State.latchData, State.goto, busChip, dataEvents, hin, hd, hq, Nat.add_comm,
        Nat.add_left_comm]

/-- The state in which a bracket with too few answers waits (R30, R177): chip-select low, the answers used up, the
exchanges that completed emitted, and nothing else changed. -/
def bracketWaits (t : Txn) (s : State) : State :=
  match s.env.replies with
  | [] =>
    { s with
      csn := .low
      seq := .frame t .head
      bus := busSelect s.csn .low
      trace := s.trace ++ [.csn .low] }
  | r0 :: rs =>
    { s with
      csn := .low
      seq := .frame t .data
      idx := rs.length
      st := r0.rx
      inBytes := latched s.inBytes rs
      env := { s.env with replies := [] }
      bus := (busChip s.params (busTake (txnHead s t) (busSelect s.csn .low)) (s.chip.moved r0.chip)
        (txnOut s t) rs).1
      chip := (busChip s.params (busTake (txnHead s t) (busSelect s.csn .low)) (s.chip.moved r0.chip)
        (txnOut s t) rs).2
      trace := s.trace ++ [.csn .low] ++ dataEvents (txnHead s t :: txnOut s t) (r0 :: rs) }

/-- A transaction whose answers run out waits inside its bracket. -/
theorem settle_bracket_short (t : Txn) (s : State) (hb : s.busy = true) (hq : s.seq = .frame t .sel)
    (hl : s.env.replies.length ≤ (txnOut s t).length) : settle s = bracketWaits t s := by
  have hr : atRest s = false := by simp [atRest, hb, hq, waitsForReply, pollsForEver]
  have h1 : blockTick s = (s.driveCsn .low).goto (.frame t .head) := by
    simp [blockTick, hq, frameTick, frameSel]
  rw [settle_block s hb hr, h1]
  unfold bracketWaits
  cases he : s.env.replies with
  | nil =>
    rw [settle_of_atRest _ (by simp [atRest, hb, waitsForReply, he])]
    simp [State.goto, State.driveCsn, chipSelect_low]
  | cons r0 rs =>
    simp only [he, List.length_cons] at hl
    have hd : dataOrRel s t 0 = .frame t .data := by
      unfold dataOrRel
      rw [if_pos (by omega)]
    have h2 : blockTick ((s.driveCsn .low).goto (.frame t .head))
        = { s with
            csn := .low
            st := r0.rx
            idx := 0
            seq := .frame t .data
            env := { s.env with replies := rs }
            bus := busTake (txnHead s t) (busSelect s.csn .low)
            chip := s.chip.moved r0.chip
            trace := s.trace ++ [.csn .low, .x (txnHead s t) r0.rx] } := by
      have hd' : dataOrRel ((s.driveCsn .low).goto (.frame t .head)) t 0 = .frame t .data := by
        unfold dataOrRel
        rw [if_pos (by simp; omega)]
      cases hc : s.csn <;>
        simp [blockTick, frameTick, frameHead, he, hd'] <;>
        simp [State.goto, State.latchStatus, State.xchg, State.driveCsn, busSelect, chipSelect, chipTake, hc]
    rw [settle_block _ (by simp [hb]) (by simp [atRest, hb, waitsForReply, pollsForEver, he]), h2,
      settle_data_short t (txnOut s t) rs { s with
            csn := .low
            st := r0.rx
            idx := 0
            seq := .frame t .data
            env := { s.env with replies := rs }
            bus := busTake (txnHead s t) (busSelect s.csn .low)
            chip := s.chip.moved r0.chip
            trace := s.trace ++ [.csn .low, .x (txnHead s t) r0.rx] } hb rfl
        (txnOut_eq s _ t rfl rfl rfl) (by omega) rfl]
    cases rs <;> simp [latched, dataEvents]

end Sys2Proof.Machine
end

