-- ==== Sys2Proof/Laws/Memory.lean ====
section
/-! SUPPORT. The laws of the chip's register memory: a byte written is read back, every other byte is as before, and
the canonical form is kept. -/

namespace Sys2Proof.Machine

theorem Memory.read_erase_same (d : Nat → Byte) (m : Memory) (k : Nat) :
    Memory.read d (Memory.erase m k) k = d k := by
  induction m with
  | nil => rfl
  | cons c m ih =>
    by_cases h : c.1 = k
    · simpa [Memory.erase, h] using ih
    · simpa [Memory.erase, Memory.read, h] using ih

theorem Memory.read_erase_other (d : Nat → Byte) (m : Memory) (k j : Nat) (hj : j ≠ k) :
    Memory.read d (Memory.erase m k) j = Memory.read d m j := by
  induction m with
  | nil => rfl
  | cons c m ih =>
    unfold Memory.erase at ih ⊢
    by_cases h : c.1 = k
    · simp [Memory.read, h, hj.symm, ih]
    · simp [Memory.read, h, ih]

theorem Memory.read_insert_same (d : Nat → Byte) (m : Memory) (k : Nat) (b : Byte)
    (h : ∀ c ∈ m, c.1 ≠ k) : Memory.read d (Memory.insert m k b) k = b := by
  induction m with
  | nil => simp [Memory.insert, Memory.read]
  | cons c m ih =>
    unfold Memory.insert
    split
    · simp [Memory.read]
    · simpa [Memory.read, h c (by simp)] using ih fun e he => h e (by simp [he])

theorem Memory.read_insert_other (d : Nat → Byte) (m : Memory) (k j : Nat) (b : Byte) (h : j ≠ k) :
    Memory.read d (Memory.insert m k b) j = Memory.read d m j := by
  induction m with
  | nil => simp [Memory.insert, Memory.read, h.symm]
  | cons c m ih =>
    unfold Memory.insert
    split
    · simp [Memory.read, h.symm]
    · simp [Memory.read, ih]

theorem Memory.read_write_same (d : Nat → Byte) (m : Memory) (k : Nat) (b : Byte) :
    Memory.read d (Memory.write d m k b) k = b := by
  unfold Memory.write
  split
  · rename_i e
    rw [Memory.read_erase_same, e]
  · exact Memory.read_insert_same d _ k b (by simp [Memory.erase])

theorem Memory.read_write_other (d : Nat → Byte) (m : Memory) (k j : Nat) (b : Byte) (h : j ≠ k) :
    Memory.read d (Memory.write d m k b) j = Memory.read d m j := by
  unfold Memory.write
  split
  · exact Memory.read_erase_other d m k j h
  · rw [Memory.read_insert_other d _ k j b h, Memory.read_erase_other d m k j h]

/-- The canonical form, as a statement about all entries. -/
theorem Memory.wf_cons (d : Nat → Byte) (c : Host.Cell) (m : Memory) :
    Memory.wf d (c :: m) = true
      ↔ c.2 ≠ d c.1 ∧ (∀ e ∈ m, c.1 < e.1) ∧ Memory.wf d m = true := by
  induction m generalizing c with
  | nil => simp [Memory.wf]
  | cons e m ih =>
    have he := ih e
    simp only [Memory.wf, Bool.and_eq_true, bne_iff_ne, decide_eq_true_eq, List.forall_mem_cons]
    constructor
    · rintro ⟨⟨h1, h2⟩, h3⟩
      exact ⟨h1, ⟨h2, fun x hx => lt_trans h2 ((he.mp h3).2.1 x hx)⟩, h3⟩
    · rintro ⟨h1, ⟨h2, -⟩, h3⟩
      exact ⟨⟨h1, h2⟩, h3⟩

theorem Memory.erase_wf (d : Nat → Byte) (m : Memory) (k : Nat) (h : Memory.wf d m = true) :
    Memory.wf d (Memory.erase m k) = true := by
  induction m with
  | nil => rfl
  | cons c m ih =>
    obtain ⟨h1, h2, h3⟩ := (Memory.wf_cons d c m).mp h
    have hm := ih h3
    unfold Memory.erase at hm ⊢
    by_cases hc : c.1 = k
    · simpa [hc] using hm
    · simp only [List.filter_cons, bne_iff_ne, ne_eq, hc, not_false_eq_true, ↓reduceIte]
      exact (Memory.wf_cons d c _).mpr ⟨h1, fun e he => h2 e (List.mem_filter.mp he).1, hm⟩

theorem Memory.mem_insert (m : Memory) (k : Nat) (b : Byte) (e : Host.Cell)
    (h : e ∈ Memory.insert m k b) : e = (k, b) ∨ e ∈ m := by
  induction m with
  | nil => simpa [Memory.insert] using h
  | cons c m ih =>
    unfold Memory.insert at h
    split at h
    · simpa using h
    · rcases List.mem_cons.mp h with h | h
      · exact .inr (by simp [h])
      · rcases ih h with h | h
        · exact .inl h
        · exact .inr (by simp [h])

theorem Memory.insert_wf (d : Nat → Byte) (m : Memory) (k : Nat) (b : Byte) (hb : b ≠ d k)
    (hk : ∀ c ∈ m, c.1 ≠ k) (h : Memory.wf d m = true) : Memory.wf d (Memory.insert m k b) = true := by
  induction m with
  | nil => simpa [Memory.insert, Memory.wf] using hb
  | cons c m ih =>
    obtain ⟨h1, h2, h3⟩ := (Memory.wf_cons d c m).mp h
    have hc := hk c (by simp)
    unfold Memory.insert
    split
    · rename_i hlt
      refine (Memory.wf_cons d (k, b) _).mpr ⟨hb, ?_, h⟩
      intro e he
      rcases List.mem_cons.mp he with rfl | he
      · exact hlt
      · exact lt_trans hlt (h2 e he)
    · refine (Memory.wf_cons d c _).mpr ⟨h1, ?_, ih (fun e he => hk e (by simp [he])) h3⟩
      intro e he
      rcases Memory.mem_insert m k b e he with rfl | he
      · show c.1 < k
        omega
      · exact h2 e he

/-- A write keeps the canonical form. -/
theorem Memory.write_wf (d : Nat → Byte) (m : Memory) (k : Nat) (b : Byte) (h : Memory.wf d m = true) :
    Memory.wf d (Memory.write d m k b) = true := by
  unfold Memory.write
  split
  · exact Memory.erase_wf d m k h
  · rename_i hb
    exact Memory.insert_wf d _ k b hb (by simp [Memory.erase]) (Memory.erase_wf d m k h)

/-- Two register bytes have the same place only if they are the same byte. -/
theorem Chip.key_inj (a a' : RegAddr) (j j' : Nat) (hj : j < 8) (hj' : j' < 8)
    (h : Chip.key a j = Chip.key a' j') : a = a' ∧ j = j' := by
  unfold Chip.key at h
  have : a.toNat = a'.toNat := by omega
  exact ⟨BitVec.eq_of_toNat_eq this, by omega⟩

end Sys2Proof.Machine
end

