-- ==== Sys2Proof/Laws/Chip.lean ====
section
/-! SUPPORT. What a whole bracket does to the chip, command by command (20_memory.md rule R38, 40_command_framer.md
rules R87 to R93), and what a store does to the chip's register bytes. -/

namespace Sys2Proof.Machine

@[simp] theorem Chip.moved_none (c : Chip) : c.moved none = c := rfl

theorem Chip.movedAll_quiet (c : Chip) (rs : List Reply) (h : Quiet rs) : c.movedAll rs = c := by
  induction rs generalizing c with
  | nil => rfl
  | cons r rs ih =>
    have hr : r.chip = none := h r (by simp)
    simpa [Chip.movedAll, hr] using ih c (fun x hx => h x (by simp [hx]))

theorem Chip.sampledAll_quiet (c : Chip) (xs : List Sample) (h : ∀ x ∈ xs, x.chip = none) :
    c.sampledAll xs = c := by
  induction xs generalizing c with
  | nil => rfl
  | cons x xs ih =>
    have hx : x.chip = none := h x (by simp)
    simpa [Chip.sampledAll, hx] using ih c (fun y hy => h y (by simp [hy]))

/-- A transaction that is no W_REGISTER stores none of its data bytes. -/
theorem Chip.takeAll_of_not_write (p : Params) (h : Byte) (hw : opBits h ≠ p.opWRegister) (j : Nat)
    (out : List Byte) (rs : List Reply) (c : Chip) (hl : rs.length = out.length) :
    Chip.takeAll p h j out rs c = c.movedAll rs := by
  induction out generalizing j c rs with
  | nil =>
    cases rs with
    | nil => rfl
    | cons _ _ => simp at hl
  | cons o out ih =>
    cases rs with
    | nil => simp at hl
    | cons r rs =>
      simpa [Chip.takeAll, Chip.takeData, hw, Chip.movedAll] using ih (j + 1) rs (c.moved r.chip) (by simpa using hl)

/-- R_REGISTER (R87): the chip makes its own moves and no others. -/
theorem bracketChip_read (p : Params) (hp : p.opcodesWf = true) (old close : Level) (a : RegAddr)
    (out : List Byte) (r0 : Reply) (rs : List Reply) (c : Chip) (hl : rs.length = out.length) :
    bracketChip p old close (p.opRRegister ||| regByte a) out r0 rs c = c.movedAll (r0 :: rs) := by
  obtain ⟨hr, hw, hne, -, -⟩ := (p.opcodesWf_iff).mp hp
  have hb := opBits_or_regByte p.opRRegister a hr
  have ht := Chip.takeAll_of_not_write p (p.opRRegister ||| regByte a) (by rw [hb]; exact hne) 0 out rs
    (c.moved r0.chip) hl
  cases old <;> cases close <;> simp [bracketChip, ht, Chip.finish, hb, Chip.movedAll]

/-- W_REGISTER (R88) from a falling edge: the data bytes are stored one by one. -/
theorem bracketChip_write (p : Params) (hp : p.opcodesWf = true) (close : Level) (a : RegAddr)
    (out : List Byte) (r0 : Reply) (rs : List Reply) (c : Chip) :
    bracketChip p .high close (p.opWRegister ||| regByte a) out r0 rs c
      = Chip.takeAll p (p.opWRegister ||| regByte a) 0 out rs (c.moved r0.chip) := by
  obtain ⟨-, hw, -, -, -⟩ := (p.opcodesWf_iff).mp hp
  have hb := opBits_or_regByte p.opWRegister a hw
  cases close <;> simp [bracketChip, Chip.finish, hb]

/-- W_REGISTER with one data byte. -/
theorem bracketChip_write_one (p : Params) (hp : p.opcodesWf = true) (close : Level) (a : RegAddr)
    (v : Byte) (r0 r1 : Reply) (c : Chip) :
    bracketChip p .high close (p.opWRegister ||| regByte a) [v] r0 [r1] c
      = Chip.store p a 0 v ((c.moved r0.chip).moved r1.chip) := by
  obtain ⟨-, hw, -, -, -⟩ := (p.opcodesWf_iff).mp hp
  rw [bracketChip_write p hp]
  simp [Chip.takeAll, Chip.takeData, opBits_or_regByte p.opWRegister a hw,
    addrOf_or_regByte p.opWRegister a hw]

/-- A fixed command from a falling edge that closes high (R89 to R93): the chip's own moves, and then the command's
effect on the queues. -/
theorem bracketChip_command (p : Params) (hp : p.opcodesWf = true) (h : Byte) (hh : h ∈ p.fixedCommands)
    (out : List Byte) (r0 : Reply) (rs : List Reply) (c : Chip) (hl : rs.length = out.length) :
    bracketChip p .high .high h out r0 rs c
      = (if h = p.opWTxPayload then
          { c.movedAll (r0 :: rs) with txFifo := (c.movedAll (r0 :: rs)).txFifo ++ [out] }
        else if h = p.opFlushTx then { c.movedAll (r0 :: rs) with txFifo := [] }
        else if h = p.opFlushRx then { c.movedAll (r0 :: rs) with rxFifo := [] }
        else c.movedAll (r0 :: rs)) := by
  obtain ⟨-, -, -, -, hc⟩ := (p.opcodesWf_iff).mp hp
  obtain ⟨h1, h2⟩ := hc h hh
  simp only [bracketChip, Chip.takeAll_of_not_write p h h2 0 out rs _ hl, Chip.finish, h1, h2, or_self,
    ↓reduceIte]
  rfl

/-- A store changes no queue, no trigger and no retransmission counter. -/
theorem Chip.store_frame (p : Params) (a : RegAddr) (j : Nat) (v : Byte) (c : Chip) :
    (Chip.store p a j v c).txFifo = c.txFifo ∧ (Chip.store p a j v c).rxFifo = c.rxFifo
      ∧ (Chip.store p a j v c).txStarted = c.txStarted
      ∧ (Chip.store p a j v c).retransmits = c.retransmits := by
  unfold Chip.store
  split
  · split <;> simp
  · simp

/-- A store to STATUS (R38 (b)). -/
theorem Chip.store_status (p : Params) (j : Nat) (v : Byte) (c : Chip)
    (he : regByteExists p p.aStatus j = true) :
    Chip.store p p.aStatus j v c = { c with status := clearLatched c.status v } := by
  simp [Chip.store, he]

/-- A store to another register leaves STATUS. -/
theorem Chip.store_keeps_status (p : Params) (a : RegAddr) (j : Nat) (v : Byte) (c : Chip)
    (ha : a ≠ p.aStatus) : (Chip.store p a j v c).status = c.status := by
  unfold Chip.store
  cases regByteExists p a j with
  | false => rfl
  | true =>
    simp only [ha, ↓reduceIte]

/-- A store clears the counter if it is one to RF_CH, and leaves it if it is none (R208, log entry 26). -/
theorem Chip.store_counter (p : Params) (a : RegAddr) (j : Nat) (v : Byte) (c : Chip)
    (hr : p.aRfCh ≠ p.aStatus) :
    (Chip.store p a j v c).counter
      = if a = p.aRfCh ∧ regByteExists p a j = true then 0 else c.counter := by
  unfold Chip.store
  cases he : regByteExists p a j with
  | false => simp
  | true =>
    by_cases hs : a = p.aStatus
    · simp [hs, Ne.symm hr]
    · simp [hs]

/-- A store to another register than CONFIG leaves the runtime state (log entry 33). -/
theorem Chip.store_keeps_mode (p : Params) (a : RegAddr) (j : Nat) (v : Byte) (c : Chip)
    (ha : a ≠ p.aConfig) : (Chip.store p a j v c).mode = c.mode := by
  unfold Chip.store
  split
  · split <;> simp [ha]
  · rfl

/-- A store to CONFIG moves the runtime state as its power-up bit says (R22, R182). -/
theorem Chip.store_config_mode (p : Params) (v : Byte) (c : Chip) (ha : p.aConfig ≠ p.aStatus)
    (he : regByteExists p p.aConfig 0 = true) :
    (Chip.store p p.aConfig 0 v c).mode = poweredMode p v c.mode := by
  simp [Chip.store, he, ha]

/-- The register bytes depend on STATUS, the stored bytes and the TX FIFO alone. -/
theorem Chip.readByte_congr (p : Params) (c c' : Chip) (hs : c'.status = c.status) (hr : c'.regs = c.regs)
    (hf : c'.txFifo = c.txFifo) (a : RegAddr) (j : Nat) :
    Chip.readByte p c' a j = Chip.readByte p c a j := by
  simp [Chip.readByte, hs, hr, hf]

/-- Of the register bytes only FIFO status depends on the TX FIFO. -/
theorem Chip.readByte_txFifo (p : Params) (c : Chip) (q : List (List Byte)) (a : RegAddr) (j : Nat)
    (h : a ≠ p.aFifoStatus ∨ j ≠ 0) :
    Chip.readByte p { c with txFifo := q } a j = Chip.readByte p c a j := by
  have h' : ¬ (a = p.aFifoStatus ∧ j = 0) := fun e => h.elim (fun x => x e.1) (fun x => x e.2)
  simp [Chip.readByte, h']

/-- Bit 4 of FIFO status says whether the TX FIFO is empty (R69). -/
theorem fifoStatusByte_txEmpty (v : Byte) (q : List (List Byte)) :
    fifoStatusByte v q &&& 0x10#8 = if q = [] then 0x10#8 else 0x00#8 := by
  revert v
  cases q with
  | nil => simp only [fifoStatusByte, List.isEmpty_nil, ↓reduceIte]; decide
  | cons _ _ => simp only [fifoStatusByte, List.isEmpty_cons, Bool.false_eq_true, ↓reduceIte, reduceCtorEq]; decide

/-- The other bits of FIFO status are as stored. -/
theorem fifoStatusByte_rest (v : Byte) (q : List (List Byte)) :
    fifoStatusByte v q &&& 0xEF#8 = v &&& 0xEF#8 := by
  revert v
  cases q with
  | nil => simp only [fifoStatusByte, List.isEmpty_nil, ↓reduceIte]; decide
  | cons _ _ => simp only [fifoStatusByte, List.isEmpty_cons, Bool.false_eq_true, ↓reduceIte]; decide

/-- A byte stored in a register other than STATUS and FIFO status is read back. -/
theorem Chip.readByte_store_same (p : Params) (a : RegAddr) (j : Nat) (v : Byte) (c : Chip)
    (ha : a ≠ p.aStatus) (hf : a ≠ p.aFifoStatus ∨ j ≠ 0) (he : regByteExists p a j = true) :
    Chip.readByte p (Chip.store p a j v c) a j = v := by
  have hf' : ¬ (a = p.aFifoStatus ∧ j = 0) := fun e => hf.elim (fun x => x e.1) (fun x => x e.2)
  unfold Chip.readByte Chip.store storedByte
  simp only [ha, he, hf', ↓reduceIte, false_and]
  exact Memory.read_write_same _ _ _ _

/-- A write of FIFO status is read back in every bit but bit 4, which follows the TX FIFO. -/
theorem Chip.readByte_store_fifo (p : Params) (v : Byte) (c : Chip) (ha : p.aFifoStatus ≠ p.aStatus)
    (he : regByteExists p p.aFifoStatus 0 = true) :
    Chip.readByte p (Chip.store p p.aFifoStatus 0 v c) p.aFifoStatus 0 = fifoStatusByte v c.txFifo := by
  have hv : fifoStatusByte (v &&& ~~~maskTxEmpty) c.txFifo = fifoStatusByte v c.txFifo := by
    simp [fifoStatusByte, BitVec.and_assoc]
  rw [← hv]
  unfold Chip.readByte Chip.store storedByte
  simp only [ha, he, ↓reduceIte, false_and, and_self, Memory.read_write_same]

/-- A store to a register other than STATUS leaves every other byte of every register. -/
theorem Chip.readByte_store_other (p : Params) (a a' : RegAddr) (j j' : Nat) (v : Byte) (c : Chip)
    (ha : a ≠ p.aStatus) (hj : j' < 8) (h : a' ≠ a ∨ j' ≠ j ∨ regByteExists p a j = false) :
    Chip.readByte p (Chip.store p a j v c) a' j' = Chip.readByte p c a' j' := by
  cases he : regByteExists p a j with
  | false => simp [Chip.store, he]
  | true =>
    have hj5 : j < 8 := by
      have hw : regWidth p a ≤ 5 := by
        unfold regWidth
        split <;> omega
      simp only [regByteExists, Bool.and_eq_true, decide_eq_true_eq] at he
      omega
    have hk : Chip.key a' j' ≠ Chip.key a j := by
      intro e
      obtain ⟨e1, e2⟩ := Chip.key_inj a' a j' j hj hj5 e
      rcases h with h | h | h
      · exact h e1
      · exact h e2
      · exact absurd (he.symm.trans h) (by simp)
    have hs := Chip.store_keeps_status p a j v c ha
    have ht := (Chip.store_frame p a j v c).1
    have hr : Memory.read (Chip.unlisted p) (Chip.store p a j v c).regs (Chip.key a' j')
        = Memory.read (Chip.unlisted p) c.regs (Chip.key a' j') := by
      unfold Chip.store
      simp only [he, ha, ↓reduceIte]
      exact Memory.read_write_other _ _ _ _ _ hk
    simp only [Chip.readByte, hs, ht, hr]

/-- A store to STATUS leaves every other byte of every register. -/
theorem Chip.readByte_store_status (p : Params) (a' : RegAddr) (j j' : Nat) (v : Byte) (c : Chip)
    (ha : a' ≠ p.aStatus ∨ j' ≠ 0) :
    Chip.readByte p (Chip.store p p.aStatus j v c) a' j' = Chip.readByte p c a' j' := by
  have ha' : ¬ (a' = p.aStatus ∧ j' = 0) := fun e => ha.elim (fun x => x e.1) (fun x => x e.2)
  cases he : regByteExists p p.aStatus j with
  | false => simp [Chip.store, he]
  | true => simp [Chip.readByte, Chip.store, he, ha']

end Sys2Proof.Machine
end

