-- ==== Sys2Proof/Laws/Operations.lean ====
section
/-! SUPPORT. What one primitive operation of a host sequence does, taken whole: acceptance, the phases, and `RET`
(40_command_framer.md rules R80 to R85 and R97). The meanings of `exec` are lists of such operations. -/

namespace Sys2Proof.Machine

theorem State.idle_iff (s : State) : s.Idle ↔ s.busy = false ∧ s.hostSeq = [] := by
  simp [State.Idle, inProgress]

/-- A legal operation on an idle machine runs its host steps until the machine rests. -/
theorem perform_idle (i : Instr) (steps : List HostStep) (s : State) (hs : s.Idle)
    (hi : i.WellFormed s.params) :
    perform i steps s = .next (settle { s with hostSeq := steps }) := by
  obtain ⟨hb, hh⟩ := (s.idle_iff).mp hs
  have hw : i.illegal s.params = none := hi
  simp [perform, hb, hh, hw]

/-- An answer of `perform` that is a next state: the machine was idle, the operation was legal, and the state is where
the host steps come to rest. -/
theorem perform_next (i : Instr) (steps : List HostStep) (s t : State)
    (h : perform i steps s = .next t) :
    s.Idle ∧ i.WellFormed s.params ∧ t = settle { s with hostSeq := steps } := by
  unfold perform at h
  split at h
  · simp at h
  · rename_i hb
    split at h
    · simp at h
    · rename_i hw
      refine ⟨?_, hw, ?_⟩
      · simpa [State.Idle, inProgress] using hb
      · simpa using h.symm

/-- The response of a framer operation, from its status byte and the bytes it received (R63). -/
def framerResponse (o : Operands) (st : Byte) (bytes : List Byte) : Response :=
  match o.opsel with
  | .wreg | .wbuf => .status st
  | .rreg => .value (bytes.getD 0 0x00#8)
  | .rbuf => .buffer st (bytes.take o.count)
  | .txpkt | .setce => .empty

/-- A framer operation with all its answers: accepted, one bracket, `RET`, and on to the host's next step. -/
theorem settle_framer (o : Operands) (r0 : Reply) (rs rest : List Reply) (l : List HostStep) (s : State)
    (hb : s.busy = false) (hh : s.hostSeq = .op o :: l) (hf : firstPhase o.opsel = .frame .op .sel)
    (he : s.env.replies = r0 :: (rs ++ rest)) (hl : rs.length = (opOut s.params o).length) :
    settle s
      = settle { framerEnd o (opHead s.params o) (opOut s.params o) (opClose s.params o)
          (framerResponse o r0.rx (latched s.inBytes rs)) r0 rs rest s with hostSeq := l } := by
  rw [settle_host s hb (by simp [hh])]
  have h1 : hostTick s = { s with hostSeq := l, ops := o, busy := true, seq := .frame .op .sel } := by
    simp [hostTick, hh, State.accept, hf]
  rw [h1, settle_bracket .op r0 rs rest
    { s with hostSeq := l, ops := o, busy := true, seq := .frame .op .sel } rfl rfl he hl]
  rw [settle_block _ rfl (by simp [atRest, bracketEnd, afterFrame, waitsForReply, pollsForEver])]
  congr 1
  simp only [blockTick, bracketEnd, afterFrame, opRet, State.finish, framerEnd, txnHead, txnOut, txnClose]
  cases ho : o.opsel <;> simp_all [firstPhase, opResponse, framerResponse]

@[simp] theorem bracketWaits_busy (t : Txn) (s : State) : (bracketWaits t s).busy = s.busy := by
  unfold bracketWaits
  split <;> rfl

/-- A list that is long enough, split for one transaction with `n` data bytes. -/
theorem split_replies (rs : List Reply) (n : Nat) (h : n < rs.length) :
    ∃ r0 ds rest, rs = r0 :: (ds ++ rest) ∧ ds.length = n := by
  cases rs with
  | nil => simp at h
  | cons r0 rs =>
    simp only [List.length_cons] at h
    exact ⟨r0, rs.take n, rs.drop n, by simp, by simp; omega⟩

/-- If the host gets past a framer operation, all its exchanges were answered. -/
theorem settle_framer_returns (o : Operands) (l : List HostStep) (s : State) (hb : s.busy = false)
    (hh : s.hostSeq = .op o :: l) (hf : firstPhase o.opsel = .frame .op .sel)
    (hr : (settle s).busy = false) :
    ∃ r0 rs rest, s.env.replies = r0 :: (rs ++ rest) ∧ rs.length = (opOut s.params o).length := by
  by_cases hl : s.env.replies.length ≤ (opOut s.params o).length
  · have h1 : hostTick s = { s with hostSeq := l, ops := o, busy := true, seq := .frame .op .sel } := by
      simp [hostTick, hh, State.accept, hf]
    rw [settle_host s hb (by simp [hh]), h1, settle_bracket_short .op _ (by rfl) (by rfl) (by exact hl)] at hr
    simp at hr
  · exact split_replies _ _ (by omega)

/-- A framer operation among the host's steps whose answers run out waits inside its bracket (R149, R177). -/
theorem settle_framer_short (o : Operands) (l : List HostStep) (s : State) (hb : s.busy = false)
    (hh : s.hostSeq = .op o :: l) (hf : firstPhase o.opsel = .frame .op .sel)
    (hl : s.env.replies.length ≤ (opOut s.params o).length) :
    settle s = bracketWaits .op { s with ops := o, busy := true, seq := .frame .op .sel, hostSeq := l } := by
  have h1 : hostTick s = { s with ops := o, busy := true, seq := .frame .op .sel, hostSeq := l } := by
    simp [hostTick, hh, State.accept, hf]
  rw [settle_host s hb (by simp [hh]), h1, settle_bracket_short .op _ (by rfl) (by rfl) (by exact hl)]

/-- WREG among the host's steps (R81). -/
theorem settle_wreg (a : RegAddr) (v : Byte) (r0 r1 : Reply) (rest : List Reply) (l : List HostStep)
    (s : State) (hb : s.busy = false) (hh : s.hostSeq = .op (opWreg a v) :: l)
    (he : s.env.replies = r0 :: r1 :: rest) :
    settle s = settle { framerEnd (opWreg a v) (s.params.opWRegister ||| regByte a) [v] .high
      (.status r0.rx) r0 [r1] rest s with hostSeq := l } := by
  have h := settle_framer (opWreg a v) r0 [r1] rest l s hb hh rfl (by simpa using he)
    (by simp [opOut, opWreg])
  simpa [opHead, opWreg, opOut, opClose, writeHead, addrOf_regByte, framerResponse] using h

/-- RREG among the host's steps (R82). -/
theorem settle_rreg (a : RegAddr) (r0 r1 : Reply) (rest : List Reply) (l : List HostStep) (s : State)
    (hb : s.busy = false) (hh : s.hostSeq = .op (opRreg a) :: l)
    (he : s.env.replies = r0 :: r1 :: rest) :
    settle s = settle { framerEnd (opRreg a) (s.params.opRRegister ||| regByte a) [s.params.dummy] .high
      (.value r1.rx) r0 [r1] rest s with hostSeq := l } := by
  have h := settle_framer (opRreg a) r0 [r1] rest l s hb hh rfl (by simpa using he)
    (by simp [opOut, opRreg])
  simpa [opHead, opRreg, opOut, opClose, readHead, addrOf_regByte, framerResponse, latched, received] using h

/-- WBUF in register form among the host's steps (R84). -/
theorem settle_wbuf (a : RegAddr) (data : List Byte) (r0 : Reply) (rs rest : List Reply)
    (l : List HostStep) (s : State) (hb : s.busy = false)
    (hh : s.hostSeq = .op (opWbuf .reg (regByte a) data) :: l)
    (he : s.env.replies = r0 :: (rs ++ rest)) (hl : rs.length = data.length) :
    settle s = settle { framerEnd (opWbuf .reg (regByte a) data) (s.params.opWRegister ||| regByte a) data
      .high (.status r0.rx) r0 rs rest s with hostSeq := l } := by
  have h := settle_framer (opWbuf .reg (regByte a) data) r0 rs rest l s hb hh rfl he
    (by simp [opOut, opWbuf, hl])
  simpa [opHead, opWbuf, opOut, opClose, writeHead, addrOf_regByte, framerResponse] using h

/-- RBUF in register form among the host's steps (R83). -/
theorem settle_rbuf (a : RegAddr) (n : Nat) (r0 : Reply) (rs rest : List Reply) (l : List HostStep)
    (s : State) (hb : s.busy = false) (hh : s.hostSeq = .op (opRbuf .reg (regByte a) n) :: l)
    (he : s.env.replies = r0 :: (rs ++ rest)) (hl : rs.length = n) :
    settle s = settle { framerEnd (opRbuf .reg (regByte a) n) (s.params.opRRegister ||| regByte a)
      (List.replicate n s.params.dummy) (rbufClose s.params) (.buffer r0.rx (received rs)) r0 rs rest s
      with hostSeq := l } := by
  have h := settle_framer (opRbuf .reg (regByte a) n) r0 rs rest l s hb hh rfl he
    (by simp [opOut, opRbuf, hl])
  have hrx : (latched s.inBytes rs).take n = received rs := by
    subst hl
    cases rs <;> simp [latched, received]
  simpa [opHead, opRbuf, opOut, opClose, readHead, addrOf_regByte, framerResponse, hrx] using h

/-- SETCE: accepted, one write of the line, `RET`, and on to the host's next step. -/
theorem settle_setce (lv : Level) (l : List HostStep) (s : State) (hb : s.busy = false)
    (hh : s.hostSeq = .op (opSetce lv) :: l) :
    settle s
      = settle { s with
          ce := lv
          seq := .idle
          ops := opSetce lv
          resp := some .empty
          chip := chipEnable s.ce lv s.chip
          trace := s.trace ++ [.ce lv, .ret .empty]
          hostSeq := l } := by
  rw [settle_host s hb (by simp [hh])]
  have h1 : hostTick s = { s with hostSeq := l, ops := opSetce lv, busy := true, seq := .cSet } := by
    simp [hostTick, hh, State.accept, firstPhase, opSetce]
  rw [h1, settle_block _ rfl (by simp [atRest, waitsForReply, pollsForEver]),
    settle_block _ rfl (by simp [blockTick, ceSet, State.goto, State.driveCe, atRest, waitsForReply, pollsForEver])]
  cases lv <;>
    simp [blockTick, ceSet, State.goto, State.driveCe, opRet, State.finish, opResponse, opSetce, levelByte,
      levelOf, hb]

/-- The end of the host's sequence. -/
theorem settle_nil (s : State) (hb : s.busy = false) (hh : s.hostSeq = []) : settle s = s :=
  settle_of_atRest s (by simp [atRest, hb, hh])

/-- An operation of the command port that is one framer operation, with all its answers. -/
theorem perform_framer (i : Instr) (o : Operands) (r0 : Reply) (rs rest : List Reply) (s : State)
    (hs : s.Idle) (hi : i.WellFormed s.params) (hf : firstPhase o.opsel = .frame .op .sel)
    (he : s.env.replies = r0 :: (rs ++ rest)) (hl : rs.length = (opOut s.params o).length) :
    perform i [.op o] s
      = .next (framerEnd o (opHead s.params o) (opOut s.params o) (opClose s.params o)
          (framerResponse o r0.rx (latched s.inBytes rs)) r0 rs rest s) := by
  obtain ⟨hb, hh⟩ := s.idle_iff.mp hs
  rw [perform_idle i _ s hs hi, settle_framer o r0 rs rest [] _ (by exact hb) rfl hf (by exact he) (by exact hl),
    settle_nil _ (by exact hb) rfl]
  simp [framerEnd, hh]

/-- An operation of the command port that is one framer operation, with too few answers: accepted, and waiting inside
its bracket (R30, R177). -/
theorem perform_framer_short (i : Instr) (o : Operands) (s : State) (hs : s.Idle)
    (hi : i.WellFormed s.params) (hf : firstPhase o.opsel = .frame .op .sel)
    (hl : s.env.replies.length ≤ (opOut s.params o).length) :
    perform i [.op o] s
      = .next (bracketWaits .op { s with ops := o, busy := true, seq := .frame .op .sel, hostSeq := [] }) := by
  obtain ⟨hb, hh⟩ := s.idle_iff.mp hs
  rw [perform_idle i _ s hs hi, settle_host _ (by exact hb) (by simp)]
  have h1 : hostTick { s with hostSeq := [.op o] }
      = { s with ops := o, busy := true, seq := .frame .op .sel, hostSeq := [] } := by
    simp [hostTick, State.accept, hf]
  rw [h1, settle_bracket_short .op _ (by rfl) (by rfl) (by exact hl)]

/-- The second half of a read-modify-write, with the value just read (R145 to R147). -/
theorem settle_writeBack (a : RegAddr) (keep set c : Byte) (l : List HostStep) (s : State)
    (hb : s.busy = false) (hh : s.hostSeq = .writeBack a keep set :: l) (hr : s.resp = some (.value c)) :
    settle s = settle { s with hostSeq := .op (opWreg a ((c &&& keep) ||| set)) :: l } := by
  rw [settle_host s hb (by simp [hh]), settle_host { s with hostSeq := .op _ :: l } (by exact hb) (by simp)]
  simp [hostTick, hh, hr]

/-- PRESENT's comparison (R142). -/
theorem settle_compare (pattern : List Byte) (l : List HostStep) (s : State) (hb : s.busy = false)
    (hh : s.hostSeq = .compare pattern :: l) :
    settle s = settle { s with hostSeq := l, presence := some (matchesPattern s.resp pattern) } := by
  rw [settle_host s hb (by simp [hh])]
  simp [hostTick, hh]

end Sys2Proof.Machine
end

