-- ==== Sys2Proof/Laws/PerInstr.lean ====
section
/-! SUPPORT. Statements about every operation as syntax, one lemma a constructor. Family `EncodedForm`: what an operation
encodes to matches its row of spec/opcode_table.json under the row's mask, for the default parameters; a row
of space pseudo has no bits (30_encoding.md rules R53, R62, R68). -/

namespace Sys2Proof.Laws.EncodedForm

/-- A wire transaction whose command byte matches a row. -/
def WireRow (mask pat : Byte) (r : Request) : Prop :=
  ∃ h data, r = .wire h data ∧ h &&& mask = pat

/-- A host word that matches a row. -/
def HostRow (mask pat : BitVec 32) (r : Request) : Prop :=
  ∃ w data, r = .host w data ∧ w &&& mask = pat

/-- The row of each operation. -/
def Statement (i : Instr) : Prop :=
  match i with
  | .rRegister _ _ => WireRow 0xE0#8 0x00#8 (encode Params.default i)
  | .wRegister _ _ => WireRow 0xE0#8 0x20#8 (encode Params.default i)
  | .rRxPayload _ => WireRow 0xFF#8 0x61#8 (encode Params.default i)
  | .wTxPayload _ => WireRow 0xFF#8 0xA0#8 (encode Params.default i)
  | .flushTx => WireRow 0xFF#8 0xE1#8 (encode Params.default i)
  | .flushRx => WireRow 0xFF#8 0xE2#8 (encode Params.default i)
  | .nop => WireRow 0xFF#8 0xFF#8 (encode Params.default i)
  | .wreg _ _ => HostRow 0xFFE000FF#32 0x00000000#32 (encode Params.default i)
  | .rreg _ => HostRow 0xFFE0FFFF#32 0x20000000#32 (encode Params.default i)
  | .rbufReg _ _ => HostRow 0xFFE0FF00#32 0x40000000#32 (encode Params.default i)
  | .rbufCmd _ _ => HostRow 0xFF00FF00#32 0x50000000#32 (encode Params.default i)
  | .wbufReg _ _ => HostRow 0xFFE0FF00#32 0x60000000#32 (encode Params.default i)
  | .wbufCmd _ _ => HostRow 0xFF00FF00#32 0x70000000#32 (encode Params.default i)
  | .txpkt _ => HostRow 0xFFFFFF00#32 0x80000000#32 (encode Params.default i)
  | .setce _ => HostRow 0xFFFFFEFF#32 0xA0000000#32 (encode Params.default i)
  | .present | .enterTx _ | .setCh _ | .pwrDn | .wake | .setPwr _ | .flushTxFifo =>
    ∃ op : PseudoOp, encode Params.default i = .pseudo op ∧ op.toInstr = i

/-- A host word under a mask that keeps bits 31:24: the fields under the parts of the mask. -/
theorem hostWord_mask (o : BitVec 3) (h : BitVec 1) (a b c ma mb mc : Byte) :
    hostWord o h a b c &&& (0xFF#8 ++ ma ++ mb ++ mc : BitVec (8 + 8 + 8 + 8))
      = hostWord o h (a &&& ma) (b &&& mb) (c &&& mc) := by
  apply BitVec.eq_of_getLsbD_eq
  intro i hi
  have ones : ∀ j, j < 8 → (0xFF#8 : Byte).getLsbD j = true := by decide
  rw [BitVec.getLsbD_and]
  simp only [hostWord_getLsbD, BitVec.getLsbD_and, BitVec.getLsbD_append, Nat.sub_sub]
  split_ifs <;> first
    | rfl
    | omega
    | simp [ones (i - 24) (by omega)]

/-- A register address keeps its byte's bits 7:5 zero. -/
theorem regByte_high (a : RegAddr) : regByte a &&& 0xE0#8 = 0x00#8 := by
  simpa [opBits] using opBits_or_regByte 0x00#8 a (by decide)

/-- A host operation's word matches its row when its fields do. -/
theorem hostRow_of (o : BitVec 3) (h : BitVec 1) (a b c ma mb mc : Byte) (pa : BitVec 32)
    (data : List Byte) (ha : a &&& ma = 0x00#8) (hb : b &&& mb = 0x00#8) (hc : c &&& mc = 0x00#8)
    (hp : hostWord o h 0x00#8 0x00#8 0x00#8 = pa) :
    HostRow (0xFF#8 ++ ma ++ mb ++ mc : BitVec (8 + 8 + 8 + 8)) pa
      (.host (hostWord o h a b c) data) :=
  ⟨_, _, rfl, by rw [hostWord_mask, ha, hb, hc, hp]⟩

theorem rRegister (a : RegAddr) (n : Nat) : Statement (.rRegister a n) :=
  ⟨_, _, rfl, opBits_or_regByte _ a (by decide)⟩

theorem wRegister (a : RegAddr) (data : List Byte) : Statement (.wRegister a data) :=
  ⟨_, _, rfl, opBits_or_regByte _ a (by decide)⟩

theorem rRxPayload (n : Nat) : Statement (.rRxPayload n) := ⟨_, _, rfl, by decide⟩

theorem wTxPayload (data : List Byte) : Statement (.wTxPayload data) := ⟨_, _, rfl, by decide⟩

theorem flushTx : Statement .flushTx := ⟨_, _, rfl, by decide⟩

theorem flushRx : Statement .flushRx := ⟨_, _, rfl, by decide⟩

theorem nop : Statement .nop := ⟨_, _, rfl, by decide⟩

theorem wreg (a : RegAddr) (v : Byte) : Statement (.wreg a v) :=
  hostRow_of 0#3 0#1 _ v _ 0xE0#8 0x00#8 0xFF#8 _ _ (regByte_high a) (by simp) (by decide) (by decide)

theorem rreg (a : RegAddr) : Statement (.rreg a) :=
  hostRow_of 1#3 0#1 _ _ _ 0xE0#8 0xFF#8 0xFF#8 _ _ (regByte_high a) (by decide) (by decide) (by decide)

theorem rbufReg (a : RegAddr) (n : Nat) : Statement (.rbufReg a n) :=
  hostRow_of 2#3 0#1 _ _ _ 0xE0#8 0xFF#8 0x00#8 _ _ (regByte_high a) (by decide) (by simp) (by decide)

theorem rbufCmd (c : Byte) (n : Nat) : Statement (.rbufCmd c n) :=
  hostRow_of 2#3 1#1 c _ _ 0x00#8 0xFF#8 0x00#8 _ _ (by simp) (by decide) (by simp) (by decide)

theorem wbufReg (a : RegAddr) (data : List Byte) : Statement (.wbufReg a data) :=
  hostRow_of 3#3 0#1 _ _ _ 0xE0#8 0xFF#8 0x00#8 _ _ (regByte_high a) (by decide) (by simp) (by decide)

theorem wbufCmd (c : Byte) (data : List Byte) : Statement (.wbufCmd c data) :=
  hostRow_of 3#3 1#1 c _ _ 0x00#8 0xFF#8 0x00#8 _ _ (by simp) (by decide) (by simp) (by decide)

theorem txpkt (payload : List Byte) : Statement (.txpkt payload) :=
  hostRow_of 4#3 0#1 _ _ _ 0xFF#8 0xFF#8 0x00#8 _ _ (by decide) (by decide) (by simp) (by decide)

theorem setce (l : Level) : Statement (.setce l) := by
  cases l <;> exact ⟨_, _, rfl, by decide⟩

theorem present : Statement .present := ⟨_, rfl, rfl⟩

theorem enterTx (cfg : TxConfig) : Statement (.enterTx cfg) := ⟨_, rfl, rfl⟩

theorem setCh (ch : Nat) : Statement (.setCh ch) := ⟨_, rfl, rfl⟩

theorem pwrDn : Statement .pwrDn := ⟨_, rfl, rfl⟩

theorem wake : Statement .wake := ⟨_, rfl, rfl⟩

theorem setPwr (level : Byte) : Statement (.setPwr level) := ⟨_, rfl, rfl⟩

theorem flushTxFifo : Statement .flushTxFifo := ⟨_, rfl, rfl⟩

end Sys2Proof.Laws.EncodedForm
end

