-- ==== Sys2Proof/Laws/Sequences.lean ====
section
/-! SUPPORT. What a host sequence can do to the chip (42_host_sequences.md): a sequence that lowers chip-enable and
accesses the registers of a set, on a chip that changes nothing by itself, stores bytes into those registers
and does nothing else, whether or not it returns (`settle_confined`). -/

namespace Sys2Proof.Machine

/-- The operation lowers chip-enable, or accesses a register of the set `A`. -/
def OpIn (A : RegAddr → Prop) (o : Operands) : Prop :=
  (o.opsel = .setce ∧ o.val = 0x00#8)
    ∨ (firstPhase o.opsel = .frame .op .sel ∧ o.headsel = .reg ∧ A (addrOf o.head))

/-- The host step presents no other operation than those of `OpIn`. -/
def StepIn (A : RegAddr → Prop) : HostStep → Prop
  | .op o => OpIn A o
  | .writeBack a _ _ => A a
  | .compare _ => True

/-- The command byte is that of a register access within `A`. -/
def HeadIn (p : Params) (A : RegAddr → Prop) (c : Byte) : Prop :=
  ∃ a, A a ∧ (c = readHead p a ∨ c = writeHead p a)

/-- The open transaction has no command byte yet, or that of a register access within `A`. -/
def BusIn (p : Params) (A : RegAddr → Prop) (b : Option BusTxn) : Prop :=
  ∀ t c, b = some t → t.cmd = some c → HeadIn p A c

/-- The open transaction, if there is one, has its command byte. -/
def HasCommand (b : Option BusTxn) : Prop := ∀ t, b = some t → t.cmd ≠ none

/-- The machine is running a sequence confined to the registers of `A`, and `Q` holds of the chip. -/
structure Confined (p : Params) (A : RegAddr → Prop) (Q : Chip → Prop) (s : State) : Prop where
  params : s.params = p
  quiet : Quiet s.env.replies
  phase : s.busy = true → s.seq = .cSet ∨ s.seq = .ret ∨ ∃ f, s.seq = .frame .op f
  ops : s.busy = true → OpIn A s.ops
  framed : ∀ f, s.busy = true → s.seq = .frame .op f → firstPhase s.ops.opsel = .frame .op .sel
  lowered : s.busy = true → s.seq = .cSet → s.ops.val = 0x00#8
  steps : ∀ h ∈ s.hostSeq, StepIn A h
  bus : ∀ f, s.busy = true → s.seq = .frame .op f → f ≠ .sel → BusIn p A s.bus
  command : s.busy = true → s.seq = .frame .op .data → HasCommand s.bus
  chip : Q s.chip

theorem opIn_setce (A : RegAddr → Prop) : OpIn A (opSetce .low) := .inl ⟨rfl, rfl⟩

theorem opIn_wreg (A : RegAddr → Prop) (a : RegAddr) (v : Byte) (h : A a) : OpIn A (opWreg a v) :=
  .inr ⟨rfl, rfl, by simpa [opWreg, addrOf_regByte] using h⟩

theorem opIn_rreg (A : RegAddr → Prop) (a : RegAddr) (h : A a) : OpIn A (opRreg a) :=
  .inr ⟨rfl, rfl, by simpa [opRreg, addrOf_regByte] using h⟩

theorem opIn_wbuf (A : RegAddr → Prop) (a : RegAddr) (data : List Byte) (h : A a) :
    OpIn A (opWbuf .reg (regByte a) data) :=
  .inr ⟨rfl, rfl, by simpa [opWbuf, addrOf_regByte] using h⟩

theorem opIn_rbuf (A : RegAddr → Prop) (a : RegAddr) (n : Nat) (h : A a) :
    OpIn A (opRbuf .reg (regByte a) n) :=
  .inr ⟨rfl, rfl, by simpa [opRbuf, addrOf_regByte] using h⟩

theorem headIn_opHead (p : Params) (A : RegAddr → Prop) (o : Operands) (h : OpIn A o)
    (hf : firstPhase o.opsel = .frame .op .sel) : HeadIn p A (opHead p o) := by
  rcases h with ⟨h, -⟩ | ⟨-, hr, ha⟩
  · simp [h, firstPhase] at hf
  · unfold opHead
    rw [hr]
    cases o.opsel <;> exact ⟨_, ha, by simp⟩

theorem busIn_none (p : Params) (A : RegAddr → Prop) : BusIn p A none := fun _ _ h => by simp at h

theorem busIn_select (p : Params) (A : RegAddr → Prop) (old new : Level) : BusIn p A (busSelect old new) := by
  intro t c h hc
  cases old <;> cases new <;> simp only [busSelect, Option.some.injEq, reduceCtorEq] at h
  subst h
  simp at hc

/-- A register access ends without an effect beyond its stores. -/
theorem chipSelect_confined (p : Params) (hp : p.opcodesWf = true) (A : RegAddr → Prop) (old new : Level)
    (b : Option BusTxn) (c : Chip) (hb : BusIn p A b) : chipSelect p old new b c = c := by
  obtain ⟨hr, hw, -, -, -⟩ := (p.opcodesWf_iff).mp hp
  unfold chipSelect
  split
  · rename_i t
    unfold Chip.finish
    split
    · rfl
    · rename_i cmd hcmd
      obtain ⟨a, -, rfl | rfl⟩ := hb t cmd rfl hcmd
      · simp [readHead, opBits_or_regByte _ _ hr]
      · simp [writeHead, opBits_or_regByte _ _ hw]
  · rfl

/-- An exchange of a register access stores into that register or does nothing. -/
theorem chipTake_confined (p : Params) (hp : p.opcodesWf = true) (A : RegAddr → Prop) (Q : Chip → Prop)
    (hQ : ∀ a j v c, A a → Q c → Q (Chip.store p a j v c)) (o : Byte) (b : Option BusTxn) (c : Chip)
    (hb : BusIn p A b) (hc : Q c) : Q (chipTake p o b c) := by
  obtain ⟨hr, hw, hne, -, -⟩ := (p.opcodesWf_iff).mp hp
  unfold chipTake
  split
  · rename_i cmd d
    obtain ⟨a, ha, rfl | rfl⟩ := hb _ cmd rfl rfl
    · simpa [Chip.takeData, readHead, opBits_or_regByte _ _ hr, hne] using hc
    · simpa [Chip.takeData, writeHead, opBits_or_regByte _ _ hw, addrOf_or_regByte _ _ hw] using hQ a _ o c ha hc
  · exact hc

theorem hasCommand_take (o : Byte) (b : Option BusTxn) : HasCommand (busTake o b) := by
  intro t h
  unfold busTake at h
  split at h
  · simp at h
  all_goals
    simp only [Option.some.injEq] at h
    subst h
    simp

theorem busIn_take (p : Params) (A : RegAddr → Prop) (o : Byte) (b : Option BusTxn) (hb : BusIn p A b)
    (ho : HeadIn p A o ∨ HasCommand b) : BusIn p A (busTake o b) := by
  intro t c h hc
  unfold busTake at h
  split at h
  · simp at h
  · simp only [Option.some.injEq] at h
    subst h
    simp only [Option.some.injEq] at hc
    rcases ho with ho | ho
    · exact hc ▸ ho
    · exact absurd rfl (ho _ rfl)
  · rename_i cmd d
    simp only [Option.some.injEq] at h
    subst h
    exact hb _ c rfl hc

theorem confined_block (p : Params) (hp : p.opcodesWf = true) (A : RegAddr → Prop) (Q : Chip → Prop)
    (hQ : ∀ a j v c, A a → Q c → Q (Chip.store p a j v c)) (s : State) (hb : s.busy = true)
    (h : Confined p A Q s) : Confined p A Q (blockTick s) := by
  obtain ⟨hpar, hqu, hph, hop, hfr, hlo, hst, hbus, hcm, hch⟩ := h
  subst hpar
  rcases hph hb with hq | hq | ⟨f, hq⟩
  · have hz : s.ops.val = 0x00#8 := hlo hb hq
    have hce : chipEnable s.ce .low s.chip = s.chip := by cases s.ce <;> rfl
    have e : blockTick s = { s with ce := .low, trace := s.trace ++ [.ce .low], seq := .ret } := by
      simp [blockTick, hq, ceSet, State.driveCe, State.goto, hz, levelOf, hce]
    rw [e]
    exact ⟨rfl, hqu, fun _ => .inr (.inl rfl), hop, by simp, by simp, hst, by simp, by simp, hch⟩
  · have e : blockTick s = s.finish (opResponse s) := by simp [blockTick, hq, opRet]
    rw [e]
    exact ⟨rfl, hqu, by simp [State.finish], by simp [State.finish], by simp [State.finish],
      by simp [State.finish], hst, by simp [State.finish], by simp [State.finish], hch⟩
  · have ho := hop hb
    have hf := hfr f hb hq
    cases f with
    | sel =>
      have hsel : chipSelect s.params s.csn .low s.bus s.chip = s.chip := by
        cases s.csn <;> rfl
      have e : blockTick s = (s.driveCsn .low).goto (.frame .op .head) := by
        simp [blockTick, hq, frameTick, frameSel]
      rw [e]
      exact ⟨rfl, hqu, fun _ => .inr (.inr ⟨_, rfl⟩), hop, fun _ _ _ => hf, by simp [State.goto], hst,
        fun _ _ _ _ => busIn_select _ _ _ _, by simp [State.goto], by simpa [State.goto, State.driveCsn, hsel] using hch⟩
    | head =>
      have hbi := hbus _ hb hq (by simp)
      cases he : s.env.replies with
      | nil =>
        have e : blockTick s = s := by simp [blockTick, hq, frameTick, frameHead, he]
        rw [e]
        exact ⟨rfl, hqu, hph, hop, hfr, hlo, hst, hbus, hcm, hch⟩
      | cons r rest =>
        have hr : r.chip = none := hqu r (by simp [he])
        have e : blockTick s
            = ((s.xchg (opHead s.params s.ops) r rest).latchStatus r.rx).goto (dataOrRel s .op 0) := by
          simp [blockTick, hq, frameTick, frameHead, he, txnHead]
        rw [e]
        have hd : ∃ f, dataOrRel s .op 0 = .frame .op f := by
          unfold dataOrRel
          split <;> exact ⟨_, rfl⟩
        refine ⟨rfl, fun x hx => hqu x (by simp only [he]; exact List.mem_cons_of_mem _ hx),
          fun _ => .inr (.inr hd), hop, fun _ _ _ => hf, ?_, hst,
          fun _ _ _ _ => busIn_take _ _ _ _ hbi (.inl (headIn_opHead _ _ _ ho hf)),
          fun _ _ => hasCommand_take _ _, ?_⟩
        · intro _ hc
          obtain ⟨f, hd⟩ := hd
          simp [State.goto, hd] at hc
        · simp only [State.goto, State.latchStatus, State.xchg, hr, Chip.moved_none]
          exact chipTake_confined _ hp A Q hQ _ _ _ hbi hch
    | data =>
      have hbi := hbus _ hb hq (by simp)
      have hc' := hcm hb hq
      cases ho' : (txnOut s .op)[s.idx]? with
      | none =>
        have e : blockTick s = s.goto (.frame .op .rel) := by
          simp [blockTick, hq, frameTick, frameData, ho']
        rw [e]
        exact ⟨rfl, hqu, fun _ => .inr (.inr ⟨_, rfl⟩), hop, fun _ _ _ => hf, by simp [State.goto], hst,
          fun _ _ _ _ => hbi, by simp [State.goto], hch⟩
      | some o =>
        cases he : s.env.replies with
        | nil =>
          have e : blockTick s = s := by simp [blockTick, hq, frameTick, frameData, he, ho']
          rw [e]
          exact ⟨rfl, hqu, hph, hop, hfr, hlo, hst, hbus, hcm, hch⟩
        | cons r rest =>
          have hr : r.chip = none := hqu r (by simp [he])
          have e : blockTick s
              = ((s.xchg o r rest).latchData r.rx).goto (dataOrRel s .op (s.idx + 1)) := by
            simp [blockTick, hq, frameTick, frameData, he, ho']
          rw [e]
          have hd : ∃ f, dataOrRel s .op (s.idx + 1) = .frame .op f := by
            unfold dataOrRel
            split <;> exact ⟨_, rfl⟩
          refine ⟨rfl, fun x hx => hqu x (by simp only [he]; exact List.mem_cons_of_mem _ hx),
            fun _ => .inr (.inr hd), hop, fun _ _ _ => hf, ?_, hst,
            fun _ _ _ _ => busIn_take _ _ _ _ hbi (.inr hc'), fun _ _ => hasCommand_take _ _, ?_⟩
          · intro _ hc
            obtain ⟨f, hd⟩ := hd
            simp [State.goto, hd] at hc
          · simp only [State.goto, State.latchData, State.xchg, hr, Chip.moved_none]
            exact chipTake_confined _ hp A Q hQ _ _ _ hbi hch
    | rel =>
      have hbi := hbus _ hb hq (by simp)
      have e : blockTick s = (s.driveCsn (opClose s.params s.ops)).goto .ret := by
        simp [blockTick, hq, frameTick, frameRel, takeResult, txnClose, afterFrame]
      rw [e]
      refine ⟨rfl, hqu, fun _ => .inr (.inl rfl), hop, by simp [State.goto], by simp [State.goto], hst,
        by simp [State.goto], by simp [State.goto], ?_⟩
      simpa [State.goto, State.driveCsn, chipSelect_confined _ hp A _ _ _ _ hbi] using hch

theorem confined_accept (p : Params) (A : RegAddr → Prop) (Q : Chip → Prop) (s : State) (l : List HostStep)
    (o : Operands) (h : Confined p A Q s) (ho : OpIn A o) (hl : ∀ x ∈ l, StepIn A x) :
    Confined p A Q ({ s with hostSeq := l }.accept o) := by
  have hk : (o.opsel = .setce ∧ o.val = 0x00#8) ∨ firstPhase o.opsel = .frame .op .sel := by
    rcases ho with ho | ho
    · exact .inl ho
    · exact .inr ho.1
  refine ⟨h.params, h.quiet, fun _ => ?_, fun _ => ho, fun f _ hs => ?_, fun _ hs => ?_, hl,
    fun f _ hs hf => ?_, fun _ hs => ?_, h.chip⟩ <;> simp only [State.accept] at *
  · rcases hk with hk | hk
    · exact .inl (by simp [hk.1, firstPhase])
    · exact .inr (.inr ⟨_, hk⟩)
  all_goals
    rcases hk with hk | hk
    · first
        | exact hk.2
        | simp [hk.1, firstPhase] at hs
    · first
        | exact hk
        | (rw [hk] at hs; simp at hs; try exact absurd hs.symm hf)

theorem confined_host (p : Params) (A : RegAddr → Prop) (Q : Chip → Prop) (s : State)
    (h : Confined p A Q s) : Confined p A Q (hostTick s) := by
  have hst := h.steps
  have drop : ∀ (l : List HostStep) (pr : Option Bool), (∀ x ∈ l, StepIn A x) →
      Confined p A Q { s with hostSeq := l, presence := pr } := fun l pr hl =>
    ⟨h.params, h.quiet, h.phase, h.ops, h.framed, h.lowered, hl, h.bus, h.command, h.chip⟩
  unfold hostTick
  split
  · exact h
  · rename_i o rest he
    exact confined_accept p A Q s rest o h (hst (.op o) (by simp [he])) fun x hx => hst x (by simp [he, hx])
  · rename_i a keep set rest he
    have hl : ∀ x ∈ rest, StepIn A x := fun x hx => hst x (by simp [he, hx])
    split
    · exact confined_accept p A Q s rest _ h
        (opIn_wreg A a _ (hst (.writeBack a keep set) (by simp [he]))) hl
    · exact drop rest s.presence hl
  · rename_i pattern rest he
    exact drop rest _ fun x hx => hst x (by simp [he, hx])

/-- Whatever a store into the registers of `A` keeps of the chip, a host sequence that lowers chip-enable and accesses
those registers keeps, on a chip that changes nothing by itself, whether or not the sequence returns. -/
theorem settle_confined (A : RegAddr → Prop) (Q : Chip → Prop) (steps : List HostStep) (s : State)
    (hp : s.params.opcodesWf = true) (hi : s.Idle) (hq : Quiet s.env.replies)
    (hs : ∀ x ∈ steps, StepIn A x)
    (hQ : ∀ a j v c, A a → Q c → Q (Chip.store s.params a j v c)) (hc : Q s.chip) :
    Q (settle { s with hostSeq := steps }).chip := by
  obtain ⟨hb, -⟩ := s.idle_iff.mp hi
  have h0 : Confined s.params A Q { s with hostSeq := steps } :=
    ⟨rfl, hq, by simp [hb], by simp [hb], by simp [hb], by simp [hb], hs, by simp [hb], by simp [hb], hc⟩
  refine (settle_induction (Confined s.params A Q) (fun t h => ?_) _ h0).chip
  unfold micro
  split
  · rename_i hb
    exact confined_block _ hp A Q hQ t hb h
  · exact confined_host _ A Q t h

/-! ### The sequences of the pseudo-operations -/

theorem stepIn_present (p : Params) (A : RegAddr → Prop) (h : A p.aTxAddr) :
    ∀ x ∈ presentSteps p, StepIn A x := by
  simp [presentSteps, StepIn, opIn_wbuf, opIn_rbuf, h]

theorem stepIn_setCh (p : Params) (A : RegAddr → Prop) (ch : Nat) (h : A p.aRfCh) :
    ∀ x ∈ [setChStep p ch], StepIn A x := by
  simp [setChStep, StepIn, opIn_wreg, h]

theorem stepIn_pwrDn (p : Params) (A : RegAddr → Prop) (h : A p.aConfig) :
    ∀ x ∈ pwrDnSteps p, StepIn A x := by
  simp [pwrDnSteps, StepIn, opIn_rreg, opIn_setce, h]

theorem stepIn_wake (p : Params) (A : RegAddr → Prop) (h : A p.aConfig) : ∀ x ∈ wakeSteps p, StepIn A x := by
  simp [wakeSteps, StepIn, opIn_rreg, h]

theorem stepIn_setPwr (p : Params) (A : RegAddr → Prop) (level : Byte) (h : A p.aRfSetup) :
    ∀ x ∈ setPwrSteps p level, StepIn A x := by
  simp [setPwrSteps, StepIn, opIn_rreg, h]

theorem stepIn_enterTx (p : Params) (A : RegAddr → Prop) (cfg : TxConfig)
    (h : ∀ a ∈ [p.aSetupRetr, p.aRfSetup, p.aConfig, p.aRfCh, p.aTxAddr, p.aEnAa, p.aRxAddrP0], A a) :
    ∀ x ∈ enterTxSteps p cfg, StepIn A x := by
  simp only [List.mem_cons, List.not_mem_nil, or_false, forall_eq_or_imp, forall_eq] at h
  simp [enterTxSteps, setChStep, StepIn, opIn_wreg, opIn_setce, opIn_wbuf, h]

/-- A register write among the host's steps, on a chip that changes nothing by itself, if the sequence gets past it:
its data bytes are stored one by one, and the sequence goes on with chip-select high. -/
theorem settle_write_returns (a : RegAddr) (data : List Byte) (o : Operands)
    (ho : (∃ v, data = [v] ∧ o = opWreg a v) ∨ o = opWbuf .reg (regByte a) data) (l : List HostStep)
    (s : State) (hp : s.params.opcodesWf = true) (hb : s.busy = false) (hh : s.hostSeq = .op o :: l)
    (hc : s.csn = .high) (hq : Quiet s.env.replies) (hr : (settle s).busy = false) :
    ∃ s' rs, settle s = settle s' ∧ s'.params = s.params ∧ s'.busy = false ∧ s'.hostSeq = l
      ∧ s'.csn = .high ∧ Quiet s'.env.replies ∧ rs.length = data.length ∧ Quiet rs
      ∧ s'.chip = Chip.takeAll s.params (s.params.opWRegister ||| regByte a) 0 data rs s.chip := by
  have hf : firstPhase o.opsel = .frame .op .sel ∧ opOut s.params o = data
      ∧ opHead s.params o = s.params.opWRegister ||| regByte a ∧ opClose s.params o = .high := by
    rcases ho with ⟨v, rfl, rfl⟩ | rfl <;>
      simp [firstPhase, opOut, opHead, opClose, opWreg, opWbuf, writeHead, addrOf_regByte]
  obtain ⟨hf, hout, hhead, hclose⟩ := hf
  obtain ⟨r0, rs, rest, he, hl⟩ := settle_framer_returns o l s hb hh hf hr
  rw [he] at hq
  rw [settle_framer o r0 rs rest l s hb hh hf he hl]
  refine ⟨_, rs, rfl, rfl, hb, rfl, hclose, ?_, by rw [hl, hout], ?_, ?_⟩
  · exact fun x hx => hq x (List.mem_cons_of_mem _ (List.mem_append_right _ hx))
  · exact fun x hx => hq x (List.mem_cons_of_mem _ (List.mem_append_left _ hx))
  · simp only [framerEnd, hc, hhead, hout, bracketChip_write _ hp, hq r0 (by simp), Chip.moved_none]

end Sys2Proof.Machine
end

