-- ==== Sys2Proof/Laws/Step.lean ====
section
/-! SUPPORT. The step taken once: what it can do, and where it changes nothing. -/

namespace Sys2Proof.Machine

/-- The three ways a step answers a next state: it goes on with the operation in progress, it waits with nothing at the
command port, or it performs the request at its head. -/
theorem step_next (s t : State) (h : step s = .next t) :
    (inProgress s = true ∧ t = settle (micro s))
      ∨ (s.Idle ∧ s.inbox = [] ∧ t = s)
      ∨ ∃ r rest i, s.Idle ∧ s.inbox = r :: rest ∧ decode s.params (r.complete s.freeCount) = .ok i
          ∧ exec i { s with inbox := rest, freeCount := s.freeCount + r.missing } = .next t := by
  unfold step at h
  split at h
  · rename_i hp
    simp only [continueRun, Host.Outcome.next.injEq] at h
    exact .inl ⟨hp, h.symm⟩
  · rename_i hp
    have hi : s.Idle := by simpa using hp
    right
    unfold fetch at h
    cases hb : s.inbox with
    | nil =>
      simp only [hb, Host.Outcome.next.injEq] at h
      exact .inl ⟨hi, rfl, h.symm⟩
    | cons r rest =>
      simp only [hb] at h
      cases hd : decode s.params (r.complete s.freeCount) with
      | error e => simp [hd] at h
      | ok i =>
        simp only [hd] at h
        exact .inr ⟨r, rest, i, hi, rfl, hd, h⟩

/-- The meaning of every operation is its host steps. -/
theorem exec_eq_perform (i : Instr) (s : State) : exec i s = perform i (hostSteps s.params i) s := by
  cases i <;> rfl

/-- Every meaning is a list of host steps. -/
theorem exec_perform (i : Instr) (s : State) : ∃ steps, exec i s = perform i steps s :=
  ⟨_, exec_eq_perform i s⟩

/-- A busy machine whose exchange is not answered waits for ever: no step changes anything (R30, R177). -/
theorem step_waits (s : State) (hb : s.busy = true) (hw : waitsForReply s = true) : step s = .next s := by
  have hm : micro s = s := by
    rw [micro, if_pos hb]
    unfold waitsForReply at hw
    split at hw
    · rename_i t hq
      simp [blockTick, hq, frameTick, frameHead, List.isEmpty_iff.mp hw]
    · rename_i t hq
      simp only [Bool.and_eq_true, Option.isSome_iff_exists] at hw
      obtain ⟨he, o, ho⟩ := hw
      simp [blockTick, hq, frameTick, frameData, List.isEmpty_iff.mp he, ho]
    · simp at hw
  have hr : atRest s = true := by simp [atRest, hb, hw]
  have hp : inProgress s = true := by simp [inProgress, hb]
  rw [step, if_pos hp, continueRun, hm, settle_of_atRest s hr]

/-- What the state of a bracket whose answers have run out shows, and that it is the same for ever. -/
theorem bracketWaits_spec (t : Txn) (s : State) (hb : s.busy = true)
    (hl : s.env.replies.length ≤ (txnOut s t).length) :
    (∃ f, (bracketWaits t s).seq = .frame t f) ∧ (bracketWaits t s).busy = true
      ∧ (bracketWaits t s).csn = .low ∧ (bracketWaits t s).resp = s.resp
      ∧ (bracketWaits t s).presence = s.presence ∧ (bracketWaits t s).env.replies = []
      ∧ (bracketWaits t s).trace
          = s.trace ++ [.csn .low] ++ dataEvents (txnHead s t :: txnOut s t) s.env.replies
      ∧ step (bracketWaits t s) = .next (bracketWaits t s) := by
  cases hr : s.env.replies with
  | nil =>
    simp only [bracketWaits, hr]
    exact ⟨⟨_, rfl⟩, hb, trivial, trivial, trivial, trivial, by simp [dataEvents],
      step_waits _ hb (by simp [waitsForReply, hr])⟩
  | cons r0 rs =>
    have hlt : rs.length < (txnOut s t).length := by
      simp only [hr, List.length_cons] at hl
      omega
    simp only [bracketWaits, hr]
    refine ⟨⟨_, rfl⟩, hb, trivial, trivial, trivial, trivial, trivial, step_waits _ hb ?_⟩
    simp only [waitsForReply, List.isEmpty_nil, Bool.true_and]
    exact Option.isSome_iff_exists.mpr ⟨_, List.getElem?_eq_getElem
      (lt_of_lt_of_eq hlt (congrArg List.length (txnOut_eq s _ t rfl rfl rfl).symm))⟩

end Sys2Proof.Machine
end

