-- ==== Sys2Proof/Laws/Transmit.lean ====
section
/-! SUPPORT. What TXPKT does outside its four transactions (41_transmit_fsm.md rule R123): the load's acceptance, the poll
taken whole, and the classification. -/

namespace Sys2Proof.Machine

/-- Acceptance of TXPKT. -/
theorem settle_accept_txpkt (payload : List Byte) (l : List HostStep) (s : State) (hb : s.busy = false)
    (hh : s.hostSeq = .op (opTxpkt payload) :: l) :
    settle s
      = settle { s with hostSeq := l, ops := opTxpkt payload, busy := true, seq := .frame .load .sel } := by
  rw [settle_host s hb (by simp [hh])]
  simp [hostTick, hh, State.accept, firstPhase, opTxpkt]

/-- `T_ARM` (R113). -/
theorem settle_arm (s : State) (hb : s.busy = true) (hq : s.seq = .tArm) :
    settle s = settle { s with
      ce := .high
      seq := .tPoll
      chip := chipEnable s.ce .high s.chip
      trace := s.trace ++ [.ce .high] } := by
  rw [settle_block s hb (by simp [atRest, hb, hq, waitsForReply, pollsForEver])]
  simp [blockTick, hq, transmitArm, State.goto, State.driveCe]

/-- The poll from its first sample to the first that is 0 (R114). -/
theorem settle_poll (hs : List Sample) (x : Sample) (more : List Sample) (s : State)
    (hb : s.busy = true) (hq : s.seq = .tPoll) (hn : NextLow s.env hs x more) :
    settle s = settle { s with
      seq := .tSettle
      env := { s.env with samples := more }
      chip := s.chip.sampledAll (hs ++ [x])
      trace := s.trace ++ hs.map (fun _ => Event.irq .high) ++ [.irq .low] } := by
  induction hs generalizing s with
  | nil =>
    obtain ⟨-, hx, h | ⟨h, hxe, hm⟩⟩ := hn
    · have hsam : s.env.samples = x :: more := by simpa using h
      rw [settle_block s hb (by simp [atRest, hb, hq, waitsForReply, pollsForEver, hsam])]
      simp [blockTick, hq, transmitPoll, State.goto, State.irqSample, Env.sample, hsam, hx,
        Chip.sampledAll]
    · have hl : s.env.line = .low := by
        rw [hxe] at hx
        exact hx
      subst hm
      rw [settle_block s hb (by simp [atRest, hb, hq, waitsForReply, pollsForEver, hl])]
      simp [blockTick, hq, transmitPoll, State.goto, State.irqSample, Env.sample, h, hl, hxe,
        Chip.sampledAll]
  | cons y ys ih =>
    obtain ⟨hh, hx, hsam⟩ := hn
    have hy : y.level = .high := hh y (by simp)
    obtain ⟨rest, hrest⟩ : ∃ rest, s.env.samples = y :: rest := by
      rcases hsam with h | ⟨h, -, -⟩
      · exact ⟨_, h⟩
      · exact ⟨_, h⟩
    have htick : blockTick s = { s with
        env := { s.env with samples := rest }
        chip := s.chip.moved y.chip
        trace := s.trace ++ [.irq .high] } := by
      simp [blockTick, hq, transmitPoll, State.goto, State.irqSample, Env.sample, hrest, hy]
    rw [settle_block s hb (by simp [atRest, hb, hq, waitsForReply, pollsForEver, hrest]), htick,
      ih { s with
        env := { s.env with samples := rest }
        chip := s.chip.moved y.chip
        trace := s.trace ++ [.irq .high] } hb hq
        ⟨fun h hm => hh h (by simp [hm]), hx, by simpa [hrest] using hsam⟩]
    simp [Chip.sampledAll]

/-- The poll of a line that is never asserted: the scripted samples are taken and the machine rests in `T_POLL`
(R114, R177). -/
theorem settle_poll_high (s : State) (hb : s.busy = true) (hq : s.seq = .tPoll)
    (hh : ∀ x ∈ s.env.samples, x.level = .high) (hl : s.env.line = .high) :
    settle s = { s with
      env := { s.env with samples := [] }
      chip := s.chip.sampledAll s.env.samples
      trace := s.trace ++ s.env.samples.map (fun _ => Event.irq .high) } := by
  generalize hxs : s.env.samples = xs at hh ⊢
  induction xs generalizing s with
  | nil =>
    rw [settle_of_atRest s (by simp [atRest, hb, hq, pollsForEver, hxs, hl])]
    have henv : { s.env with samples := [] } = s.env := by rw [← hxs]
    rw [henv]
    simp [Chip.sampledAll]
  | cons y ys ih =>
    have hy : y.level = .high := hh y (by simp)
    have htick : blockTick s = { s with
        env := { s.env with samples := ys }
        chip := s.chip.moved y.chip
        trace := s.trace ++ [.irq .high] } := by
      simp [blockTick, hq, transmitPoll, State.goto, State.irqSample, Env.sample, hxs, hy]
    rw [settle_block s hb (by simp [atRest, hb, hq, waitsForReply, pollsForEver, hxs]), htick,
      ih { s with
        env := { s.env with samples := ys }
        chip := s.chip.moved y.chip
        trace := s.trace ++ [.irq .high] } hb hq hl rfl (fun x hx => hh x (by simp [hx]))]
    simp [Chip.sampledAll]

/-- `T_SETTLE` (R115). -/
theorem settle_settle (s : State) (hb : s.busy = true) (hq : s.seq = .tSettle) :
    settle s = settle { s with
      ce := .low
      seq := .frame .rdst .sel
      chip := chipEnable s.ce .low s.chip
      trace := s.trace ++ [.ce .low] } := by
  rw [settle_block s hb (by simp [atRest, hb, hq, waitsForReply, pollsForEver])]
  simp [blockTick, hq, transmitSettle, State.goto, State.driveCe]

/-- `T_CLASS` (R117). -/
theorem settle_class (s : State) (hb : s.busy = true) (hq : s.seq = .tClass) :
    settle s = settle { s with seq := if flushNeeded s.sReg then .frame .flush .sel else .tRet } := by
  rw [settle_block s hb (by simp [atRest, hb, hq, waitsForReply, pollsForEver])]
  simp [blockTick, hq, transmitClass, State.goto]

/-- `T_RET` (R121). -/
theorem settle_tRet (s : State) (hb : s.busy = true) (hq : s.seq = .tRet) :
    settle s = settle { s with
      busy := false
      seq := .idle
      resp := some (.outcome (classify s.sReg))
      trace := s.trace ++ [.ret (.outcome (classify s.sReg))] } := by
  rw [settle_block s hb (by simp [atRest, hb, hq, waitsForReply, pollsForEver])]
  simp [blockTick, hq, transmitRet, State.finish]

/-- The two completion bits as R117's table tests them. -/
theorem flushNeeded_eq (b : Byte) : flushNeeded b = decide (b &&& 0x30#8 ≠ 0x00#8) := by
  revert b
  decide

theorem classify_eq (b : Byte) :
    classify b
      = if b &&& 0x10#8 ≠ 0x00#8 then TxOutcome.maxRetransmitExceeded
        else if b &&& 0x20#8 ≠ 0x00#8 then TxOutcome.success
        else TxOutcome.unknown b := by
  unfold classify maxRt txDs maskMaxRt maskTxDs
  by_cases h1 : b &&& 0x10#8 = 0x00#8 <;> by_cases h2 : b &&& 0x20#8 = 0x00#8 <;> simp_all

/-- Either the samples to come reach a 0, or they are all 1 and the line stays at 1 (R114). -/
theorem nextLow_or_high (e : Env) :
    (∃ hs x more, NextLow e hs x more) ∨ ((∀ x ∈ e.samples, x.level = .high) ∧ e.line = .high) := by
  have key : ∀ xs : List Sample,
      (∃ hs x more, (∀ h ∈ hs, Sample.level h = .high) ∧ Sample.level x = .low ∧ xs = hs ++ x :: more)
        ∨ ∀ x ∈ xs, Sample.level x = .high := by
    intro xs
    induction xs with
    | nil => exact .inr (by simp)
    | cons y ys ih =>
      cases hy : y.level with
      | low => exact .inl ⟨[], y, ys, by simp, hy, rfl⟩
      | high =>
        rcases ih with ⟨hs, x, more, h1, h2, h3⟩ | h
        · refine .inl ⟨y :: hs, x, more, ?_, h2, by simp [h3]⟩
          intro h hm
          rcases List.mem_cons.mp hm with e | e
          · rw [e, hy]
          · exact h1 h e
        · refine .inr fun x hx => ?_
          rcases List.mem_cons.mp hx with e | e
          · rw [e, hy]
          · exact h x e
  rcases key e.samples with ⟨hs, x, more, h1, h2, h3⟩ | h
  · exact .inl ⟨hs, x, more, h1, h2, .inl h3⟩
  · cases hl : e.line with
    | low => exact .inl ⟨e.samples, { level := e.line, chip := none }, [], h, hl, .inr ⟨rfl, rfl, rfl⟩⟩
    | high => exact .inr ⟨h, rfl⟩

/-- TXPKT from acceptance to `T_CLASS`: the load, the arming of the line, the poll, and the read and the write-back of
STATUS (R112 to R116). -/
theorem settle_txpkt_to_class (payload : List Byte) (l0 : Reply) (ls : List Reply) (h1 d1 h2 d2 : Reply)
    (rest : List Reply) (hs : List Sample) (x : Sample) (more : List Sample) (l : List HostStep) (s : State)
    (hb : s.busy = false) (hh : s.hostSeq = .op (opTxpkt payload) :: l)
    (he : s.env.replies = l0 :: (ls ++ h1 :: d1 :: h2 :: d2 :: rest))
    (hl : ls.length = payload.length) (hn : NextLow s.env hs x more) :
    settle s
      = settle { s with
          csn := .high
          ce := .low
          busy := true
          seq := .tClass
          idx := 1
          ops := opTxpkt payload
          st := h2.rx
          inBytes := [d2.rx]
          sReg := d1.rx
          hostSeq := l
          env := { replies := rest, samples := more, line := s.env.line }
          bus := none
          chip := bracketChip s.params .high .high (s.params.opWRegister ||| regByte s.params.aStatus)
            [d1.rx] h2 [d2]
            (bracketChip s.params .high .high (s.params.opRRegister ||| regByte s.params.aStatus)
              [s.params.dummy] h1 [d1]
              ((chipEnable s.ce .high
                (bracketChip s.params s.csn .high s.params.opWTxPayload payload l0 ls s.chip)).sampledAll
                  (hs ++ [x])))
          trace := s.trace ++ frameEvents s.params.opWTxPayload payload .high l0 ls
            ++ [.ce .high] ++ hs.map (fun _ => Event.irq .high) ++ [.irq .low] ++ [.ce .low]
            ++ frameEvents (s.params.opRRegister ||| regByte s.params.aStatus) [s.params.dummy] .high h1 [d1]
            ++ frameEvents (s.params.opWRegister ||| regByte s.params.aStatus) [d1.rx] .high h2 [d2] } := by
  rw [settle_accept_txpkt payload l s hb hh]
  rw [settle_bracket .load l0 ls (h1 :: d1 :: h2 :: d2 :: rest)
    { s with hostSeq := l, ops := opTxpkt payload, busy := true, seq := .frame .load .sel }
    (by rfl) (by rfl) (by exact he) (by exact hl)]
  rw [settle_arm _ (by rfl) (by rfl), settle_poll hs x more _ (by rfl) (by rfl) (by exact hn),
    settle_settle _ (by rfl) (by rfl),
    settle_bracket .rdst h1 [d1] (h2 :: d2 :: rest) _ (by rfl) (by rfl) (by rfl) (by rfl),
    settle_bracket .clr h2 [d2] rest _ (by rfl) (by rfl) (by rfl) (by rfl)]
  congr 1

/-- A TXPKT whose line is never asserted polls for ever (R114, R177). -/
theorem settle_txpkt_high (payload : List Byte) (l0 : Reply) (ls rest : List Reply) (l : List HostStep)
    (s : State) (hb : s.busy = false) (hq : s.hostSeq = .op (opTxpkt payload) :: l)
    (he : s.env.replies = l0 :: (ls ++ rest)) (hl : ls.length = payload.length)
    (hh : ∀ x ∈ s.env.samples, x.level = .high) (hn : s.env.line = .high) :
    settle s
      = { s with
          csn := .high
          ce := .high
          busy := true
          seq := .tPoll
          idx := ls.length
          ops := opTxpkt payload
          st := l0.rx
          inBytes := latched s.inBytes ls
          hostSeq := l
          env := { replies := rest, samples := [], line := s.env.line }
          bus := none
          chip := (chipEnable s.ce .high
            (bracketChip s.params s.csn .high s.params.opWTxPayload payload l0 ls s.chip)).sampledAll
              s.env.samples
          trace := s.trace ++ frameEvents s.params.opWTxPayload payload .high l0 ls
            ++ [.ce .high] ++ s.env.samples.map (fun _ => Event.irq .high) } := by
  rw [settle_accept_txpkt payload l s hb hq]
  rw [settle_bracket .load l0 ls rest
    { s with hostSeq := l, ops := opTxpkt payload, busy := true, seq := .frame .load .sel }
    (by rfl) (by rfl) (by exact he) (by exact hl)]
  rw [settle_arm _ (by rfl) (by rfl), settle_poll_high _ (by rfl) (by rfl) (by exact hh) (by exact hn)]
  rfl

/-- If TXPKT returns, every one of its exchanges was answered and the poll saw a 0 (R125 (f)). -/
theorem txpkt_returns (payload : List Byte) (s : State) (hb : s.busy = false)
    (hq : s.hostSeq = [.op (opTxpkt payload)]) (hr : (settle s).busy = false) :
    ∃ l0 ls h1 d1 h2 d2 fl rest hs x more,
      s.env.replies = l0 :: (ls ++ h1 :: d1 :: h2 :: d2 :: (fl ++ rest))
        ∧ ls.length = payload.length
        ∧ fl.length = (if d1.rx &&& 0x30#8 = 0x00#8 then 0 else 1 + s.params.flushTrailer.length)
        ∧ NextLow s.env hs x more := by
  -- the load
  by_cases hl : s.env.replies.length ≤ payload.length
  · rw [settle_accept_txpkt payload [] s hb hq, settle_bracket_short .load _ (by rfl) (by rfl) (by exact hl)] at hr
    simp at hr
  obtain ⟨l0, ls, rest1, he1, hl1⟩ := split_replies s.env.replies payload.length (by omega)
  -- the poll
  rcases nextLow_or_high s.env with ⟨hs, x, more, hn⟩ | ⟨hh, hlow⟩
  swap
  · rw [settle_txpkt_high payload l0 ls rest1 [] s hb hq he1 hl1 hh hlow] at hr
    simp at hr
  have hload := hr
  rw [settle_accept_txpkt payload [] s hb hq,
    settle_bracket .load l0 ls rest1
      { s with hostSeq := [], ops := opTxpkt payload, busy := true, seq := .frame .load .sel }
      (by rfl) (by rfl) (by exact he1) (by exact hl1),
    settle_arm _ (by rfl) (by rfl), settle_poll hs x more _ (by rfl) (by rfl) (by exact hn),
    settle_settle _ (by rfl) (by rfl)] at hload
  -- the read of STATUS
  by_cases h2 : rest1.length ≤ 1
  · rw [settle_bracket_short .rdst _ (by rfl) (by rfl) (by exact h2)] at hload
    simp [bracketEnd] at hload
  obtain ⟨h1, ds, rest2, he2, hl2⟩ := split_replies rest1 1 (by omega)
  obtain ⟨d1, rfl⟩ := List.length_eq_one_iff.mp hl2
  rw [settle_bracket .rdst h1 [d1] rest2 _ (by rfl) (by rfl) (by exact he2) (by rfl)] at hload
  -- the write-back
  by_cases h3 : rest2.length ≤ 1
  · rw [settle_bracket_short .clr _ (by rfl) (by rfl) (by exact h3)] at hload
    simp [bracketEnd] at hload
  obtain ⟨w0, ds, rest3, he3, hl3⟩ := split_replies rest2 1 (by omega)
  obtain ⟨w1, rfl⟩ := List.length_eq_one_iff.mp hl3
  subst he2
  subst he3
  have he : s.env.replies = l0 :: (ls ++ h1 :: d1 :: w0 :: w1 :: rest3) := by simpa using he1
  rw [settle_txpkt_to_class payload l0 ls h1 d1 w0 w1 rest3 hs x more [] s hb hq he hl1 hn,
    settle_class _ (by rfl) (by rfl)] at hr
  simp only [flushNeeded_eq] at hr
  by_cases hz : d1.rx &&& 0x30#8 = 0x00#8
  · exact ⟨l0, ls, h1, d1, w0, w1, [], rest3, hs, x, more, by simpa using he, hl1, by simp [hz], hn⟩
  -- the flush
  rw [if_pos (by simpa using hz)] at hr
  by_cases h4 : rest3.length ≤ s.params.flushTrailer.length
  · rw [settle_bracket_short .flush _ (by rfl) (by rfl) (by exact h4)] at hr
    simp at hr
  obtain ⟨f0, fs, rest4, he4, hl4⟩ := split_replies rest3 s.params.flushTrailer.length (by omega)
  refine ⟨l0, ls, h1, d1, w0, w1, f0 :: fs, rest4, hs, x, more, by rw [he, he4]; simp, hl1, ?_, hn⟩
  rw [if_neg hz]
  simp [hl4, Nat.add_comm]

end Sys2Proof.Machine
end

