-- ==== Sys2Proof/Tests/Slice0.lean ====
section
/-! SUPPORT. Tests: ill-formed operations refused by name, words of the spec decoded, and single operations against the
vectors of 95_test_vectors.md (F, V and P numbers; their expected traces are the spec's). A small script of
answers stands for the environment (95_test_vectors.md section 1.2). -/

namespace Sys2Proof.Tests

open Sys2Proof.Machine

/-! ### Helpers -/

/-- An answer with no move of the chip's own. -/
def ans (b : Byte) : Reply := { rx := b, chip := none }

/-- A sample with no move of the chip's own. -/
def smp (l : Level) : Sample := { level := l, chip := none }

/-- The reset state of parameters `p` with a script of answers and samples. -/
def readyWith (p : Params) (bytes : List Byte) (levels : List Level) : State :=
  { State.resetWith p with
    env := { replies := bytes.map ans, samples := levels.map smp, line := .high } }

/-- The reset state with a script of answers and samples. -/
def ready (bytes : List Byte) (levels : List Level) : State := readyWith Params.default bytes levels

/-- The trace and the response of a next state. -/
def seen : Host.Outcome State Fault Refusal → Option (List Event × Option Response)
  | .next t => some (t.trace, t.resp)
  | .fault _ => none
  | .refused _ => none

/-- The lines, `BUSY` and `SEQ` of a next state. -/
def lines : Host.Outcome State Fault Refusal → Option (Level × Level × Bool × Phase)
  | .next t => some (t.csn, t.ce, t.busy, t.seq)
  | .fault _ => none
  | .refused _ => none

/-- The reason of a refusal. -/
def refusal : Host.Outcome State Fault Refusal → Option Refusal
  | .next _ => none
  | .fault _ => none
  | .refused r => some r

/-- What a request decodes to. -/
def op (r : Request) : Option Instr := (decode Params.default r).toOption

/-- Why a request is rejected. -/
def bad (r : Request) : Option DecodeError :=
  match decode Params.default r with
  | .ok _ => none
  | .error e => some e

/-- The parameters with the erratum switch on (V vectors F18, F19). -/
def erratum : Params := { Params.default with rbufCloseLow := true }

/-- The configuration of program P3. -/
def cfg3 : TxConfig :=
  { count := 5, delay := 3, channel := 76, dataRate := 0x08#8, txPower := 0x06#8, crcEnable := true,
    crcWidth := 2, powerUp := true, addr := [0xE7#8, 0xE7#8, 0xE7#8, 0xE7#8, 0xE7#8], width := 5 }

/-- The bytes 00 to 1F (F17). -/
def upTo32 : List Byte := (List.range 32).map (BitVec.ofNat 8)

/-! ### Ill-formed operations are refused (R37, R64, R141, R144) -/

theorem test_default_params_wf : Params.default.wf = true := by decide

theorem test_count_above_max :
    (Instr.rbufReg 0x10#5 33).illegal Params.default = some .countAboveMax
      ∧ (Instr.rRegister 0x10#5 33).illegal Params.default = some .countAboveMax
      ∧ (Instr.rRxPayload 33).illegal Params.default = some .countAboveMax
      ∧ (Instr.rbufCmd 0x61#8 33).illegal Params.default = some .countAboveMax
      ∧ (Instr.rbufReg 0x10#5 32).illegal Params.default = none := by decide

theorem test_length_above_max :
    (Instr.txpkt (0x00#8 :: upTo32)).illegal Params.default = some .countAboveMax
      ∧ (Instr.wbufReg 0x10#5 (0x00#8 :: upTo32)).illegal Params.default = some .countAboveMax
      ∧ (Instr.wRegister 0x10#5 (0x00#8 :: upTo32)).illegal Params.default = some .countAboveMax
      ∧ (Instr.wTxPayload (0x00#8 :: upTo32)).illegal Params.default = some .countAboveMax
      ∧ (Instr.wbufCmd 0xA0#8 (0x00#8 :: upTo32)).illegal Params.default = some .countAboveMax
      ∧ (Instr.txpkt upTo32).illegal Params.default = none := by decide

theorem test_not_a_fixed_command :
    (Instr.wbufCmd 0x42#8 []).illegal Params.default = some .notFixedCommand
      ∧ (Instr.rbufCmd 0x07#8 1).illegal Params.default = some .notFixedCommand := by decide

/-- V84. -/
theorem test_channel_out_of_domain :
    (Instr.setCh 128).illegal Params.default = some .channelOutOfDomain
      ∧ (Instr.setCh 127).illegal Params.default = none := by decide

/-- R147: a level with bits outside the power field sets those bits too. -/
theorem test_level_outside_the_field :
    seen (exec (.setPwr 0x83#8) (ready [0x0E#8, 0x0F#8, 0x0E#8, 0#8] []))
      = some ([.csn .low, .x 0x06#8 0x0E#8, .x 0x00#8 0x0F#8, .csn .high, .ret (.value 0x0F#8),
          .csn .low, .x 0x26#8 0x0E#8, .x 0x8B#8 0#8, .csn .high, .ret (.status 0x0E#8)],
          some (.status 0x0E#8)) := by decide

/-- R22, R182: CONFIG's power-up bit powers the chip up and down. -/
theorem test_power_up_bit :
    (Chip.store Params.default 0x00#5 0 0x02#8 Chip.reset).mode = .standby
      ∧ (Chip.store Params.default 0x00#5 0 0x0C#8 { Chip.reset with mode := .transmitting }).mode = .powerDown
      ∧ (Chip.store Params.default 0x00#5 0 0x0E#8 { Chip.reset with mode := .transmitting }).mode
        = .transmitting := by decide

theorem test_config_out_of_domain :
    (Instr.enterTx cfg3).illegal Params.default = none
      ∧ (Instr.enterTx { cfg3 with count := 16 }).illegal Params.default = some .configOutOfDomain
      ∧ (Instr.enterTx { cfg3 with delay := 16 }).illegal Params.default = some .configOutOfDomain
      ∧ (Instr.enterTx { cfg3 with channel := 128 }).illegal Params.default = some .configOutOfDomain
      ∧ (Instr.enterTx { cfg3 with dataRate := 0x20#8 }).illegal Params.default = some .configOutOfDomain
      ∧ (Instr.enterTx { cfg3 with txPower := 0x01#8 }).illegal Params.default = some .configOutOfDomain
      ∧ (Instr.enterTx { cfg3 with crcWidth := 3 }).illegal Params.default = some .configOutOfDomain
      ∧ (Instr.enterTx { cfg3 with width := 2, addr := [0#8, 0#8] }).illegal Params.default
          = some .configOutOfDomain
      ∧ (Instr.enterTx { cfg3 with width := 6, addr := [0#8, 0#8, 0#8, 0#8, 0#8, 0#8] }).illegal
          Params.default = some .configOutOfDomain
      ∧ (Instr.enterTx { cfg3 with width := 4 }).illegal Params.default = some .configOutOfDomain := by
  decide

/-! ### Decoding: words of the spec -/

/-- V1 to V5, and the fixed-command WBUF words V6 to V8. -/
theorem test_decode_register_and_buffer_words :
    op (.host 0x00052800#32 []) = some (.wreg 0x05#5 0x28#8)
      ∧ op (.host 0x20050000#32 []) = some (.rreg 0x05#5)
      ∧ op (.host 0x40100005#32 []) = some (.rbufReg 0x10#5 5)
      ∧ op (.host 0x50610002#32 []) = some (.rbufCmd 0x61#8 2)
      ∧ op (.host 0x60100005#32 [0x6E#8, 0x52#8, 0x46#8, 0x32#8, 0x34#8])
          = some (.wbufReg 0x10#5 [0x6E#8, 0x52#8, 0x46#8, 0x32#8, 0x34#8])
      ∧ op (.host 0x70E10000#32 []) = some (.wbufCmd 0xE1#8 [])
      ∧ op (.host 0x70FF0000#32 []) = some (.wbufCmd 0xFF#8 [])
      ∧ op (.host 0x70E20000#32 []) = some (.wbufCmd 0xE2#8 []) := by decide

/-- V9 to V12. -/
theorem test_decode_txpkt_and_setce_words :
    op (.host 0x80000003#32 [0x11#8, 0x22#8, 0x33#8]) = some (.txpkt [0x11#8, 0x22#8, 0x33#8])
      ∧ op (.host 0x80000000#32 []) = some (.txpkt [])
      ∧ op (.host 0xA0000100#32 []) = some (.setce .high)
      ∧ op (.host 0xA0000000#32 []) = some (.setce .low) := by decide

/-- V13 to V19c. -/
theorem test_words_rejected :
    bad (.host 0xC0000000#32 []) = some .reservedOpsel
      ∧ bad (.host 0xE0000000#32 []) = some .reservedOpsel
      ∧ bad (.host 0x01052800#32 []) = some .nonZeroField
      ∧ bad (.host 0x00252800#32 []) = some .nonZeroField
      ∧ bad (.host 0x30050000#32 []) = some .headselNotAllowed
      ∧ bad (.host 0x80000021#32 (0x00#8 :: upTo32)) = some (.illegal .countAboveMax)
      ∧ bad (.host 0xA0000200#32 []) = some .nonZeroField
      ∧ bad (.host 0x20050001#32 []) = some .nonZeroField
      ∧ bad (.host 0x90000001#32 [0x00#8]) = some .headselNotAllowed
      ∧ bad (.host 0x70420000#32 []) = some (.illegal .notFixedCommand) := by decide

/-- R53's map: `000aaaaa`, `001aaaaa`, `01100001`, `10100000`, `11100001`, `11100010`, `11111111`. -/
theorem test_decode_wire_bytes :
    op (.wire 0b00000101#8 []) = some (.rRegister 0x05#5 0)
      ∧ op (.wire 0b00000111#8 [0x00#8]) = some (.rRegister 0x07#5 1)
      ∧ op (.wire 0b00111111#8 [0xAA#8]) = some (.wRegister 0x1F#5 [0xAA#8])
      ∧ op (.wire 0b01100001#8 [0x00#8, 0x00#8]) = some (.rRxPayload 2)
      ∧ op (.wire 0b10100000#8 [0x01#8, 0x02#8]) = some (.wTxPayload [0x01#8, 0x02#8])
      ∧ op (.wire 0b11100001#8 []) = some .flushTx
      ∧ op (.wire 0b11100010#8 []) = some .flushRx
      ∧ op (.wire 0b11111111#8 []) = some .nop := by decide

theorem test_wire_rejected :
    bad (.wire 0x42#8 []) = some .reservedCommand ∧ bad (.wire 0x60#8 []) = some .reservedCommand := by decide

/-- A read sends DUMMY whatever comes with its request, and FLUSH_RX has no data byte (R34, R92; log entry 6). -/
theorem test_wire_data_bytes :
    op (.wire 0x05#8 [0x01#8]) = some (.rRegister 0x05#5 1) ∧ op (.wire 0xE2#8 [0x00#8]) = some .flushRx := by
  decide

/-- Bytes beyond COUNT are not taken; one that did not come is a free value, so that only the number and the bytes that
came are tested (log entry 6). -/
theorem test_stream_bytes :
    op (.host 0x80000001#32 [0x11#8, 0x22#8]) = some (.txpkt [0x11#8])
      ∧ op (.host 0x00052800#32 [0x11#8]) = some (.wreg 0x05#5 0x28#8)
      ∧ op (.host 0x80000002#32 [0x11#8]) = some (.txpkt [0x11#8, Config.missingByte 0]) :=
  ⟨by decide, by decide, rfl⟩

theorem test_decode_pseudo :
    op (.pseudo .present) = some .present ∧ op (.pseudo (.enterTx cfg3)) = some (.enterTx cfg3)
      ∧ op (.pseudo (.setCh 76)) = some (.setCh 76) ∧ op (.pseudo .pwrDn) = some .pwrDn
      ∧ op (.pseudo .wake) = some .wake ∧ op (.pseudo (.setPwr 0x02#8)) = some (.setPwr 0x02#8)
      ∧ op (.pseudo .flushTxFifo) = some .flushTxFifo
      ∧ bad (.pseudo (.setCh 128)) = some (.illegal .channelOutOfDomain) := by
  decide

/-- A row of the opcode table, where the step fetches it. -/
theorem test_table_word_runs :
    decodeTableWord 32 0xA0000100 = some (.setce .high) ∧ decodeTableWord 8 0xE2 = some .flushRx
      ∧ lines (step (State.reset.withFetchWord 32 0xA0000100)) = some (.high, .high, false, .idle) := by
  decide

/-! ### The Command Framer -/

/-- F1, F2. -/
theorem test_wreg :
    seen (exec (.wreg 0x05#5 0x28#8) (ready [0x0E#8, 0x00#8] []))
        = some ([.csn .low, .x 0x25#8 0x0E#8, .x 0x28#8 0x00#8, .csn .high, .ret (.status 0x0E#8)],
            some (.status 0x0E#8))
      ∧ lines (exec (.wreg 0x05#5 0x28#8) (ready [0x4E#8, 0xFF#8] []))
        = some (.high, .low, false, .idle) := by decide

/-- F15: a reserved address is framed like any other. -/
theorem test_wreg_reserved_address :
    seen (exec (.wreg 0x1F#5 0xAA#8) (ready [0x0E#8, 0x00#8] []))
      = some ([.csn .low, .x 0x3F#8 0x0E#8, .x 0xAA#8 0x00#8, .csn .high, .ret (.status 0x0E#8)],
          some (.status 0x0E#8)) := by decide

/-- F4: the second answer is returned. -/
theorem test_rreg :
    seen (exec (.rreg 0x07#5) (ready [0x0E#8, 0x2E#8] []))
      = some ([.csn .low, .x 0x07#8 0x0E#8, .x 0x00#8 0x2E#8, .csn .high, .ret (.value 0x2E#8)],
          some (.value 0x2E#8)) := by decide

/-- F22: the dummy byte is a parameter. -/
theorem test_rreg_dummy :
    seen (exec (.rreg 0x05#5)
        (readyWith { Params.default with dummy := 0xFF#8 } [0x0E#8, 0x28#8] []))
      = some ([.csn .low, .x 0x05#8 0x0E#8, .x 0xFF#8 0x28#8, .csn .high, .ret (.value 0x28#8)],
          some (.value 0x28#8)) := by decide

/-- F5, F6. -/
theorem test_rbuf_register :
    seen (exec (.rbufReg 0x10#5 5) (ready [0x0E#8, 1#8, 2#8, 3#8, 4#8, 5#8] []))
        = some ([.csn .low, .x 0x10#8 0x0E#8, .x 0x00#8 1#8, .x 0x00#8 2#8, .x 0x00#8 3#8, .x 0x00#8 4#8,
            .x 0x00#8 5#8, .csn .high, .ret (.buffer 0x0E#8 [1#8, 2#8, 3#8, 4#8, 5#8])],
            some (.buffer 0x0E#8 [1#8, 2#8, 3#8, 4#8, 5#8]))
      ∧ seen (exec (.rbufReg 0x10#5 0) (ready [0x0E#8] []))
        = some ([.csn .low, .x 0x10#8 0x0E#8, .csn .high, .ret (.buffer 0x0E#8 [])],
            some (.buffer 0x0E#8 [])) := by decide

/-- F18: the erratum leaves chip-select low. -/
theorem test_rbuf_erratum :
    seen (exec (.rbufReg 0x10#5 2) (readyWith erratum [0x0E#8, 1#8, 2#8] []))
        = some ([.csn .low, .x 0x10#8 0x0E#8, .x 0x00#8 1#8, .x 0x00#8 2#8, .csn .low,
            .ret (.buffer 0x0E#8 [1#8, 2#8])], some (.buffer 0x0E#8 [1#8, 2#8]))
      ∧ lines (exec (.rbufReg 0x10#5 2) (readyWith erratum [0x0E#8, 1#8, 2#8] []))
        = some (.low, .low, false, .idle) := by decide

/-- F7. -/
theorem test_rbuf_command :
    seen (exec (.rbufCmd 0x61#8 2) (ready [0x40#8, 0xAA#8, 0xBB#8] []))
      = some ([.csn .low, .x 0x61#8 0x40#8, .x 0x00#8 0xAA#8, .x 0x00#8 0xBB#8, .csn .high,
          .ret (.buffer 0x40#8 [0xAA#8, 0xBB#8])], some (.buffer 0x40#8 [0xAA#8, 0xBB#8])) := by decide

/-- F8. -/
theorem test_wbuf_register :
    seen (exec (.wbufReg 0x10#5 [0x6E#8, 0x52#8, 0x46#8, 0x32#8, 0x34#8])
        (ready [0x0E#8, 0#8, 0#8, 0#8, 0#8, 0#8] []))
      = some ([.csn .low, .x 0x30#8 0x0E#8, .x 0x6E#8 0#8, .x 0x52#8 0#8, .x 0x46#8 0#8, .x 0x32#8 0#8,
          .x 0x34#8 0#8, .csn .high, .ret (.status 0x0E#8)], some (.status 0x0E#8)) := by decide

/-- F12. -/
theorem test_wbuf_command :
    seen (exec (.wbufCmd 0xFF#8 []) (ready [0x2E#8] []))
      = some ([.csn .low, .x 0xFF#8 0x2E#8, .csn .high, .ret (.status 0x2E#8)],
          some (.status 0x2E#8)) := by decide

/-- F13, F14. -/
theorem test_setce :
    seen (exec (.setce .high) (ready [] [])) = some ([.ce .high, .ret .empty], some .empty)
      ∧ lines (exec (.setce .high) (ready [] [])) = some (.high, .high, false, .idle)
      ∧ seen (exec (.setce .low) (ready [] [])) = some ([.ce .low, .ret .empty], some .empty) := by decide

/-- R87, R89: the wire reads (their bytes as in F5 and F7). -/
theorem test_wire_reads :
    seen (exec (.rRegister 0x10#5 2) (ready [0x0E#8, 1#8, 2#8] []))
        = some ([.csn .low, .x 0x10#8 0x0E#8, .x 0x00#8 1#8, .x 0x00#8 2#8, .csn .high,
            .ret (.buffer 0x0E#8 [1#8, 2#8])], some (.buffer 0x0E#8 [1#8, 2#8]))
      ∧ seen (exec (.rRxPayload 1) (ready [0x40#8, 0xAA#8] []))
        = some ([.csn .low, .x 0x61#8 0x40#8, .x 0x00#8 0xAA#8, .csn .high,
            .ret (.buffer 0x40#8 [0xAA#8])], some (.buffer 0x40#8 [0xAA#8])) := by decide

/-- R88 (its example, a write of STATUS), R90 (its example, F9). -/
theorem test_wire_writes :
    seen (exec (.wRegister 0x07#5 [0x2E#8]) (ready [0x2E#8, 0#8] []))
        = some ([.csn .low, .x 0x27#8 0x2E#8, .x 0x2E#8 0#8, .csn .high, .ret (.status 0x2E#8)],
            some (.status 0x2E#8))
      ∧ seen (exec (.wTxPayload [1#8, 2#8]) (ready [0x0E#8, 0#8, 0#8] []))
        = some ([.csn .low, .x 0xA0#8 0x0E#8, .x 1#8 0#8, .x 2#8 0#8, .csn .high, .ret (.status 0x0E#8)],
            some (.status 0x0E#8)) := by decide

/-- F10, F11, F12 as wire commands, and V85. -/
theorem test_flushes_and_nop :
    seen (exec .flushTx (ready [0x0E#8] []))
        = some ([.csn .low, .x 0xE1#8 0x0E#8, .csn .high, .ret (.status 0x0E#8)], some (.status 0x0E#8))
      ∧ seen (exec .flushRx (ready [0x0E#8] []))
        = some ([.csn .low, .x 0xE2#8 0x0E#8, .csn .high, .ret (.status 0x0E#8)], some (.status 0x0E#8))
      ∧ seen (exec .nop (ready [0x2E#8] []))
        = some ([.csn .low, .x 0xFF#8 0x2E#8, .csn .high, .ret (.status 0x2E#8)], some (.status 0x2E#8))
      ∧ seen (exec .flushTxFifo (ready [0x0E#8] []))
        = some ([.csn .low, .x 0xE1#8 0x0E#8, .csn .high, .ret (.status 0x0E#8)],
            some (.status 0x0E#8)) := by decide

/-- V39c: the exchanges of the read of STATUS never complete. -/
theorem test_txpkt_hangs_in_the_read :
    seen (exec (.txpkt [0xAB#8]) (ready [0x0E#8, 0x00#8] [.low]))
      = some ([.csn .low, .x 0xA0#8 0x0E#8, .x 0xAB#8 0x00#8, .csn .high, .ce .high, .irq .low, .ce .low,
          .csn .low], none)
      ∧ lines (exec (.txpkt [0xAB#8]) (ready [0x0E#8, 0x00#8] [.low]))
          = some (.low, .low, true, .frame .rdst .head) := by decide

/-- F20, F21: an exchange that never completes. -/
theorem test_hang :
    seen (exec (.wreg 0x05#5 0x28#8) (ready [] [])) = some ([.csn .low], none)
      ∧ lines (exec (.wreg 0x05#5 0x28#8) (ready [] [])) = some (.low, .low, true, .frame .op .head)
      ∧ lines (exec (.rbufReg 0x10#5 5) (ready [0x0E#8, 1#8] []))
        = some (.low, .low, true, .frame .op .data) := by decide

/-! ### The Transmit State Machine -/

/-- V20: Success, with the flush. -/
theorem test_txpkt_success :
    seen (exec (.txpkt [0xAB#8]) (ready [0x0E#8, 0#8, 0x0E#8, 0x2E#8, 0x2E#8, 0#8, 0x0E#8] [.low]))
      = some ([.csn .low, .x 0xA0#8 0x0E#8, .x 0xAB#8 0#8, .csn .high, .ce .high, .irq .low, .ce .low,
          .csn .low, .x 0x07#8 0x0E#8, .x 0x00#8 0x2E#8, .csn .high,
          .csn .low, .x 0x27#8 0x2E#8, .x 0x2E#8 0#8, .csn .high,
          .csn .low, .x 0xE1#8 0x0E#8, .csn .high, .ret (.outcome .success)],
          some (.outcome .success)) := by decide

/-- V24: Unknown, with no flush; and V32, V33, V22 as classifications. -/
theorem test_txpkt_unknown :
    seen (exec (.txpkt [0xAB#8]) (ready [0x0E#8, 0#8, 0x1E#8, 0x4E#8, 0x4E#8, 0#8] [.low]))
        = some ([.csn .low, .x 0xA0#8 0x0E#8, .x 0xAB#8 0#8, .csn .high, .ce .high, .irq .low, .ce .low,
            .csn .low, .x 0x07#8 0x1E#8, .x 0x00#8 0x4E#8, .csn .high,
            .csn .low, .x 0x27#8 0x4E#8, .x 0x4E#8 0#8, .csn .high, .ret (.outcome (.unknown 0x4E#8))],
            some (.outcome (.unknown 0x4E#8)))
      ∧ classify 0xEF#8 = .success ∧ classify 0xCF#8 = .unknown 0xCF#8
      ∧ classify 0x3E#8 = .maxRetransmitExceeded := by decide

/-! ### The host's sequences -/

/-- V40, V43. -/
theorem test_present :
    (match exec .present (ready ([0x0E#8, 0#8, 0#8, 0#8, 0#8, 0#8, 0x0E#8]
          ++ [0x6E#8, 0x52#8, 0x46#8, 0x32#8, 0x34#8]) []) with
      | .next t => t.presence
      | .fault _ => none
      | .refused _ => none) = some true
      ∧ (match exec .present (ready ([0x0E#8, 0#8, 0#8, 0#8, 0#8, 0#8, 0x0E#8]
          ++ [0x6E#8, 0x52#8, 0x46#8, 0x32#8, 0x35#8]) []) with
      | .next t => t.presence
      | .fault _ => none
      | .refused _ => none) = some false := by decide

/-- P3, steps 1 to 8: the bytes sent (37 events and eight returns). -/
theorem test_enterTx :
    (match exec (.enterTx cfg3) (ready (List.replicate 22 0x00#8) []) with
      | .next t => t.trace.filterMap fun e => match e with
          | .x o _ => some o
          | .csn _ | .ce _ | .irq _ | .ret _ => none
      | .fault _ => []
      | .refused _ => [])
      = [0x24#8, 0x35#8, 0x26#8, 0x0E#8, 0x20#8, 0x0E#8, 0x25#8, 0x4C#8,
          0x30#8, 0xE7#8, 0xE7#8, 0xE7#8, 0xE7#8, 0xE7#8, 0x21#8, 0x01#8,
          0x2A#8, 0xE7#8, 0xE7#8, 0xE7#8, 0xE7#8, 0xE7#8] := by decide

/-- V50, V55; V61; V66, V68. -/
theorem test_register_bytes :
    packRetr 3 5 = 0x35#8 ∧ packRetr 5 3 = 0x53#8
      ∧ packRfSetup { cfg3 with txPower := 0x02#8 } = 0x0A#8
      ∧ packConfig Params.default { cfg3 with powerUp := false } = 0x0C#8
      ∧ packConfig Params.default { cfg3 with crcEnable := false } = 0x06#8 := by decide

/-- V81, V84. -/
theorem test_setCh :
    seen (exec (.setCh 76) (ready [0x0E#8, 0#8] []))
        = some ([.csn .low, .x 0x25#8 0x0E#8, .x 0x4C#8 0#8, .csn .high, .ret (.status 0x0E#8)],
            some (.status 0x0E#8))
      ∧ refusal (exec (.setCh 128) (ready [] [])) = some (.illegal .channelOutOfDomain) := by decide

/-- V71. -/
theorem test_pwrDn :
    seen (exec .pwrDn (ready [0x0E#8, 0xFF#8, 0x0E#8, 0#8] []))
      = some ([.ce .low, .ret .empty,
          .csn .low, .x 0x00#8 0x0E#8, .x 0x00#8 0xFF#8, .csn .high, .ret (.value 0xFF#8),
          .csn .low, .x 0x20#8 0x0E#8, .x 0xFD#8 0#8, .csn .high, .ret (.status 0x0E#8)],
          some (.status 0x0E#8)) := by decide

/-- V73. -/
theorem test_wake :
    seen (exec .wake (ready [0x0E#8, 0x00#8, 0x0E#8, 0#8] []))
      = some ([.csn .low, .x 0x00#8 0x0E#8, .x 0x00#8 0x00#8, .csn .high, .ret (.value 0x00#8),
          .csn .low, .x 0x20#8 0x0E#8, .x 0x02#8 0#8, .csn .high, .ret (.status 0x0E#8)],
          some (.status 0x0E#8)) := by decide

/-- V75. -/
theorem test_setPwr :
    seen (exec (.setPwr 0x02#8) (ready [0x0E#8, 0x0F#8, 0x0E#8, 0#8] []))
      = some ([.csn .low, .x 0x06#8 0x0E#8, .x 0x00#8 0x0F#8, .csn .high, .ret (.value 0x0F#8),
          .csn .low, .x 0x26#8 0x0E#8, .x 0x0B#8 0#8, .csn .high, .ret (.status 0x0E#8)],
          some (.status 0x0E#8)) := by decide

/-- R38 (b): a write of 0x2E clears bit 5 and leaves bit 4. -/
theorem test_status_write_one_to_clear : clearLatched 0x3E#8 0x2E#8 = 0x1E#8 := by decide

/-- R63: the outcome codes. -/
theorem test_outcome_codes :
    TxOutcome.success.code = 0#2 ∧ TxOutcome.maxRetransmitExceeded.code = 1#2
      ∧ (TxOutcome.unknown 0x4E#8).code = 2#2 := by decide

/-- A written byte is listed and read back; writing the reset content unlists it (RF_CH is 0x02 at reset, log entry 9). -/
theorem test_register_memory :
    let c := Chip.store Params.default 0x05#5 0 0x28#8 Chip.reset
    c.regs = [(40, 0x28#8)] ∧ Chip.readByte Params.default c 0x05#5 0 = 0x28#8
      ∧ (Chip.store Params.default 0x05#5 0 0x02#8 c).regs = []
      ∧ Chip.readByte Params.default Chip.reset 0x05#5 0 = 0x02#8 := by decide

/-- FIFO status shows whether the TX FIFO is empty (R69, R91): after reset, with a payload queued, and after a write of
0xFF, which leaves bit 4. -/
theorem test_fifo_status :
    Chip.readByte Params.default Chip.reset 0x17#5 0 = 0x11#8
      ∧ Chip.readByte Params.default { Chip.reset with txFifo := [[0xAB#8]] } 0x17#5 0 = 0x01#8
      ∧ Chip.readByte Params.default
          (Chip.store Params.default 0x17#5 0 0xFF#8 { Chip.reset with txFifo := [[0xAB#8]] }) 0x17#5 0
        = 0xEF#8 := by decide

/-! ### Witnesses: for each obligation with hypotheses, a concrete state and operands that meet them all -/

/-- `n` answers 0x0E. -/
def plenty (n : Nat) : List Byte := List.replicate n 0x0E#8

/-- A machine that polls the interrupt line inside TXPKT. -/
def polling : State :=
  { State.reset with
    busy := true, seq := .tPoll, ce := .high, ops := opTxpkt [0xAB#8], trace := [.ce .high] }

/-- A machine about to return from SETCE. -/
def returning : State :=
  { State.reset with busy := true, seq := .ret, ops := opSetce .low, trace := [.ce .low] }

/-- A busy machine in a phase, with TXPKT's latches, one answer ready and the given sample to come. -/
def phase (q : Phase) (l : Level) : State :=
  { ready [0x2E#8] [l] with busy := true, seq := q, ops := opTxpkt [0xAB#8], inBytes := [0x2E#8] }

theorem witness_StepDecodesAndPerformsTheNextRequest :
    State.reset.Idle ∧ State.reset.inbox = []
      ∧ (State.reset.present (.host 0x00052800#32 [])).Idle
      ∧ decode Params.default ((Request.host 0x00052800#32 []).complete 0) = .ok (.wreg 0x05#5 0x28#8)
      ∧ (Request.host 0x80000002#32 [0x11#8]).missing = 1
      ∧ (State.reset.present (.host 0xC0000000#32 [])).Idle
      ∧ decode Params.default ((Request.host 0xC0000000#32 []).complete 0) = .error .reservedOpsel :=
  ⟨by decide, rfl, by decide, rfl, by decide, by decide, rfl⟩

theorem witness_NothingIsAcceptedWhileBusy :
    ¬ polling.Idle ∧ ¬ ({ State.reset with hostSeq := [.compare []] } : State).Idle := by decide

theorem witness_OutOfDomainOperationsAreRefused :
    State.reset.Idle ∧ State.reset.params.nMax < 33
      ∧ State.reset.params.nMax < (0x00#8 :: upTo32).length
      ∧ 0x00#8 ∉ State.reset.params.fixedCommands ∧ 0x61#8 ∈ State.reset.params.fixedCommands
      ∧ 127 < 128 ∧ 0x20#8 ∉ State.reset.params.rate ∧ 0x01#8 ∉ State.reset.params.pwr
      ∧ 15 < 16 ∧ (3 ≠ 1 ∧ 3 ≠ 2) ∧ 2 < 3 ∧ 5 < 6 ∧ cfg3.addr.length ≠ 4 :=
  ⟨by decide, by decide, by decide, by decide, by decide, by decide,
    by simp [State.reset, State.resetWith, Params.default],
    by simp [State.reset, State.resetWith, Params.default], by decide⟩

/-- An idle machine with a request that decodes to nothing; and machines that the second clause is about: one with no
request, one with a request that decodes, one in the middle of TXPKT. -/
theorem witness_AStepIsRefusedExactlyIfItsRequestDoesNotDecode :
    (State.reset.present (.host 0xC0000000#32 [])).Idle
      ∧ (State.reset.present (.host 0xC0000000#32 [])).inbox = [.host 0xC0000000#32 []]
      ∧ decode Params.default ((Request.host 0xC0000000#32 []).complete 0) = .error .reservedOpsel
      ∧ State.reset.Idle ∧ State.reset.inbox = []
      ∧ (State.reset.present (.host 0x00052800#32 [])).Idle
      ∧ decode Params.default ((Request.host 0x00052800#32 []).complete 0) = .ok (.wreg 0x05#5 0x28#8)
      ∧ ¬ polling.Idle :=
  ⟨by decide, rfl, rfl, by decide, rfl, by decide, rfl, by decide⟩

theorem witness_DecodingAnEncodedOperationGivesItBack :
    Params.default.wf = true ∧ (Instr.wbufReg 0x1F#5 upTo32).WellFormed Params.default
      ∧ (Instr.setCh 127).WellFormed Params.default ∧ (Instr.enterTx cfg3).WellFormed Params.default
      ∧ erratum.wf = true ∧ (Instr.rbufCmd 0x61#8 32).WellFormed erratum := by decide

theorem witness_OnlyTheEncodingDecodesToAnOperation :
    Params.default.wf = true ∧ decode Params.default (.wire 0xE1#8 []) = .ok .flushTx
      ∧ decode Params.default (.host 0x40100020#32 []) = .ok (.rbufReg 0x10#5 32) :=
  ⟨by decide, rfl, rfl⟩

/-- Accepted words with `HEADSEL` 0 and 1 and with every `OPSEL`, their free fields at the ends of their ranges. -/
theorem witness_IllegalHostWordsAreRejected :
    decode Params.default (.host 0x001FFF00#32 []) = .ok (.wreg 0x1F#5 0xFF#8)
      ∧ decode Params.default (.host 0x201F0000#32 []) = .ok (.rreg 0x1F#5)
      ∧ decode Params.default (.host 0x40100020#32 []) = .ok (.rbufReg 0x10#5 32)
      ∧ decode Params.default (.host 0x50610020#32 []) = .ok (.rbufCmd 0x61#8 32)
      ∧ decode Params.default (.host 0x70FF0000#32 []) = .ok (.wbufCmd 0xFF#8 [])
      ∧ decode Params.default (.host 0x80000000#32 []) = .ok (.txpkt [])
      ∧ decode Params.default (.host 0xA0000100#32 []) = .ok (.setce .high) :=
  ⟨rfl, rfl, rfl, rfl, rfl, rfl, rfl⟩

/-- Every row of R62's table is reached (with `test_decode_register_and_buffer_words` and
`test_decode_txpkt_and_setce_words`). -/
theorem witness_AcceptedHostWordsMatchTheirTableRow :
    decode Params.default (.host 0x001FFF00#32 []) = .ok (.wreg 0x1F#5 0xFF#8)
      ∧ decode Params.default (.host 0x201F0000#32 []) = .ok (.rreg 0x1F#5)
      ∧ decode Params.default (.host 0x60000000#32 []) = .ok (.wbufReg 0x00#5 [])
      ∧ decode Params.default (.host 0x70FF0000#32 []) = .ok (.wbufCmd 0xFF#8 []) :=
  ⟨rfl, rfl, rfl, rfl⟩

/-- One byte too few, one too many, and the right number, for WBUF in both forms and TXPKT. -/
theorem witness_TheBlockTakesCountBytesFromTheStream :
    decode Params.default ((Request.host 0x80000002#32 [0x11#8]).complete 7)
        = .ok (.txpkt [0x11#8, Config.missingByte 7])
      ∧ decode Params.default ((Request.host 0x60100001#32 [0x11#8, 0x22#8]).complete 7)
        = .ok (.wbufReg 0x10#5 [0x11#8])
      ∧ decode Params.default ((Request.host 0x70A00001#32 [0x11#8]).complete 7)
        = .ok (.wbufCmd 0xA0#8 [0x11#8]) := ⟨rfl, rfl, rfl⟩

theorem witness_RetransmitByteIsPackedInNibbles : 15 ≤ 15 ∧ 0 ≤ 15 := by decide

theorem witness_WregWritesOneByteAndReturnsStatus :
    (ready [0x0E#8, 0#8] []).Idle ∧ (ready [0x0E#8, 0#8] []).env.replies = ans 0x0E#8 :: ans 0#8 :: [] := by
  decide

theorem witness_RregReturnsTheSecondByte :
    (ready [0x0E#8, 0#8] []).Idle ∧ (ready [0x0E#8, 0#8] []).env.replies = ans 0x0E#8 :: ans 0#8 :: [] := by
  decide

/-- Counts 0 and `N_MAX`, with a fixed command. -/
theorem witness_RbufCollectsTheBytesInOrder :
    (ready (plenty 33) []).Idle ∧ 32 ≤ Params.default.nMax
      ∧ (ready (plenty 33) []).env.replies = ans 0x0E#8 :: ((plenty 32).map ans ++ [])
      ∧ ((plenty 32).map ans).length = 32
      ∧ (ready [0x0E#8] []).Idle ∧ 0 ≤ Params.default.nMax
      ∧ (ready [0x0E#8] []).env.replies = ans 0x0E#8 :: ([] ++ [])
      ∧ 0x61#8 ∈ (ready (plenty 33) []).params.fixedCommands := by decide

/-- Lengths 0 and `N_MAX`, with a fixed command. -/
theorem witness_WbufSendsTheBytesInOrder :
    (ready (plenty 33) []).Idle ∧ upTo32.length ≤ Params.default.nMax
      ∧ (ready (plenty 33) []).env.replies = ans 0x0E#8 :: ((plenty 32).map ans ++ [])
      ∧ ((plenty 32).map ans).length = upTo32.length
      ∧ (ready [0x0E#8] []).Idle ∧ ([] : List Byte).length ≤ Params.default.nMax
      ∧ (ready [0x0E#8] []).env.replies = ans 0x0E#8 :: ([] ++ [])
      ∧ 0xFF#8 ∈ (ready [0x0E#8] []).params.fixedCommands := by decide

/-- An idle machine whose TX FIFO holds a payload, with chip-enable low: raising it triggers the chip. -/
def loaded : State := { State.reset with chip := { Chip.reset with txFifo := [[0xAB#8]] } }

theorem witness_SetceDrivesChipEnableOnly :
    State.reset.Idle ∧ State.reset.chip.txFifo = []
      ∧ loaded.Idle ∧ loaded.ce = .low ∧ loaded.chip.txFifo ≠ [] := by decide

theorem witness_WireReadsAreBracketsOfDummyBytes :
    (ready (plenty 33) []).Idle ∧ 32 ≤ (ready (plenty 33) []).params.nMax
      ∧ (ready (plenty 33) []).env.replies = ans 0x0E#8 :: ((plenty 32).map ans ++ [])
      ∧ ((plenty 32).map ans).length = 32 := by decide

theorem witness_WireWritesAreBracketsOfTheirBytes :
    (ready (plenty 33) []).Idle ∧ upTo32.length ≤ (ready (plenty 33) []).params.nMax
      ∧ (ready (plenty 33) []).env.replies = ans 0x0E#8 :: ((plenty 32).map ans ++ [])
      ∧ ((plenty 32).map ans).length = upTo32.length := by decide

/-- With the default empty trailer, and with a trailer of one byte (V39a). -/
theorem witness_FlushesAndNopSendTheirHeadByte :
    (ready [0x0E#8] []).Idle ∧ (ready [0x0E#8] []).env.replies = ans 0x0E#8 :: ([] ++ [])
      ∧ ([] : List Reply).length = (ready [0x0E#8] []).params.flushTrailer.length
      ∧ (readyWith { Params.default with flushTrailer := [0x00#8] } (plenty 2) []).Idle
      ∧ [ans 0x0E#8].length
          = (readyWith { Params.default with flushTrailer := [0x00#8] } (plenty 2) []).params.flushTrailer.length := by
  decide

theorem witness_AFramerOperationEmitsNPlusThreeEvents :
    (ready [0x0E#8] []).Idle
      ∧ carriedBy Params.default .nop = some (opWbuf .cmd 0xFF#8 [])
      ∧ ∃ t, exec .nop (ready [0x0E#8] []) = .next t ∧ t.busy = false :=
  ⟨by decide, rfl, _, rfl, by decide⟩

theorem witness_FramerOperationsLeaveChipEnableAndTheLineAlone :
    (ready [0x0E#8] [.low]).Idle
      ∧ carriedBy Params.default (.wreg 0x05#5 0x28#8) = some (opWreg 0x05#5 0x28#8)
      ∧ ∃ t, exec (.wreg 0x05#5 0x28#8) (ready [0x0E#8] [.low]) = .next t :=
  ⟨by decide, rfl, _, rfl⟩

/-- No answer at all, and one answer too few. -/
theorem witness_AnUnansweredFramerOperationHangs :
    (ready [] []).Idle ∧ (Instr.wreg 0x05#5 0x28#8).WellFormed Params.default
      ∧ carriedBy Params.default (.wreg 0x05#5 0x28#8) = some (opWreg 0x05#5 0x28#8)
      ∧ (ready [] []).env.replies.length ≤ (opOut Params.default (opWreg 0x05#5 0x28#8)).length
      ∧ (ready [0x0E#8] []).Idle
      ∧ (ready [0x0E#8] []).env.replies.length ≤ (opOut Params.default (opWreg 0x05#5 0x28#8)).length := by
  decide

theorem witness_FramerPhasesStepAsTabulated :
    (phase (.frame .load .sel) .low).busy = true
      ∧ (phase (.frame .load .head) .low).env.replies = [ans 0x2E#8]
      ∧ (ready [] []).env.replies = []
      ∧ (txnOut (phase (.frame .load .data) .low) .load)[(phase (.frame .load .data) .low).idx]? = some 0xAB#8
      ∧ (phase (.frame .load .data) .low).idx ≤ (phase (.frame .load .data) .low).inBytes.length
      ∧ (phase (.frame .load .rel) .low).seq = .frame .load .rel := by decide

theorem witness_OperandLatchesHoldWhileBusy : polling.busy = true := by decide

theorem witness_TransmitPhasesStepAsTabulated :
    (phase .tArm .low).busy = true ∧ (phase .tArm .low).seq = .tArm
      ∧ (phase .tPoll .high).env.sample.level = .high ∧ (phase .tPoll .low).env.sample.level = .low
      ∧ (phase .tSettle .low).seq = .tSettle ∧ (phase (.frame .rdst .rel) .low).seq = .frame .rdst .rel
      ∧ (phase .tClass .low).seq = .tClass ∧ (phase .tRet .low).seq = .tRet := by decide

/-- V36 (a sample of 1, then 0; the flush happens), V28 with an empty payload (no flush), and a line that keeps the
level 0 with nothing scripted. -/
theorem witness_TxpktRunsFromLoadToReturn :
    (ready [0x0E#8, 0#8, 0x0E#8, 0x2E#8, 0x2E#8, 0#8, 0x0E#8] [.high, .low]).Idle
      ∧ [0xAB#8].length ≤ Params.default.nMax
      ∧ (ready [0x0E#8, 0#8, 0x0E#8, 0x2E#8, 0x2E#8, 0#8, 0x0E#8] [.high, .low]).env.replies
          = ans 0x0E#8 :: ([ans 0#8] ++ ans 0x0E#8 :: ans 0x2E#8 :: ans 0x2E#8 :: ans 0#8
              :: ([ans 0x0E#8] ++ []))
      ∧ [ans 0x0E#8].length
          = (if (ans 0x2E#8).rx &&& 0x30#8 = 0x00#8 then 0 else 1 + Params.default.flushTrailer.length)
      ∧ NextLow (ready [0x0E#8, 0#8, 0x0E#8, 0x2E#8, 0x2E#8, 0#8, 0x0E#8] [.high, .low]).env
          [smp .high] (smp .low) []
      ∧ ([] : List Reply).length
          = (if (ans 0x00#8).rx &&& 0x30#8 = 0x00#8 then 0 else 1 + Params.default.flushTrailer.length)
      ∧ NextLow { Env.silent with line := .low } [] (smp .low) [] :=
  ⟨by decide, by decide, by decide, by decide, ⟨by decide, rfl, .inl (by decide)⟩, by decide,
    ⟨by decide, rfl, .inr (by decide)⟩⟩

theorem witness_TxpktClearsTheBitsItReadAndFlushes :
    Params.default.opcodesWf = true ∧ Params.default.aStatus.toNat ≤ 0x17
      ∧ Params.default.aFifoStatus ≠ Params.default.aStatus
      ∧ (ready [0x0E#8, 0x0E#8, 0x2E#8, 0x2E#8, 0#8, 0x0E#8] [.low]).Idle
      ∧ (ready [0x0E#8, 0x0E#8, 0x2E#8, 0x2E#8, 0#8, 0x0E#8] [.low]).env.replies
          = ans 0x0E#8 :: ([] ++ ans 0x0E#8 :: ans 0x2E#8 :: ans 0x2E#8 :: ans 0#8 :: ([ans 0x0E#8] ++ []))
      ∧ [ans 0x0E#8].length
          = (if (ans 0x2E#8).rx &&& 0x30#8 = 0x00#8 then 0 else 1 + Params.default.flushTrailer.length)
      ∧ (∃ t, exec (.txpkt []) (ready [0x0E#8, 0x0E#8, 0x2E#8, 0x2E#8, 0#8, 0x0E#8] [.low]) = .next t
          ∧ t.busy = false)
      ∧ (∃ t, exec (.txpkt [0xAB#8]) (ready [0x0E#8, 0#8, 0x0E#8, 0x00#8, 0x0E#8, 0#8] [.low]) = .next t
          ∧ t.busy = false)
      ∧ (ready [0x0E#8, 0#8, 0x0E#8, 0x00#8, 0x0E#8, 0#8] [.low]).csn = .high
      ∧ Quiet (ready [0x0E#8, 0#8, 0x0E#8, 0x00#8, 0x0E#8, 0#8] [.low]).env.replies
      ∧ ∀ x ∈ (ready [0x0E#8, 0#8, 0x0E#8, 0x00#8, 0x0E#8, 0#8] [.low]).env.samples, x.chip = none :=
  ⟨by decide, by decide, by decide, by decide, by decide, by decide, ⟨_, rfl, by decide⟩, ⟨_, rfl, by decide⟩,
    by decide, by unfold Quiet; decide, by decide⟩

theorem witness_OutcomeIsClassifiedFromTheStatusRead :
    (ready (plenty 5) [.low]).Idle ∧ ∃ t, exec (.txpkt []) (ready (plenty 5) [.low]) = .next t ∧ t.busy = false :=
  ⟨by decide, _, rfl, by decide⟩

/-- V35. -/
theorem witness_TxpktNeverReturnsIfTheLineIsNeverAsserted :
    (ready (plenty 2) [.high]).Idle ∧ [0xAB#8].length ≤ Params.default.nMax
      ∧ (ready (plenty 2) [.high]).env.replies = ans 0x0E#8 :: ([ans 0x0E#8] ++ [])
      ∧ [ans 0x0E#8].length = [0xAB#8].length
      ∧ (∀ x ∈ (ready (plenty 2) [.high]).env.samples, x.level = .high)
      ∧ (ready (plenty 2) [.high]).env.line = .high := by decide

/-- No answer; all of the load's but none, or one, of the read's; none of the write-back's; none of the flush's, which
STATUS 2E asks for. -/
theorem witness_AnUnansweredTxpktHangs :
    (ready [] []).Idle ∧ [0xAB#8].length ≤ Params.default.nMax
      ∧ (ready [] []).env.replies.length ≤ [0xAB#8].length
      ∧ (ready (plenty 2) [.low]).env.replies = ans 0x0E#8 :: ([ans 0x0E#8] ++ [])
      ∧ NextLow (ready (plenty 2) [.low]).env [] (smp .low) []
      ∧ (ready (plenty 3) [.low]).env.replies = ans 0x0E#8 :: ([ans 0x0E#8] ++ [ans 0x0E#8])
      ∧ (ready [0x0E#8, 0x0E#8, 0x0E#8, 0x2E#8] [.low]).env.replies
          = ans 0x0E#8 :: ([ans 0x0E#8] ++ ans 0x0E#8 :: ans 0x2E#8 :: [])
      ∧ (ready [0x0E#8, 0x0E#8, 0x0E#8, 0x2E#8, 0x2E#8, 0x00#8] [.low]).env.replies
          = ans 0x0E#8 :: ([ans 0x0E#8] ++ ans 0x0E#8 :: ans 0x2E#8 :: ans 0x2E#8 :: ans 0x00#8 :: [])
      ∧ 0x2E#8 &&& 0x30#8 ≠ 0x00#8 := by
  unfold NextLow
  decide

theorem witness_TxpktReturnsWithTheLinesReleased :
    (ready (plenty 5) [.low]).Idle ∧ ∃ t, exec (.txpkt []) (ready (plenty 5) [.low]) = .next t ∧ t.busy = false :=
  ⟨by decide, _, rfl, by decide⟩

theorem witness_TxpktDoesNotLookAtChipEnable :
    (ready (plenty 5) [.low]).Idle ∧ ∃ t, exec (.txpkt []) (ready (plenty 5) [.low]) = .next t :=
  ⟨by decide, _, rfl⟩

theorem witness_OnlyTheStatusByteDecidesTheOutcome :
    (ready (plenty 5) [.low]).Idle
      ∧ ([0#8, 0#8, 0x0E#8, 0#8, 0#8].map ans).length = (ready (plenty 5) [.low]).env.replies.length
      ∧ ((ready (plenty 5) [.low]).env.replies)[2]? = some (ans 0x0E#8)
      ∧ ([0#8, 0#8, 0x0E#8, 0#8, 0#8].map ans)[2]? = some (ans 0x0E#8)
      ∧ (∃ t, exec (.txpkt []) (ready (plenty 5) [.low]) = .next t ∧ t.busy = false)
      ∧ ∃ u, exec (.txpkt []) (ready [0#8, 0#8, 0x0E#8, 0#8, 0#8] [.low]) = .next u :=
  ⟨by decide, by decide, by decide, by decide, ⟨_, rfl, by decide⟩, _, rfl⟩

theorem witness_PresentComparesTheEcho :
    (ready (plenty 12) []).Idle
      ∧ (ready (plenty 12) []).env.replies
          = ans 0x0E#8 :: ((plenty 5).map ans ++ ans 0x0E#8 :: ((plenty 5).map ans ++ []))
      ∧ ((plenty 5).map ans).length = 5 := by decide

/-- Widths 5 and 3, the ends of the domain. -/
theorem witness_EnterTxAppliesTheConfigurationInOrder :
    (ready (plenty 22) []).Idle ∧ cfg3.wf Params.default = true
      ∧ (ready (plenty 22) []).env.replies
          = ans 0x0E#8 :: ans 0x0E#8 :: ans 0x0E#8 :: ans 0x0E#8 :: ans 0x0E#8 :: ans 0x0E#8 :: ans 0x0E#8
              :: ans 0x0E#8 :: ans 0x0E#8 :: ((plenty 5).map ans ++ ans 0x0E#8 :: ans 0x0E#8 :: ans 0x0E#8
              :: ((plenty 5).map ans ++ []))
      ∧ ((plenty 5).map ans).length = cfg3.width
      ∧ ({ cfg3 with width := 3, addr := [1#8, 2#8, 3#8] } : TxConfig).wf Params.default = true
      ∧ ((plenty 3).map ans).length = 3 := by decide

theorem witness_SetChWritesTheChannel :
    (ready (plenty 2) []).Idle ∧ 127 ≤ 127 ∧ 0 ≤ 127
      ∧ (ready (plenty 2) []).env.replies = ans 0x0E#8 :: ans 0x0E#8 :: [] := by decide

theorem witness_PwrDnClearsThePowerUpBit :
    (ready (plenty 4) []).Idle
      ∧ (ready (plenty 4) []).env.replies
          = ans 0x0E#8 :: ans 0x0E#8 :: ans 0x0E#8 :: ans 0x0E#8 :: [] := by decide

theorem witness_WakeAndSetPwrModifyOneField :
    (ready (plenty 4) []).Idle
      ∧ (ready (plenty 4) []).env.replies
          = ans 0x0E#8 :: ans 0x0E#8 :: ans 0x0E#8 :: ans 0x0E#8 :: [] := by decide

/-- One answer too few for each sequence, and none. -/
theorem witness_AnUnansweredSequenceHangs :
    (ready (plenty 11) []).Idle ∧ Instr.present.WellFormed Params.default
      ∧ (ready (plenty 11) []).env.replies.length < 12
      ∧ (Instr.enterTx cfg3).WellFormed Params.default
      ∧ (ready (plenty 21) []).env.replies.length < 12 + 2 * cfg3.width
      ∧ (Instr.setCh 127).WellFormed Params.default ∧ (ready (plenty 1) []).env.replies.length < 2
      ∧ Instr.pwrDn.WellFormed Params.default ∧ Instr.wake.WellFormed Params.default
      ∧ (Instr.setPwr 0x02#8).WellFormed Params.default ∧ (ready (plenty 3) []).env.replies.length < 4
      ∧ Instr.flushTxFifo.WellFormed Params.default
      ∧ (ready [] []).env.replies.length < 1 + Params.default.flushTrailer.length := by decide

/-- P1: the chip answers the read with the byte just written. -/
theorem witness_AWrittenRegisterIsReadBack :
    (ready [0x0E#8, 0#8, 0x0E#8, 0x28#8] []).Idle ∧ Params.default.opcodesWf = true
      ∧ (ready [0x0E#8, 0#8, 0x0E#8, 0x28#8] []).csn = .high ∧ (0x05#5 : RegAddr).toNat ≤ 0x17
      ∧ (0x17#5 : RegAddr).toNat ≤ 0x17 ∧ 0x05#5 ≠ Params.default.aStatus
      ∧ (ready [0x0E#8, 0#8, 0x0E#8, 0x28#8] []).env.replies
          = ans 0x0E#8 :: ans 0#8 :: ans 0x0E#8 :: ans 0x28#8 :: []
      ∧ ∃ t, exec (.wreg 0x05#5 0x28#8) (ready [0x0E#8, 0#8, 0x0E#8, 0x28#8] []) = .next t
          ∧ Chip.answer t.params t.chip
              (some { cmd := some (t.params.opRRegister ||| regByte 0x05#5), data := [] })
            = some (ans 0x28#8).rx :=
  ⟨by decide, by decide, by decide, by decide, by decide, by decide, by decide, _, rfl, by decide⟩

/-- The clause for FIFO status: 0xEF is written, and the empty TX FIFO shows in bit 4. -/
theorem witness_AWrittenRegisterIsReadBack_fifo :
    Params.default.aFifoStatus.toNat ≤ 0x17 ∧ Params.default.aFifoStatus ≠ Params.default.aStatus
      ∧ ∃ t, exec (.wreg Params.default.aFifoStatus 0xEF#8) (ready [0x0E#8, 0#8, 0x0E#8, 0xFF#8] []) = .next t
          ∧ Chip.answer t.params t.chip
              (some { cmd := some (t.params.opRRegister ||| regByte Params.default.aFifoStatus), data := [] })
            = some (ans 0xFF#8).rx :=
  ⟨by decide, by decide, _, rfl, by decide⟩

/-- The three forms; WBUF with a surplus byte, and with none. -/
theorem witness_StatusIsWriteOneToClear :
    (ready (plenty 3) []).Idle ∧ Params.default.opcodesWf = true ∧ Params.default.aStatus.toNat ≤ 0x17
      ∧ Params.default.aStatus ≠ Params.default.aTxAddr ∧ Params.default.aStatus ≠ Params.default.aRxAddrP0
      ∧ (ready (plenty 3) []).csn = .high
      ∧ (Instr.wreg Params.default.aStatus 0x30#8).WellFormed Params.default
      ∧ (Instr.wRegister Params.default.aStatus [0x30#8]).WellFormed Params.default
      ∧ (Instr.wbufReg Params.default.aStatus [0x30#8, 0x00#8]).WellFormed Params.default
      ∧ (Instr.wbufReg Params.default.aStatus []).WellFormed Params.default
      ∧ (ready (plenty 3) []).env.replies = ans 0x0E#8 :: ([ans 0x0E#8] ++ [ans 0x0E#8])
      ∧ (ready (plenty 3) []).env.replies = ans 0x0E#8 :: ([ans 0x0E#8, ans 0x0E#8] ++ [])
      ∧ (ready (plenty 3) []).env.replies = ans 0x0E#8 :: ([] ++ [ans 0x0E#8, ans 0x0E#8])
      ∧ Quiet ([ans 0x0E#8, ans 0x0E#8].drop 1) ∧ Quiet (([] : List Reply).drop 1) := by
  unfold Quiet; decide

/-- RF_CH and another register, in the three forms, and the two sequences. -/
theorem witness_TheChannelWriteClearsTheCounter :
    (ready (plenty 2) []).Idle ∧ Params.default.opcodesWf = true ∧ Params.default.aRfCh.toNat ≤ 0x17
      ∧ Params.default.aRfCh ≠ Params.default.aStatus ∧ (ready (plenty 2) []).csn = .high
      ∧ (ready (plenty 2) []).env.replies = ans 0x0E#8 :: ([ans 0x0E#8] ++ [])
      ∧ Quiet ([ans 0x0E#8].drop 1) ∧ 0x05#5 = Params.default.aRfCh ∧ 0x06#5 ≠ Params.default.aRfCh
      ∧ (Instr.wreg 0x05#5 0x28#8).WellFormed Params.default
      ∧ (Instr.wbufReg 0x05#5 [0x28#8]).WellFormed Params.default
      ∧ (Instr.wRegister 0x06#5 [0x28#8]).WellFormed Params.default
      ∧ (ready (plenty 22) []).Idle ∧ Quiet (ready (plenty 22) []).env.replies
      ∧ (∃ t, exec (.setCh 76) (ready (plenty 22) []) = .next t ∧ t.Idle)
      ∧ ∃ t, exec (.enterTx cfg3) (ready (plenty 22) []) = .next t ∧ t.Idle :=
  ⟨by decide, by decide, by decide, by decide, by decide, by decide, by unfold Quiet; decide, by decide,
    by decide, by decide, by decide, by decide, by decide, by unfold Quiet; decide, ⟨_, rfl, by decide⟩,
    _, rfl, by decide⟩

theorem witness_PayloadsAreQueuedAndFlushed :
    (ready (plenty 3) []).Idle ∧ Params.default.opcodesWf = true ∧ (ready (plenty 3) []).csn = .high
      ∧ (ready (plenty 3) []).env.replies = ans 0x0E#8 :: ((plenty 2).map ans ++ [])
      ∧ (ready (plenty 3) []).env.replies = ans 0x0E#8 :: ([] ++ (plenty 2).map ans)
      ∧ Quiet (ans 0x0E#8 :: (plenty 2).map ans) ∧ [1#8, 2#8].length ≤ Params.default.nMax
      ∧ ((plenty 2).map ans).length = [1#8, 2#8].length
      ∧ ([] : List Reply).length = Params.default.flushTrailer.length
      ∧ Params.default.aFifoStatus ≠ Params.default.aStatus := by
  unfold Quiet; decide

/-- A flush and a load, each followed by a read of FIFO status that the chip answers. -/
theorem witness_FifoStatusShowsTheLoadAndTheFlush :
    (ready [0x0E#8, 0x0E#8, 0x11#8] []).Idle ∧ Params.default.opcodesWf = true
      ∧ (ready [0x0E#8, 0x0E#8, 0x11#8] []).csn = .high ∧ Params.default.aFifoStatus.toNat ≤ 0x17
      ∧ Params.default.aFifoStatus ≠ Params.default.aStatus
      ∧ (∃ t, exec .flushTx (ready [0x0E#8, 0x0E#8, 0x11#8] []) = .next t ∧ t.busy = false
          ∧ t.env.replies = [ans 0x0E#8, ans 0x11#8]
          ∧ Chip.answer t.params t.chip
              (some { cmd := some (t.params.opRRegister ||| regByte Params.default.aFifoStatus), data := [] })
            = some (ans 0x11#8).rx)
      ∧ (∃ t, exec .flushTxFifo (ready [0x0E#8, 0x0E#8, 0x11#8] []) = .next t ∧ t.busy = false)
      ∧ ∃ t, exec (.wTxPayload [0xAB#8]) (ready [0x0E#8, 0x0E#8, 0x0E#8, 0x01#8] []) = .next t
          ∧ t.busy = false ∧ t.env.replies = [ans 0x0E#8, ans 0x01#8]
          ∧ Chip.answer t.params t.chip
              (some { cmd := some (t.params.opRRegister ||| regByte Params.default.aFifoStatus), data := [] })
            = some (ans 0x01#8).rx :=
  ⟨by decide, by decide, by decide, by decide, by decide, ⟨_, rfl, by decide, by decide, by decide⟩,
    ⟨_, rfl, by decide⟩, _, rfl, by decide, by decide, by decide⟩

/-- Five bytes into TX_ADDR (the last at index 4, an index 5 that no byte has), one into RF_CH. -/
theorem witness_RegisterWritesStoreTheirBytesAndNoOther :
    (ready (plenty 6) []).Idle ∧ Params.default.opcodesWf = true ∧ (ready (plenty 6) []).csn = .high
      ∧ 0x10#5 ≠ Params.default.aStatus
      ∧ (Instr.wbufReg 0x10#5 [1#8, 2#8, 3#8, 4#8, 5#8]).WellFormed Params.default
      ∧ (Instr.wRegister 0x10#5 [1#8, 2#8, 3#8, 4#8, 5#8]).WellFormed Params.default
      ∧ (Instr.wreg 0x05#5 0x28#8).WellFormed Params.default
      ∧ (ready (plenty 6) []).env.replies = ans 0x0E#8 :: ((plenty 5).map ans ++ [])
      ∧ ((plenty 5).map ans).length = [1#8, 2#8, 3#8, 4#8, 5#8].length
      ∧ Quiet (ans 0x0E#8 :: (plenty 5).map ans)
      ∧ regByteExists Params.default 0x10#5 4 = true ∧ regByteExists Params.default 0x10#5 5 = false
      ∧ regByteExists Params.default 0x05#5 0 = true ∧ regByteExists Params.default 0x18#5 0 = false
      ∧ 0x05#5 = Params.default.aRfCh ∧ 0x06#5 ∈ namedRegisters Params.default
      ∧ 0x17#5 = Params.default.aFifoStatus ∧ 0x17#5 ≠ Params.default.aStatus
      ∧ (Instr.wreg 0x17#5 0xFF#8).WellFormed Params.default
      ∧ regByteExists Params.default 0x17#5 0 = true := by
  unfold Quiet; decide

theorem witness_ReadsLeaveTheChipAsItIs :
    (ready (plenty 3) []).Idle ∧ Params.default.opcodesWf = true ∧ Quiet (ready (plenty 3) []).env.replies
      ∧ (∃ t, exec (.rreg 0x05#5) (ready (plenty 3) []) = .next t)
      ∧ (∃ t, exec (.rbufReg 0x05#5 2) (ready (plenty 3) []) = .next t)
      ∧ (∃ t, exec (.rbufCmd 0x61#8 2) (ready (plenty 3) []) = .next t)
      ∧ (∃ t, exec (.rRegister 0x05#5 2) (ready (plenty 3) []) = .next t)
      ∧ (∃ t, exec (.rRxPayload 2) (ready (plenty 3) []) = .next t)
      ∧ ∃ t, exec .nop (ready (plenty 3) []) = .next t :=
  ⟨by decide, by decide, by unfold Quiet; decide, ⟨_, rfl⟩, ⟨_, rfl⟩, ⟨_, rfl⟩, ⟨_, rfl⟩, ⟨_, rfl⟩, _, rfl⟩

/-- F18 and F19. -/
theorem witness_TheErratumLeavesChipSelectLow :
    (readyWith erratum (plenty 5) []).Idle ∧ (readyWith erratum (plenty 5) []).params.rbufCloseLow = true
      ∧ 2 ≤ erratum.nMax
      ∧ (readyWith erratum (plenty 5) []).env.replies
          = ans 0x0E#8 :: ((plenty 2).map ans ++ ans 0x0E#8 :: ans 0x0E#8 :: [])
      ∧ ((plenty 2).map ans).length = 2 := by decide

/-- A chip whose CONFIG holds 0x0E, and answers that return it (P6). -/
def configured : State :=
  { ready [0x0E#8, 0x0E#8, 0x0E#8, 0#8, 0x0E#8, 0x0C#8, 0x0E#8, 0#8] [] with
    chip := { Chip.reset with regs := [(0, 0x0E#8)] } }

theorem witness_PowerDownThenWakeKeepsTheOtherRegisters :
    configured.Idle ∧ configured.params.opcodesWf = true ∧ configured.params.aConfig.toNat ≤ 0x17
      ∧ configured.params.aConfig ≠ configured.params.aStatus
      ∧ configured.params.aConfig ≠ configured.params.aFifoStatus ∧ configured.params.mPwrUp ≠ 0x00#8
      ∧ configured.csn = .high
      ∧ configured.env.replies
          = ans 0x0E#8 :: ans 0x0E#8 :: ans 0x0E#8 :: ans 0#8 :: ans 0x0E#8 :: ans 0x0C#8 :: ans 0x0E#8
              :: ans 0#8 :: []
      ∧ Quiet [ans 0x0E#8, ans 0x0E#8, ans 0x0E#8, ans 0#8, ans 0x0E#8, ans 0x0C#8, ans 0x0E#8, ans 0#8]
      ∧ Chip.readByte configured.params configured.chip configured.params.aConfig 0 = 0x0E#8
      ∧ (ans 0x0E#8).rx = 0x0E#8 ∧ (ans 0x0C#8).rx = 0x0E#8 &&& ~~~configured.params.mPwrUp
      ∧ ∃ t, exec .pwrDn configured = .next t :=
  ⟨by decide, by decide, by decide, by decide, by decide, by decide, by decide, by decide,
    by unfold Quiet; decide, by decide, by decide, by decide, _, rfl⟩

theorem witness_EnterTxProgramsTheRegisters :
    (ready (plenty 22) []).Idle ∧ Params.default.opcodesWf = true ∧ cfg3.wf Params.default = true
      ∧ (ready (plenty 22) []).csn = .high ∧ Quiet (ready (plenty 22) []).env.replies
      ∧ [Params.default.aStatus, Params.default.aFifoStatus, Params.default.aSetupRetr, Params.default.aRfSetup, Params.default.aConfig,
          Params.default.aRfCh, Params.default.aTxAddr, Params.default.aEnAa, Params.default.aRxAddrP0].Nodup
      ∧ (∀ a ∈ [Params.default.aSetupRetr, Params.default.aRfSetup, Params.default.aConfig,
          Params.default.aRfCh, Params.default.aTxAddr, Params.default.aEnAa, Params.default.aRxAddrP0],
          a.toNat ≤ 0x17)
      ∧ ∃ t, exec (.enterTx cfg3) (ready (plenty 22) []) = .next t ∧ t.Idle :=
  ⟨by decide, by decide, by decide, by decide, by unfold Quiet; decide, by decide, by decide, _, rfl,
    by decide⟩

theorem witness_PresentLeavesThePatternInTxAddr :
    (ready (plenty 12) []).Idle ∧ Params.default.opcodesWf = true ∧ Params.default.aTxAddr.toNat ≤ 0x17
      ∧ Params.default.aTxAddr ≠ Params.default.aStatus
      ∧ Params.default.aTxAddr ≠ Params.default.aFifoStatus ∧ (ready (plenty 12) []).csn = .high
      ∧ Quiet (ready (plenty 12) []).env.replies
      ∧ ∃ t, exec .present (ready (plenty 12) []) = .next t ∧ t.Idle :=
  ⟨by decide, by decide, by decide, by decide, by decide, by decide, by unfold Quiet; decide, _, rfl,
    by decide⟩

/-- RF_SETUP holds 0x0F at reset (log entry 9), and the chip returns it. -/
theorem witness_SetPwrWritesThePowerField :
    (ready [0x0E#8, 0x0F#8, 0x0E#8, 0#8] []).Idle ∧ Params.default.opcodesWf = true
      ∧ Params.default.aRfSetup.toNat ≤ 0x17 ∧ Params.default.aRfSetup ≠ Params.default.aStatus
      ∧ Params.default.aRfSetup ≠ Params.default.aFifoStatus
      ∧ (ready [0x0E#8, 0x0F#8, 0x0E#8, 0#8] []).csn = .high
      ∧ (ready [0x0E#8, 0x0F#8, 0x0E#8, 0#8] []).env.replies
          = ans 0x0E#8 :: ans 0x0F#8 :: ans 0x0E#8 :: ans 0#8 :: []
      ∧ Quiet [ans 0x0E#8, ans 0x0F#8, ans 0x0E#8, ans 0#8]
      ∧ Chip.readByte Params.default Chip.reset Params.default.aRfSetup 0 = 0x0F#8
      ∧ (ans 0x0F#8).rx = 0x0F#8 := by
  unfold Quiet; decide

theorem witness_SequencesLeaveTheQueuesAndTheCounters :
    (ready (plenty 22) []).Idle ∧ Params.default.opcodesWf = true ∧ Quiet (ready (plenty 22) []).env.replies
      ∧ Params.default.aRfCh ∉ [Params.default.aTxAddr, Params.default.aConfig, Params.default.aRfSetup]
      ∧ Params.default.aConfig ∉ [Params.default.aTxAddr, Params.default.aRfCh, Params.default.aRfSetup]
      ∧ (∃ t, exec .present (ready (plenty 22) []) = .next t)
      ∧ (∃ t, exec (.enterTx cfg3) (ready (plenty 22) []) = .next t)
      ∧ (∃ t, exec (.setCh 76) (ready (plenty 22) []) = .next t)
      ∧ (∃ t, exec .pwrDn (ready (plenty 22) []) = .next t)
      ∧ (∃ t, exec .wake (ready (plenty 22) []) = .next t)
      ∧ ∃ t, exec (.setPwr 0x06#8) (ready (plenty 22) []) = .next t :=
  ⟨by decide, by decide, by unfold Quiet; decide, by decide, by decide, ⟨_, rfl⟩, ⟨_, rfl⟩, ⟨_, rfl⟩,
    ⟨_, rfl⟩, ⟨_, rfl⟩, _, rfl⟩

theorem witness_SequencesWriteOnlyTheRegistersTheyName :
    (ready (plenty 22) [.low]).Idle ∧ Params.default.opcodesWf = true
      ∧ Quiet (ready (plenty 22) [.low]).env.replies
      ∧ (∀ x ∈ (ready (plenty 22) [.low]).env.samples, x.chip = none)
      ∧ 0x17#5 ∈ namedRegisters Params.default
      ∧ 0x17#5 ∉ [Params.default.aSetupRetr, Params.default.aRfSetup, Params.default.aConfig,
          Params.default.aRfCh, Params.default.aTxAddr, Params.default.aEnAa, Params.default.aRxAddrP0]
      ∧ 0x05#5 ≠ Params.default.aStatus ∧ 0x05#5 ≠ Params.default.aFifoStatus
      ∧ (∃ t, exec .present (ready (plenty 22) [.low]) = .next t)
      ∧ (∃ t, exec (.enterTx cfg3) (ready (plenty 22) [.low]) = .next t)
      ∧ (∃ t, exec (.setCh 76) (ready (plenty 22) [.low]) = .next t)
      ∧ (∃ t, exec .pwrDn (ready (plenty 22) [.low]) = .next t)
      ∧ (∃ t, exec .wake (ready (plenty 22) [.low]) = .next t)
      ∧ (∃ t, exec (.setPwr 0x06#8) (ready (plenty 22) [.low]) = .next t)
      ∧ (∃ t, exec (.txpkt [1#8]) (ready (plenty 22) [.low]) = .next t)
      ∧ (∃ t, exec .flushTxFifo (ready (plenty 22) [.low]) = .next t)
      ∧ ∃ t, exec (.setce .high) (ready (plenty 22) [.low]) = .next t :=
  ⟨by decide, by decide, by unfold Quiet; decide, by decide, by decide, by decide, by decide, by decide,
    ⟨_, rfl⟩, ⟨_, rfl⟩, ⟨_, rfl⟩, ⟨_, rfl⟩, ⟨_, rfl⟩, ⟨_, rfl⟩, ⟨_, rfl⟩, ⟨_, rfl⟩, _, rfl⟩

/-- The erratum switch on, and both lines reset to the other level. -/
theorem witness_ResetMeetsTheInvariant :
    ({ erratum with resetCsn := .low, resetCe := .high } : Params).wf = true
      ∧ Params.default.wf = true := by decide

/-- A state in the middle of TXPKT meets the invariant, and a step answers a next state. -/
theorem witness_StepKeepsTheInvariant : Invariant polling ∧ ∃ t, step polling = .next t :=
  ⟨{  paramsWf := by decide, idle_iff := by decide, belongs := by decide, operands := by decide
      host := by decide, selected := by decide, released := by decide, armed := by decide
      settled := by decide, index := fun t h => by cases t <;> cases h
      closed := by decide, csnTrace := by decide, ceTrace := by decide, exchanges := by decide
      chipWf := by decide, envWf := by decide }, _, rfl⟩

theorem witness_ChipSelectIsHighWheneverIdle :
    Invariant returning ∧ returning.params.rbufCloseLow = false ∧ returning.params.resetCsn = .high
      ∧ ∃ t, step returning = .next t ∧ t.busy = false :=
  ⟨{  paramsWf := by decide, idle_iff := by decide, belongs := by decide, operands := by decide
      host := by decide, selected := by decide, released := by decide, armed := by decide
      settled := by decide, index := fun t h => by cases t <;> cases h
      closed := by decide, csnTrace := by decide, ceTrace := by decide, exchanges := by decide
      chipWf := by decide, envWf := by decide }, by decide, by decide, _, rfl, by decide⟩

theorem witness_StepKeepsTheParametersAndThePast : ∃ t, step polling = .next t := ⟨_, rfl⟩

theorem witness_AnOperationIsARunOfTheSequencer :
    ¬ polling.Idle ∧ (∃ t, step polling = .next t)
      ∧ ∃ t, exec (.wreg 0x05#5 0x28#8) (ready (plenty 2) []) = .next t :=
  ⟨by decide, ⟨_, rfl⟩, _, rfl⟩

/-- Two idle machines that differ in `ST`, `IN`, `S`, the operand latches and the last response. -/
theorem witness_NothingIsRetainedAcrossOperations :
    let s := ready (plenty 2) []
    let s' := { s with st := 0xFF#8, inBytes := [0xFF#8], sReg := 0xFF#8, ops := opTxpkt [0xAB#8],
                       idx := 7, resp := some (.value 0xFF#8) }
    s.Idle ∧ s'.Idle ∧ s'.params = s.params ∧ s'.csn = s.csn ∧ s'.ce = s.ce ∧ s'.env = s.env
      ∧ s'.chip = s.chip ∧ s'.bus = s.bus ∧ ∃ t, exec (.rreg 0x05#5) s = .next t :=
  ⟨by decide, by decide, rfl, rfl, rfl, rfl, rfl, rfl, _, rfl⟩

end Sys2Proof.Tests
end

section
/-! PROOF. The past of the machine: what a micro-step adds to the trace, and what no step ever changes
(00_scope.md rule R9, 10_state.md section 3). -/

namespace Sys2Proof.Machine

/-! ### A micro-step emits at most one event -/

/-- From `s` to `t` the trace grows by no more than one event. -/
def EmitsAtMostOne (s t : State) : Prop := t.trace = s.trace ∨ ∃ e, t.trace = s.trace ++ [e]

theorem EmitsAtMostOne.isPrefix {s t : State} (h : EmitsAtMostOne s t) : s.trace <+: t.trace := by
  obtain h | ⟨e, h⟩ := h
  · rw [h]
  · exact ⟨[e], h.symm⟩

theorem frameTick_emits (t : Txn) (f : FramePhase) (s : State) : EmitsAtMostOne s (frameTick t f s) := by
  cases f with
  | sel => exact .inr ⟨.csn .low, rfl⟩
  | head =>
    unfold frameTick frameHead
    dsimp only
    split
    · exact .inl rfl
    · exact .inr ⟨_, rfl⟩
  | data =>
    unfold frameTick frameData
    dsimp only
    split
    · exact .inl rfl
    · split
      · exact .inl rfl
      · exact .inr ⟨_, rfl⟩
  | rel => exact .inr ⟨.csn (txnClose s t), by cases t <;> rfl⟩

theorem blockTick_emits (s : State) : EmitsAtMostOne s (blockTick s) := by
  unfold blockTick
  cases s.seq with
  | frame t f => exact frameTick_emits t f s
  | idle | tClass => exact .inl rfl
  | cSet | tArm | tPoll | tSettle | tRet | ret => exact .inr ⟨_, rfl⟩

theorem hostTick_trace (s : State) : (hostTick s).trace = s.trace := by
  unfold hostTick
  split
  · rfl
  · rfl
  · split <;> rfl
  · rfl

theorem micro_emits (s : State) : EmitsAtMostOne s (micro s) := by
  unfold micro
  split
  · exact blockTick_emits s
  · exact .inl (hostTick_trace s)

/-! ### The constants of the machine -/

theorem blockTick_keeps_constants (s : State) :
    (blockTick s).params = s.params ∧ (blockTick s).env.line = s.env.line := by
  unfold blockTick
  cases s.seq with
  | frame t f =>
    obtain ⟨hp, -, -, -, -, -, -, -, -, hl⟩ := frameTick_keeps t f s
    exact ⟨hp, hl⟩
  | idle | cSet | tArm | tPoll | tSettle | tClass | tRet | ret => exact ⟨rfl, rfl⟩

theorem hostTick_keeps_constants (s : State) :
    (hostTick s).params = s.params ∧ (hostTick s).env.line = s.env.line := by
  unfold hostTick
  split
  · exact ⟨rfl, rfl⟩
  · exact ⟨rfl, rfl⟩
  · split <;> exact ⟨rfl, rfl⟩
  · exact ⟨rfl, rfl⟩

theorem micro_keeps_constants (s : State) :
    (micro s).params = s.params ∧ (micro s).env.line = s.env.line := by
  unfold micro
  split
  · exact blockTick_keeps_constants s
  · exact hostTick_keeps_constants s

/-! ### A later state of the same machine -/

/-- `t` is a later state than `s`: the constants are the same, and what has happened by `s` is the beginning of what
has happened by `t`. -/
structure Later (s t : State) : Prop where
  params : t.params = s.params
  line : t.env.line = s.env.line
  past : s.trace <+: t.trace

theorem Later.refl (s : State) : Later s s := ⟨rfl, rfl, List.prefix_refl _⟩

theorem Later.trans {s t u : State} (h : Later s t) (h' : Later t u) : Later s u :=
  ⟨h'.params.trans h.params, h'.line.trans h.line, h.past.trans h'.past⟩

theorem later_micro (s : State) : Later s (micro s) :=
  have ⟨hp, hl⟩ := micro_keeps_constants s
  ⟨hp, hl, (micro_emits s).isPrefix⟩

theorem later_settle (s : State) : Later s (settle s) :=
  settle_induction (Later s) (fun t h => h.trans (later_micro t)) s (.refl s)

/-- The host's presentation of an operation's steps is no event and touches no constant, so only their run counts. -/
theorem later_exec (i : Instr) (s t : State) (h : exec i s = .next t) : Later s t := by
  rw [exec_eq_perform] at h
  obtain ⟨-, -, rfl⟩ := perform_next i _ s t h
  have hr := later_settle { s with hostSeq := hostSteps s.params i }
  exact ⟨hr.params, hr.line, hr.past⟩

/-- Whatever a step does, it goes on, waits or performs the next request; each leads to a later state. -/
theorem later_step (s t : State) (h : step s = .next t) : Later s t := by
  obtain ⟨-, rfl⟩ | ⟨-, -, rfl⟩ | ⟨r, rest, i, -, -, -, he⟩ := step_next s t h
  · exact (later_micro s).trans (later_settle _)
  · exact .refl _
  · have hr := later_exec i _ t he
    exact ⟨hr.params, hr.line, hr.past⟩

/-- Settles O58: every micro-step leads to a later state, so every run of them does, and every step is such a run. -/
theorem stepKeepsTheParametersAndThePast : Obligations.StepKeepsTheParametersAndThePast := by
  unfold Obligations.StepKeepsTheParametersAndThePast
  intro s t h
  obtain ⟨hp, hl, es, he⟩ := later_step s t h
  exact ⟨hp, hl, es, he.symm⟩

end Sys2Proof.Machine
end


section
/-! PROOF. What the block keeps while it is busy, and that it keeps nothing from one operation to the next
(10_state.md rules R14 and R16). Two runs of one operation are compared: as long as they agree on what the outside can
see and on the latches that the present phase can still read, they do the same. -/

namespace Sys2Proof.Machine

/-! ### What a micro-step of the block leaves alone -/

/-- No phase of the block writes an operand latch (R14), the host's result of PRESENT, or what the host has left to
present. -/
theorem blockTick_keeps (s : State) :
    (blockTick s).ops = s.ops ∧ (blockTick s).presence = s.presence ∧ (blockTick s).hostSeq = s.hostSeq := by
  unfold blockTick
  cases s.seq with
  | frame t f =>
    obtain ⟨-, ho, -, hh, -, -, -, hp, -, -⟩ := frameTick_keeps t f s
    exact ⟨ho, hp, hh⟩
  | idle | cSet | tArm | tPoll | tSettle | tClass | tRet | ret => exact ⟨rfl, rfl, rfl⟩

/-- Settles O25: a micro-step of a busy machine is one of the block's, and none of these writes an operand latch. -/
theorem operandLatchesHoldWhileBusy : Obligations.OperandLatchesHoldWhileBusy := by
  unfold Obligations.OperandLatchesHoldWhileBusy
  intro s hb
  rw [micro, if_pos hb]
  exact (blockTick_keeps s).1

/-! ### The host's micro-steps, one equation a case -/

section
variable {s : State} {l : List HostStep}

theorem hostTick_nil (hs : s.hostSeq = []) : hostTick s = s := by
  simp [hostTick, hs]

theorem hostTick_op {o : Operands} (hs : s.hostSeq = .op o :: l) :
    hostTick s = { s with hostSeq := l }.accept o := by
  simp [hostTick, hs]

theorem hostTick_writeBack_value {r : RegAddr} {keep set c : Byte} (hs : s.hostSeq = .writeBack r keep set :: l)
    (hc : s.resp = some (.value c)) :
    hostTick s = { s with hostSeq := l }.accept (opWreg r ((c &&& keep) ||| set)) := by
  simp [hostTick, hs, hc]

theorem hostTick_writeBack_end {r : RegAddr} {keep set : Byte} (hs : s.hostSeq = .writeBack r keep set :: l)
    (hc : ¬ ∃ c, s.resp = some (.value c)) : hostTick s = { s with hostSeq := l } := by
  unfold hostTick
  rw [hs]
  dsimp only
  split
  · exact absurd ⟨_, ‹_›⟩ hc
  · rfl

theorem hostTick_compare {pattern : List Byte} (hs : s.hostSeq = .compare pattern :: l) :
    hostTick s = { s with hostSeq := l, presence := some (matchesPattern s.resp pattern) } := by
  simp [hostTick, hs]

end

/-! ### Two runs that look the same from outside -/

/-- From outside, `s` and `s'` look the same: the lines, the environment, the chip and what it has received, whether the
block is busy and what the host has left to present, and the events since the pasts `a` and `b`. -/
structure SameOutside (a b : List Event) (s s' : State) : Prop where
  params : s'.params = s.params
  csn : s'.csn = s.csn
  ce : s'.ce = s.ce
  busy : s'.busy = s.busy
  hostSeq : s'.hostSeq = s.hostSeq
  env : s'.env = s.env
  chip : s'.chip = s.chip
  bus : s'.bus = s.bus
  events : ∃ es, s.trace = a ++ es ∧ s'.trace = b ++ es

section
variable {a b : List Event} {s s' : State}

theorem sameEvents_snoc (e : Event) (h : ∃ es, s.trace = a ++ es ∧ s'.trace = b ++ es) :
    ∃ es, s.trace ++ [e] = a ++ es ∧ s'.trace ++ [e] = b ++ es := by
  obtain ⟨es, h, h'⟩ := h
  exact ⟨es ++ [e], by rw [h, List.append_assoc], by rw [h', List.append_assoc]⟩

theorem SameOutside.goto (h : SameOutside a b s s') (q q' : Phase) :
    SameOutside a b (s.goto q) (s'.goto q') :=
  ⟨h.params, h.csn, h.ce, h.busy, h.hostSeq, h.env, h.chip, h.bus, h.events⟩

theorem SameOutside.driveCsn (h : SameOutside a b s s') (v : Level) :
    SameOutside a b (s.driveCsn v) (s'.driveCsn v) :=
  ⟨h.params, rfl, h.ce, h.busy, h.hostSeq, h.env, by simp [h.params, h.csn, h.bus, h.chip],
    by simp [h.csn], sameEvents_snoc _ h.events⟩

theorem SameOutside.driveCe (h : SameOutside a b s s') (v : Level) :
    SameOutside a b (s.driveCe v) (s'.driveCe v) :=
  ⟨h.params, h.csn, rfl, h.busy, h.hostSeq, h.env, by simp [h.ce, h.chip], h.bus, sameEvents_snoc _ h.events⟩

theorem SameOutside.xchg (h : SameOutside a b s s') (o : Byte) (r : Reply) (rest : List Reply) :
    SameOutside a b (s.xchg o r rest) (s'.xchg o r rest) :=
  ⟨h.params, h.csn, h.ce, h.busy, h.hostSeq, by simp [h.env], by simp [h.params, h.bus, h.chip],
    by simp [h.bus], sameEvents_snoc _ h.events⟩

theorem SameOutside.latchStatus (h : SameOutside a b s s') (v : Byte) :
    SameOutside a b (s.latchStatus v) (s'.latchStatus v) :=
  ⟨h.params, h.csn, h.ce, h.busy, h.hostSeq, h.env, h.chip, h.bus, h.events⟩

theorem SameOutside.latchData (h : SameOutside a b s s') (v : Byte) :
    SameOutside a b (s.latchData v) (s'.latchData v) :=
  ⟨h.params, h.csn, h.ce, h.busy, h.hostSeq, h.env, h.chip, h.bus, h.events⟩

theorem SameOutside.takeResult (h : SameOutside a b s s') (t : Txn) :
    SameOutside a b (takeResult t s) (takeResult t s') := by
  cases t with
  | rdst => exact ⟨h.params, h.csn, h.ce, h.busy, h.hostSeq, h.env, h.chip, h.bus, h.events⟩
  | op | load | clr | flush => exact h

theorem SameOutside.irqSample (h : SameOutside a b s s') : SameOutside a b s.irqSample s'.irqSample :=
  ⟨h.params, h.csn, h.ce, h.busy, h.hostSeq, by simp [h.env], by simp [h.env, h.chip], h.bus,
    by simpa [h.env] using sameEvents_snoc (.irq s.env.sample.level) h.events⟩

theorem SameOutside.finish (h : SameOutside a b s s') (r : Response) :
    SameOutside a b (s.finish r) (s'.finish r) :=
  ⟨h.params, h.csn, h.ce, rfl, h.hostSeq, h.env, h.chip, h.bus, sameEvents_snoc _ h.events⟩

/-- The host goes on to the rest of its sequence, with whatever result of PRESENT it has. -/
theorem SameOutside.hostDrops (h : SameOutside a b s s') (l : List HostStep) (p p' : Option Bool) :
    SameOutside a b { s with hostSeq := l, presence := p } { s' with hostSeq := l, presence := p' } :=
  ⟨h.params, h.csn, h.ce, h.busy, rfl, h.env, h.chip, h.bus, h.events⟩

theorem SameOutside.hostPresents (h : SameOutside a b s s') (o : Operands) (l : List HostStep) :
    SameOutside a b ({ s with hostSeq := l }.accept o) ({ s' with hostSeq := l }.accept o) :=
  ⟨h.params, h.csn, h.ce, rfl, rfl, h.env, h.chip, h.bus, h.events⟩

end

/-! ### The latches that can still be read -/

/-- The phases of TXPKT from which `S` is still read: to write it back, to test it and to return it (R116, R117). -/
def Phase.readsS : Phase → Bool
  | .frame .clr _ | .frame .flush _ | .tClass | .tRet => true
  | .frame .op _ | .frame .load _ | .frame .rdst _ | .idle | .cSet | .tArm | .tPoll | .tSettle | .ret => false

/-- Two busy blocks in the phase `q` agree on the latches of the current transaction that are still read: none before
its head byte is answered, `ST`, `IDX` and the bytes received so far inside it, and the response once the operation is
only to return. -/
def SameResult (s s' : State) : Phase → Prop
  | .frame _ .data => s'.st = s.st ∧ s'.idx = s.idx ∧ s'.inBytes.take s.idx = s.inBytes.take s.idx
  | .frame t .rel =>
    s'.st = s.st ∧ s'.inBytes.take (txnOut s t).length = s.inBytes.take (txnOut s t).length
  | .cSet | .ret => opResponse s' = opResponse s
  | .frame _ .sel | .frame _ .head | .idle | .tArm | .tPoll | .tSettle | .tClass | .tRet => True

/-- Two busy blocks are at the same point of the same operation, and agree on the latches that it still reads. -/
structure SameBlock (s s' : State) : Prop where
  seq : s'.seq = s.seq
  ops : s'.ops = s.ops
  sReg : s.seq.readsS = true → s'.sReg = s.sReg
  result : SameResult s s' s.seq

section
variable {a b : List Event} {s s' : State}

theorem txnHead_same (h : SameOutside a b s s') (hb : SameBlock s s') (t : Txn) :
    txnHead s' t = txnHead s t := by
  cases t <;> simp [txnHead, h.params, hb.ops]

theorem txnClose_same (h : SameOutside a b s s') (hb : SameBlock s s') (t : Txn) :
    txnClose s' t = txnClose s t := by
  cases t <;> simp [txnClose, h.params, hb.ops]

/-- The bytes of the open transaction agree: those that write `S` back are sent from phases that still read it. -/
theorem txnOut_same (h : SameOutside a b s s') (hb : SameBlock s s') {t : Txn} {f : FramePhase}
    (hq : s.seq = .frame t f) : txnOut s' t = txnOut s t := by
  cases t with
  | clr => simp [txnOut, hb.sReg (by rw [hq]; rfl)]
  | op | load | rdst | flush => simp [txnOut, h.params, hb.ops]

/-- The response of a framer operation comes from `ST` and from the bytes that its bracket received (R63). -/
theorem opResponse_same (ho : s'.ops = s.ops) (hst : s'.st = s.st)
    (hin : s'.inBytes.take (opOut s.params s.ops).length = s.inBytes.take (opOut s.params s.ops).length) :
    opResponse s' = opResponse s := by
  unfold opResponse
  rw [ho, hst]
  cases hs : s.ops.opsel with
  | rreg =>
    have h0 := congrArg (fun l => l.getD 0 0x00#8) hin
    simpa [opOut, hs, List.getElem?_take] using h0
  | rbuf => simpa [opOut, hs] using hin
  | wreg | wbuf | txpkt | setce => rfl

/-- Where a transaction goes on after its exchange number `i`: before the first data byte nothing received earlier is
read again, and after a data byte the blocks agree on all that `IN` holds. -/
theorem sameResult_dataOrRel {u u' : State} (t : Txn) (i : Nat) (hst : u'.st = u.st) (hi : u.idx = i)
    (hi' : u'.idx = i) (hin : i = 0 ∨ u'.inBytes = u.inBytes) (hout : txnOut u t = txnOut s t) :
    SameResult u u' (dataOrRel s t i) := by
  have htake (n : Nat) (hn : n ≤ i) : u'.inBytes.take n = u.inBytes.take n := by
    obtain h0 | h := hin
    · obtain rfl : n = 0 := by omega
      simp
    · rw [h]
  unfold dataOrRel
  split
  · exact ⟨hst, hi'.trans hi.symm, htake _ hi.le⟩
  · exact ⟨hst, htake _ (by rw [hout]; omega)⟩

theorem dataOrRel_frame (s : State) (t : Txn) (i : Nat) : ∃ f, dataOrRel s t i = .frame t f := by
  obtain h | h := dataOrRel_eq s t i
  · exact ⟨_, h⟩
  · exact ⟨_, h⟩

/-- Whether `S` is still read is the same in all phases of a transaction. -/
theorem SameBlock.sReg_of_frame (hb : SameBlock s s') {t : Txn} {f : FramePhase} (hq : s.seq = .frame t f)
    {q : Phase} (hq' : ∃ f', q = .frame t f') (hs : q.readsS = true) : s'.sReg = s.sReg := by
  obtain ⟨f', rfl⟩ := hq'
  refine hb.sReg ?_
  rw [hq]
  cases t <;> exact hs

theorem dataOrRel_same (h : SameOutside a b s s') (hb : SameBlock s s') {t : Txn} {f : FramePhase}
    (hq : s.seq = .frame t f) (i : Nat) : dataOrRel s' t i = dataOrRel s t i := by
  unfold dataOrRel
  rw [txnOut_same h hb hq]

/-! ### A micro-step of the block -/

/-- The two runs go on alike: they look the same from outside, and the blocks are at the same point. -/
def SameRun (a b : List Event) (s s' : State) : Prop := SameOutside a b s s' ∧ SameBlock s s'

theorem frameSel_same (h : SameOutside a b s s') (hb : SameBlock s s') {t : Txn} (hq : s.seq = .frame t .sel) :
    SameRun a b (frameSel t s) (frameSel t s') :=
  ⟨(h.driveCsn _).goto _ _, rfl, hb.ops, hb.sReg_of_frame hq ⟨_, rfl⟩, trivial⟩

theorem frameHead_same (h : SameOutside a b s s') (hb : SameBlock s s') {t : Txn} (hq : s.seq = .frame t .head) :
    SameRun a b (frameHead t s) (frameHead t s') := by
  unfold frameHead
  rw [h.env, txnHead_same h hb, dataOrRel_same h hb hq]
  cases s.env.replies with
  | nil => exact ⟨h, hb⟩
  | cons r rest =>
    exact ⟨((h.xchg _ r rest).latchStatus _).goto _ _, rfl, hb.ops,
      hb.sReg_of_frame hq (dataOrRel_frame s t 0),
      sameResult_dataOrRel t 0 rfl rfl rfl (.inl rfl) (by simp)⟩

theorem frameData_same (h : SameOutside a b s s') (hb : SameBlock s s') {t : Txn} (hq : s.seq = .frame t .data) :
    SameRun a b (frameData t s) (frameData t s') := by
  obtain ⟨hst, hi, hin⟩ : SameResult s s' (.frame t .data) := hq ▸ hb.result
  unfold frameData
  rw [h.env, txnOut_same h hb hq, hi, dataOrRel_same h hb hq]
  cases ho : (txnOut s t)[s.idx]? with
  | none =>
    have hle : (txnOut s t).length ≤ s.idx := List.getElem?_eq_none_iff.mp ho
    refine ⟨h.goto _ _, rfl, hb.ops, hb.sReg_of_frame hq ⟨_, rfl⟩, hst, ?_⟩
    simpa [List.take_take, Nat.min_eq_left hle] using congrArg (List.take (txnOut s t).length) hin
  | some o =>
    cases s.env.replies with
    | nil => exact ⟨h, hb⟩
    | cons r rest =>
      exact ⟨((h.xchg o r rest).latchData _).goto _ _, rfl, hb.ops,
        hb.sReg_of_frame hq (dataOrRel_frame s t _),
        sameResult_dataOrRel t _ hst rfl (by simp [hi]) (.inr (by simp [latchIn, hi, hin])) (by simp)⟩

/-- When a bracket closes, the caller reads what the bracket has received: the response of a framer operation, or the
byte that goes to `S`. -/
theorem frameRel_same (h : SameOutside a b s s') (hb : SameBlock s s') {t : Txn} (hq : s.seq = .frame t .rel) :
    SameRun a b (frameRel t s) (frameRel t s') := by
  obtain ⟨hst, hin⟩ : SameResult s s' (.frame t .rel) := hq ▸ hb.result
  have hout : SameOutside a b (frameRel t s) (frameRel t s') := by
    unfold frameRel
    rw [txnClose_same h hb]
    exact ((h.driveCsn _).takeResult t).goto _ _
  refine ⟨hout, ?_⟩
  cases t with
  | op => exact ⟨rfl, hb.ops, (absurd · Bool.false_ne_true), opResponse_same hb.ops hst hin⟩
  | load => exact ⟨rfl, hb.ops, (absurd · Bool.false_ne_true), trivial⟩
  | rdst =>
    have h0 := congrArg (fun l => l.getD 0 0x00#8) hin
    exact ⟨rfl, hb.ops, fun _ => by simpa [frameRel, takeResult, txnOut, List.getElem?_take] using h0, trivial⟩
  | clr | flush => exact ⟨rfl, hb.ops, fun _ => hb.sReg (by rw [hq]; rfl), trivial⟩

theorem frameTick_same (h : SameOutside a b s s') (hb : SameBlock s s') {t : Txn} {f : FramePhase}
    (hq : s.seq = .frame t f) : SameRun a b (frameTick t f s) (frameTick t f s') := by
  cases f with
  | sel => exact frameSel_same h hb hq
  | head => exact frameHead_same h hb hq
  | data => exact frameData_same h hb hq
  | rel => exact frameRel_same h hb hq

/-- Two runs at the same `RET` give the host the same response. -/
def SameReturn (a b : List Event) (s s' : State) : Prop :=
  SameOutside a b s s' ∧ s.busy = false ∧ s'.resp = s.resp

/-- A micro-step of the block: the two runs go on alike, or they return alike. -/
theorem blockTick_same (h : SameOutside a b s s') (hb : SameBlock s s') (hbusy : s.busy = true) :
    (SameRun a b (blockTick s) (blockTick s') ∧ (blockTick s).busy = true)
      ∨ SameReturn a b (blockTick s) (blockTick s') := by
  unfold blockTick
  rw [hb.seq]
  cases hq : s.seq with
  | idle => exact .inl ⟨⟨h, hb⟩, hbusy⟩
  | frame t f =>
    obtain ⟨-, -, hk, -⟩ := frameTick_keeps t f s
    exact .inl ⟨frameTick_same h hb hq, hk.trans hbusy⟩
  | cSet =>
    have hr : opResponse s' = opResponse s := by simpa [hq, SameResult] using hb.result
    simp only [ceSet, hb.ops]
    exact .inl ⟨⟨(h.driveCe _).goto _ _, rfl, hb.ops, (absurd · Bool.false_ne_true), hr⟩, hbusy⟩
  | tArm => exact .inl ⟨⟨(h.driveCe _).goto _ _, rfl, hb.ops, (absurd · Bool.false_ne_true), trivial⟩, hbusy⟩
  | tPoll =>
    refine .inl ⟨⟨h.irqSample.goto _ _, by simp [transmitPoll, h.env], hb.ops, ?_, ?_⟩, hbusy⟩
    all_goals
      unfold transmitPoll
      cases s.env.sample.level <;> simp [Phase.readsS, SameResult]
  | tSettle =>
    exact .inl ⟨⟨(h.driveCe _).goto _ _, rfl, hb.ops, (absurd · Bool.false_ne_true), trivial⟩, hbusy⟩
  | tClass =>
    have hS : s'.sReg = s.sReg := hb.sReg (by rw [hq]; rfl)
    refine .inl ⟨⟨h.goto _ _, by simp [transmitClass, hS], hb.ops, fun _ => hS, ?_⟩, hbusy⟩
    unfold transmitClass
    cases flushNeeded s.sReg <;> simp [SameResult]
  | tRet =>
    have hS : s'.sReg = s.sReg := hb.sReg (by rw [hq]; rfl)
    simp only [transmitRet, hS]
    exact .inr ⟨h.finish _, rfl, rfl⟩
  | ret =>
    have hr : opResponse s' = opResponse s := by simpa [hq, SameResult] using hb.result
    simp only [opRet, hr]
    exact .inr ⟨h.finish _, rfl, rfl⟩

/-! ### The whole machine -/

/-- Two runs of one operation. While the block is busy it is at the same point in both; while it is not, the host has
the same response, or presents an operation before it looks at one. If a comparison belongs to the operation
(`compares`), it is still to come or its result is the same. -/
structure Twins (compares : Prop) (a b : List Event) (s s' : State) : Prop where
  outside : SameOutside a b s s'
  block : s.busy = true → SameBlock s s'
  response : s.busy = false → (∃ o l, s.hostSeq = .op o :: l) ∨ s'.resp = s.resp
  presence : compares → (∃ pattern, .compare pattern ∈ s.hostSeq) ∨ s'.presence = s.presence

variable {compares : Prop}

theorem twins_blockTick (h : Twins compares a b s s') (hbusy : s.busy = true) :
    Twins compares a b (blockTick s) (blockTick s') := by
  obtain ⟨-, hp, hh⟩ := blockTick_keeps s
  obtain ⟨-, hp', -⟩ := blockTick_keeps s'
  have hpres : compares → (∃ pattern, .compare pattern ∈ (blockTick s).hostSeq)
      ∨ (blockTick s').presence = (blockTick s).presence := by
    rw [hp, hp', hh]
    exact h.presence
  obtain ⟨⟨ho, hb⟩, hbusy⟩ | ⟨ho, hidle, hr⟩ := blockTick_same h.outside (h.block hbusy) hbusy
  · exact ⟨ho, fun _ => hb, by simp [hbusy], hpres⟩
  · exact ⟨ho, by simp [hidle], fun _ => .inr hr, hpres⟩

/-- Acceptance starts both blocks at the same point, and nothing that was latched before is read again. -/
theorem sameBlock_accept (o : Operands) (u u' : State) : SameBlock (u.accept o) (u'.accept o) := by
  have hS : (firstPhase o.opsel).readsS = false := by cases o.opsel <;> rfl
  refine ⟨rfl, rfl, fun h => absurd (hS.symm.trans h) Bool.false_ne_true, ?_⟩
  rw [State.accept_seq]
  cases ho : o.opsel with
  | setce => simp [firstPhase, SameResult, opResponse, ho]
  | wreg | rreg | rbuf | wbuf | txpkt => trivial

/-- After a host step that is no comparison, the comparisons of the sequence are still to come. -/
theorem Twins.presence_rest (h : Twins compares a b s s') {x : HostStep} {l : List HostStep}
    (hs : s.hostSeq = x :: l) (hx : ∀ pattern, x ≠ .compare pattern) (hc : compares) :
    (∃ pattern, .compare pattern ∈ l) ∨ s'.presence = s.presence := by
  obtain ⟨pattern, hm⟩ | hp := h.presence hc
  · rw [hs] at hm
    exact .inl ⟨pattern, (List.mem_cons.mp hm).resolve_left (hx pattern).symm⟩
  · exact .inr hp

theorem twins_accept (h : Twins compares a b s s') (o : Operands) {x : HostStep} {l : List HostStep}
    (hs : s.hostSeq = x :: l) (hx : ∀ pattern, x ≠ .compare pattern) :
    Twins compares a b ({ s with hostSeq := l }.accept o) ({ s' with hostSeq := l }.accept o) :=
  ⟨h.outside.hostPresents o l, fun _ => sameBlock_accept o _ _, nofun, h.presence_rest hs hx⟩

theorem twins_hostTick (h : Twins compares a b s s') (hidle : s.busy = false) :
    Twins compares a b (hostTick s) (hostTick s') := by
  have hh : s'.hostSeq = s.hostSeq := h.outside.hostSeq
  have hblock {u u' : State} (hu : u.busy = false) (hbusy : u.busy = true) : SameBlock u u' := by
    simp [hu] at hbusy
  cases hs : s.hostSeq with
  | nil => rwa [hostTick_nil hs, hostTick_nil (hh.trans hs)]
  | cons x l =>
    cases x with
    | op o =>
      rw [hostTick_op hs, hostTick_op (hh.trans hs)]
      exact twins_accept h o hs nofun
    | writeBack r keep set =>
      have hr : s'.resp = s.resp := (h.response hidle).resolve_left (by simp [hs])
      by_cases hv : ∃ c, s.resp = some (.value c)
      · obtain ⟨c, hc⟩ := hv
        rw [hostTick_writeBack_value hs hc, hostTick_writeBack_value (hh.trans hs) (hr.trans hc)]
        exact twins_accept h _ hs nofun
      · rw [hostTick_writeBack_end hs hv, hostTick_writeBack_end (hh.trans hs) (hr ▸ hv)]
        exact ⟨h.outside.hostDrops l _ _, hblock hidle, fun _ => .inr hr, h.presence_rest hs nofun⟩
    | compare pattern =>
      have hr : s'.resp = s.resp := (h.response hidle).resolve_left (by simp [hs])
      rw [hostTick_compare hs, hostTick_compare (hh.trans hs)]
      exact ⟨h.outside.hostDrops l _ _, hblock hidle, fun _ => .inr hr, fun _ => .inr (by simp [hr])⟩

theorem twins_micro (h : Twins compares a b s s') : Twins compares a b (micro s) (micro s') := by
  unfold micro
  rw [h.outside.busy]
  split
  · exact twins_blockTick h ‹_›
  · exact twins_hostTick h (by simpa using ‹¬ s.busy = true›)

/-- Both blocks wait for the environment, or neither does. -/
theorem waitsForReply_same (h : SameOutside a b s s') (hb : SameBlock s s') :
    waitsForReply s' = waitsForReply s := by
  unfold waitsForReply
  rw [hb.seq, h.env]
  cases hq : s.seq with
  | frame t f =>
    cases f with
    | data =>
      obtain ⟨-, hi, -⟩ : SameResult s s' (.frame t .data) := hq ▸ hb.result
      simp only [txnOut_same h hb hq, hi]
    | sel | head | rel => rfl
  | idle | cSet | tArm | tPoll | tSettle | tClass | tRet | ret => rfl

theorem atRest_same (h : Twins compares a b s s') : atRest s' = atRest s := by
  unfold atRest
  rw [h.outside.busy, h.outside.hostSeq]
  split
  · have hb := h.block ‹_›
    rw [waitsForReply_same h.outside hb, pollsForEver, pollsForEver, hb.seq, h.outside.env]
  · rfl

end

/-- What two machines keep in common at every micro-step, and which tells where both rest, they have in common when they
have run until they rest. -/
theorem settle_relation (R : State → State → Prop) (hrest : ∀ s s', R s s' → atRest s' = atRest s)
    (hm : ∀ s s', R s s' → R (micro s) (micro s')) (s s' : State) (h : R s s') :
    R (settle s) (settle s') := by
  have hrun : ∀ k s s', R s s' → R (run k s) (run k s') := by
    intro k
    induction k with
    | zero => exact fun s s' h => h
    | succ k ih =>
      intro s s' h
      simp only [run, hrest s s' h]
      split
      · exact h
      · exact ih _ _ (hm s s' h)
  have hfuel := hrun (max (cost s) (cost s')) s s' h
  rw [run_fuel _ _ s (le_max_left _ _) le_rfl, run_fuel _ _ s' (le_max_right _ _) le_rfl] at hfuel
  exact hfuel

/-- Every operation begins with one that the host presents to the block. -/
theorem hostSteps_begin (p : Params) (i : Instr) : ∃ o l, hostSteps p i = .op o :: l := by
  cases i <;> exact ⟨_, _, rfl⟩

/-- Two idle machines that look the same from outside begin every operation alike. -/
theorem twins_begin (i : Instr) {a b : List Event} {s s' : State} (h : SameOutside a b s s') (hidle : s.busy = false) :
    Twins (i = .present) a b { s with hostSeq := hostSteps s.params i }
      { s' with hostSeq := hostSteps s.params i } where
  outside := h.hostDrops _ _ _
  block hbusy := by simp [hidle] at hbusy
  response _ := .inl (hostSteps_begin s.params i)
  presence hi := .inl ⟨s.params.pattern.toList, by simp [hi, hostSteps, presentSteps]⟩

/-- Settles O60: the two machines begin the operation alike and go on alike, so they come to rest alike; and an
operation that has come to its end has a response of its own, and PRESENT a result. -/
theorem nothingIsRetainedAcrossOperations : Obligations.NothingIsRetainedAcrossOperations := by
  unfold Obligations.NothingIsRetainedAcrossOperations
  intro i s s' t hs hs' hp hcsn hce henv hchip hbus he
  obtain ⟨hb, hh⟩ := s.idle_iff.mp hs
  obtain ⟨hb', hh'⟩ := s'.idle_iff.mp hs'
  rw [exec_eq_perform] at he
  obtain ⟨-, hw, rfl⟩ := perform_next i _ s t he
  have h0 : SameOutside s.trace s'.trace s s' :=
    ⟨hp, hcsn, hce, hb'.trans hb.symm, hh'.trans hh.symm, henv, hchip, hbus, [], by simp, by simp⟩
  have h := settle_relation (Twins (i = .present) s.trace s'.trace) (fun _ _ => atRest_same) (fun _ _ => twins_micro)
    _ _ (twins_begin i h0 hb)
  have he' : exec i s' = .next (settle { s' with hostSeq := hostSteps s.params i }) := by
    rw [exec_eq_perform, perform_idle i _ s' hs' (by rwa [hp]), ← hp]
  refine ⟨_, he', h.outside.csn, h.outside.ce,
    h.outside.env, h.outside.chip, h.outside.busy, fun ht => ?_, h.outside.events, fun ht => ?_⟩
  all_goals obtain ⟨htb, hth⟩ := (State.idle_iff _).mp ht
  · exact (State.idle_iff _).mpr ⟨h.outside.busy.trans htb, h.outside.hostSeq.trans hth⟩
  · exact ⟨(h.response htb).resolve_left (by simp [hth]), fun hi => (h.presence hi).resolve_left (by simp [hth])⟩

end Sys2Proof.Machine
end

section
/-! PROOF. The invariant of the machine (20_memory.md rule R31, 40_command_framer.md rule R96, 41_transmit_fsm.md rule
R125): its clauses fall into those that hold in every phase, one rule a state operation, and those that say what the
present phase asks of the lines, the bus and the latches, one rule a kind of move from phase to phase. -/

namespace Sys2Proof.Machine

/-! ### What the trace says after one more event -/

theorem csnAfter_append (l : Level) (es fs : List Event) :
    csnAfter l (es ++ fs) = csnAfter (csnAfter l es) fs := by
  induction es generalizing l with
  | nil => rfl
  | cons e es ih => cases e <;> exact ih _

theorem ceAfter_append (l : Level) (es fs : List Event) :
    ceAfter l (es ++ fs) = ceAfter (ceAfter l es) fs := by
  induction es generalizing l with
  | nil => rfl
  | cons e es ih => cases e <;> exact ih _

theorem exchangesSelected_append (l : Level) (es fs : List Event) :
    exchangesSelected l (es ++ fs) = (exchangesSelected l es && exchangesSelected (csnAfter l es) fs) := by
  induction es generalizing l with
  | nil => rfl
  | cons e es ih => cases e <;> simp [exchangesSelected, csnAfter, ih, Bool.and_assoc]

/-! ### The canonical form of the register memory -/

section
variable {p : Params} {c : Chip}

theorem Chip.moved_wf (hc : c.wf p = true) {m : Option Chip} (hm : (m.map (Chip.wf p)).getD true = true) :
    (c.moved m).wf p = true := by
  cases m with
  | none => exact hc
  | some d => exact hm

theorem Chip.store_wf (a : RegAddr) (j : Nat) (v : Byte) (hc : c.wf p = true) :
    (Chip.store p a j v c).wf p = true := by
  unfold Chip.store
  split
  · split
    · exact hc
    · exact Memory.write_wf _ _ _ _ hc
  · exact hc

theorem chipTake_wf (o : Byte) (b : Option BusTxn) (hc : c.wf p = true) : (chipTake p o b c).wf p = true := by
  unfold chipTake Chip.takeData
  split
  · split
    · exact Chip.store_wf _ _ _ hc
    · exact hc
  · exact hc

theorem Chip.finish_regs (p : Params) (t : BusTxn) (c : Chip) : (Chip.finish p t c).regs = c.regs := by
  unfold Chip.finish
  split
  · rfl
  · split_ifs <;> rfl

theorem chipSelect_regs (p : Params) (old new : Level) (b : Option BusTxn) (c : Chip) :
    (chipSelect p old new b c).regs = c.regs := by
  unfold chipSelect
  split
  · exact Chip.finish_regs _ _ _
  · rfl

theorem chipEnable_regs (old new : Level) (c : Chip) : (chipEnable old new c).regs = c.regs := by
  unfold chipEnable
  split
  · split <;> rfl
  · rfl

theorem Chip.wf_congr {d : Chip} (h : d.regs = c.regs) : d.wf p = c.wf p := by
  rw [Chip.wf, h, Chip.wf]

end

/-! ### The clauses that hold in every phase -/

/-- The clauses of the invariant that no phase enters. -/
structure Sound (s : State) : Prop where
  paramsWf : s.params.wf = true
  host : s.hostSeq.all (HostStep.wf s.params) = true
  csnTrace : csnAfter s.params.resetCsn s.trace = s.csn
  ceTrace : ceAfter s.params.resetCe s.trace = s.ce
  exchanges : exchangesSelected s.params.resetCsn s.trace = true
  chipWf : s.chip.wf s.params = true
  envWf : s.env.wf s.params = true

section
variable {s : State}

theorem Sound.goto (h : Sound s) (q : Phase) : Sound (s.goto q) :=
  ⟨h.paramsWf, h.host, h.csnTrace, h.ceTrace, h.exchanges, h.chipWf, h.envWf⟩

theorem Sound.latchStatus (h : Sound s) (b : Byte) : Sound (s.latchStatus b) :=
  ⟨h.paramsWf, h.host, h.csnTrace, h.ceTrace, h.exchanges, h.chipWf, h.envWf⟩

theorem Sound.latchData (h : Sound s) (b : Byte) : Sound (s.latchData b) :=
  ⟨h.paramsWf, h.host, h.csnTrace, h.ceTrace, h.exchanges, h.chipWf, h.envWf⟩

theorem Sound.takeResult (h : Sound s) (t : Txn) : Sound (takeResult t s) := by
  cases t with
  | rdst => exact ⟨h.paramsWf, h.host, h.csnTrace, h.ceTrace, h.exchanges, h.chipWf, h.envWf⟩
  | op | load | clr | flush => exact h

/-- The host's part: another rest of its sequence, and another result of PRESENT. -/
theorem Sound.hostDrops (h : Sound s) {l : List HostStep} (hl : l.all (HostStep.wf s.params) = true)
    (r : Option Bool) : Sound { s with hostSeq := l, presence := r } :=
  ⟨h.paramsWf, hl, h.csnTrace, h.ceTrace, h.exchanges, h.chipWf, h.envWf⟩

theorem Sound.accept (h : Sound s) (o : Operands) : Sound (s.accept o) :=
  ⟨h.paramsWf, h.host, h.csnTrace, h.ceTrace, h.exchanges, h.chipWf, h.envWf⟩

theorem Sound.finish (h : Sound s) (r : Response) : Sound (s.finish r) where
  paramsWf := h.paramsWf
  host := h.host
  csnTrace := by simpa [csnAfter_append, csnAfter] using h.csnTrace
  ceTrace := by simpa [ceAfter_append, ceAfter] using h.ceTrace
  exchanges := by simpa [exchangesSelected_append, exchangesSelected] using h.exchanges
  chipWf := h.chipWf
  envWf := h.envWf

theorem Sound.driveCsn (h : Sound s) (v : Level) : Sound (s.driveCsn v) where
  paramsWf := h.paramsWf
  host := h.host
  csnTrace := by simp [csnAfter_append, csnAfter]
  ceTrace := by simpa [ceAfter_append, ceAfter] using h.ceTrace
  exchanges := by simpa [exchangesSelected_append, exchangesSelected] using h.exchanges
  chipWf := (Chip.wf_congr (chipSelect_regs _ _ _ _ _)).trans h.chipWf
  envWf := h.envWf

theorem Sound.driveCe (h : Sound s) (v : Level) : Sound (s.driveCe v) where
  paramsWf := h.paramsWf
  host := h.host
  csnTrace := by simpa [csnAfter_append, csnAfter] using h.csnTrace
  ceTrace := by simp [ceAfter_append, ceAfter]
  exchanges := by simpa [exchangesSelected_append, exchangesSelected] using h.exchanges
  chipWf := (Chip.wf_congr (chipEnable_regs _ _ _)).trans h.chipWf
  envWf := h.envWf

/-- An exchange, with chip-select low (R31). -/
theorem Sound.xchg (h : Sound s) (hcsn : s.csn = .low) (o : Byte) {r : Reply} {rest : List Reply}
    (he : s.env.replies = r :: rest) : Sound (s.xchg o r rest) := by
  obtain ⟨⟨hmove, hreplies⟩, hsamples⟩ : ((r.chip.map (Chip.wf s.params)).getD true = true
      ∧ rest.all (fun r => (r.chip.map (Chip.wf s.params)).getD true) = true)
      ∧ s.env.samples.all (fun x => (x.chip.map (Chip.wf s.params)).getD true) = true := by
    simpa only [Env.wf, he, List.all_cons, Bool.and_eq_true] using h.envWf
  exact {
    paramsWf := h.paramsWf
    host := h.host
    csnTrace := by simpa [csnAfter_append, csnAfter] using h.csnTrace
    ceTrace := by simpa [ceAfter_append, ceAfter] using h.ceTrace
    exchanges := by simp [exchangesSelected_append, exchangesSelected, h.exchanges, h.csnTrace, hcsn]
    chipWf := chipTake_wf _ _ (Chip.moved_wf h.chipWf hmove)
    envWf := by simp only [State.xchg_env, State.xchg_params, Env.wf, hreplies, hsamples, Bool.and_self] }

/-- The move that comes with a sample is one of the script's, or none. -/
theorem Env.sample_wf {p : Params} {e : Env} (h : e.wf p = true) :
    (e.sample.chip.map (Chip.wf p)).getD true = true
      ∧ e.samples.tail.all (fun x => (x.chip.map (Chip.wf p)).getD true) = true := by
  unfold Env.sample
  cases hs : e.samples with
  | nil => exact ⟨rfl, rfl⟩
  | cons x xs =>
    simp only [Env.wf, hs, List.all_cons, Bool.and_eq_true] at h
    exact h.2

theorem Sound.irqSample (h : Sound s) : Sound s.irqSample := by
  obtain ⟨hmove, hsamples⟩ := Env.sample_wf h.envWf
  have hreplies := (Bool.and_eq_true_iff.mp h.envWf).1
  exact {
    paramsWf := h.paramsWf
    host := h.host
    csnTrace := by simpa [csnAfter_append, csnAfter] using h.csnTrace
    ceTrace := by simpa [ceAfter_append, ceAfter] using h.ceTrace
    exchanges := by simpa [exchangesSelected_append, exchangesSelected] using h.exchanges
    chipWf := Chip.moved_wf h.chipWf hmove
    envWf := Bool.and_eq_true_iff.mpr ⟨hreplies, hsamples⟩ }

/-- A micro-step of the framer: its exchanges happen inside the bracket, where chip-select is low. -/
theorem Sound.frameTick (h : Sound s) (t : Txn) (f : FramePhase) (hcsn : f ≠ .sel → s.csn = .low) :
    Sound (frameTick t f s) := by
  cases f with
  | sel => exact (h.driveCsn _).goto _
  | head =>
    unfold Machine.frameTick frameHead
    dsimp only
    split
    · exact h
    · exact ((h.xchg (hcsn (by simp)) _ ‹_›).latchStatus _).goto _
  | data =>
    unfold Machine.frameTick frameData
    dsimp only
    split
    · exact h.goto _
    · split
      · exact h
      · exact ((h.xchg (hcsn (by simp)) _ ‹_›).latchData _).goto _
  | rel => exact ((h.driveCsn _).takeResult t).goto _

theorem Sound.blockTick (h : Sound s) (hcsn : s.seq.inBracket = true → s.csn = .low) : Sound (blockTick s) := by
  unfold Machine.blockTick
  cases hq : s.seq with
  | idle => exact h
  | frame t f => exact h.frameTick t f fun hf => hcsn (by cases f <;> simp_all [Phase.inBracket])
  | cSet | tArm | tSettle => exact (h.driveCe _).goto _
  | tPoll => exact h.irqSample.goto _
  | tClass => exact h.goto _
  | tRet | ret => exact h.finish _

end

/-! ### The clauses of the present phase -/

/-- The clauses of the invariant that say what the present phase asks of the lines, the bus and the latches. -/
structure InPhase (s : State) : Prop where
  idle_iff : s.busy = false ↔ s.seq = .idle
  belongs : s.seq.belongs s.ops.opsel = true
  operands : s.busy = true → s.ops.wf s.params = true
  selected : s.seq.inBracket = true → s.csn = .low
  released : closesHigh s.params = true → s.seq.inBracket = false → s.csn = .high
  armed : s.seq.armed = true → s.ce = .high
  settled : s.seq.settled = true → s.ce = .low
  index : ∀ t, s.seq = .frame t .data → s.idx < (txnOut s t).length
  closed : s.seq.inBracket = false → s.bus = none

theorem invariant_iff (s : State) : Invariant s ↔ Sound s ∧ InPhase s := by
  constructor
  · intro h
    exact ⟨⟨h.paramsWf, h.host, h.csnTrace, h.ceTrace, h.exchanges, h.chipWf, h.envWf⟩,
      ⟨h.idle_iff, h.belongs, h.operands, h.selected, h.released, h.armed, h.settled, h.index, h.closed⟩⟩
  · rintro ⟨h, g⟩
    exact {
      paramsWf := h.paramsWf, idle_iff := g.idle_iff, belongs := g.belongs, operands := g.operands, host := h.host
      selected := g.selected, released := g.released, armed := g.armed, settled := g.settled, index := g.index
      closed := g.closed, csnTrace := h.csnTrace, ceTrace := h.ceTrace, exchanges := h.exchanges
      chipWf := h.chipWf, envWf := h.envWf }

theorem Phase.belongs_frame (o : OpSel) (t : Txn) (f f' : FramePhase) :
    (Phase.frame t f).belongs o = (Phase.frame t f').belongs o := by
  cases t <;> rfl

theorem Phase.settled_frame (t : Txn) (f f' : FramePhase) :
    (Phase.frame t f).settled = (Phase.frame t f').settled := by
  cases t <;> rfl

/-- Without the erratum switch each of the transactions closes high (R80, R96 (a)). -/
theorem txnClose_high {s : State} (h : closesHigh s.params = true) (t : Txn) : txnClose s t = .high := by
  simp only [closesHigh, Bool.and_eq_true, Bool.not_eq_true'] at h
  cases t with
  | op => cases ho : s.ops.opsel <;> simp [txnClose, opClose, ho, rbufClose, h.1]
  | load | rdst | clr | flush => rfl

section
variable {s u : State} {t : Txn} {f f' : FramePhase}

/-- The block goes on inside the bracket of its transaction. -/
theorem InPhase.insideBracket (h : InPhase s) (hb : s.busy = true) (hq : s.seq = .frame t f)
    (hp : u.params = s.params) (ho : u.ops = s.ops) (hbusy : u.busy = s.busy) (hce : u.ce = s.ce)
    (hu : u.seq = .frame t f') (hf : f' ≠ .sel) (hcsn : u.csn = .low)
    (hidx : f' = .data → u.idx < (txnOut u t).length) : InPhase u where
  idle_iff := by simp [hbusy, hb, hu]
  belongs := by rw [hu, ho, Phase.belongs_frame _ t f' f, ← hq]; exact h.belongs
  operands hu := by rw [ho, hp]; exact h.operands (hbusy ▸ hu)
  selected _ := hcsn
  released _ hi := by rw [hu] at hi; cases f' <;> simp_all [Phase.inBracket]
  armed ha := by simp [hu, Phase.armed] at ha
  settled hs := by
    rw [hu, Phase.settled_frame t f' f, ← hq] at hs
    rw [hce]
    exact h.settled hs
  index t' ht := by
    rw [hu] at ht
    obtain ⟨rfl, rfl⟩ := Phase.frame.inj ht
    exact hidx rfl
  closed hi := by rw [hu] at hi; cases f' <;> simp_all [Phase.inBracket]

/-- The block goes on to a phase outside every bracket, in the same operation. -/
theorem InPhase.outsideBracket (h : InPhase s) (hb : s.busy = true) {q q' : Phase} (hq : s.seq = q)
    (hp : u.params = s.params) (ho : u.ops = s.ops) (hbusy : u.busy = s.busy) (hu : u.seq = q') (hne : q' ≠ .idle)
    (hi : q'.inBracket = false) (hbel : ∀ o, q.belongs o = true → q'.belongs o = true)
    (hcsn : closesHigh s.params = true → u.csn = .high) (hbus : u.bus = none)
    (harmed : q'.armed = true → u.ce = .high) (hsettled : q'.settled = true → u.ce = .low) : InPhase u := by
  subst hq hu
  exact {
    idle_iff := by simp [hbusy, hb, hne]
    belongs := by rw [ho]; exact hbel _ h.belongs
    operands := fun hu => by rw [ho, hp]; exact h.operands (hbusy ▸ hu)
    selected := fun hs => by simp [hi] at hs
    released := fun hc _ => hcsn (hp ▸ hc)
    armed := harmed
    settled := hsettled
    index := fun t ht => by simp [ht, Phase.inBracket] at hi
    closed := fun _ => hbus }

/-- From one phase outside every bracket to another, with no write of chip-select. -/
theorem InPhase.betweenBrackets (h : InPhase s) (hb : s.busy = true) {q q' : Phase} (hq : s.seq = q)
    (hout : q.inBracket = false)
    (hu : u = { s with seq := q', ce := u.ce, env := u.env, chip := u.chip, trace := u.trace }) (hne : q' ≠ .idle)
    (hi : q'.inBracket = false) (hbel : ∀ o, q.belongs o = true → q'.belongs o = true)
    (harmed : q'.armed = true → u.ce = .high) (hsettled : q'.settled = true → u.ce = .low) : InPhase u := by
  rw [hu]
  exact h.outsideBracket hb hq rfl rfl rfl rfl hne hi hbel (fun hc => h.released hc (hq ▸ hout)) (h.closed (hq ▸ hout))
    harmed hsettled

/-- `RET`, which is emitted outside every bracket: the block is idle again (R97). -/
theorem InPhase.finish (h : InPhase s) (hi : s.seq.inBracket = false) (r : Response) : InPhase (s.finish r) where
  idle_iff := by simp
  belongs := rfl
  operands hb := by simp at hb
  selected hs := by simp [Phase.inBracket] at hs
  released hc _ := h.released hc hi
  armed ha := by simp [Phase.armed] at ha
  settled hs := by simp [Phase.settled] at hs
  index t ht := by simp at ht
  closed _ := h.closed hi

/-- The host goes on with its sequence, the block staying idle. -/
theorem InPhase.hostDrops (h : InPhase s) (l : List HostStep) (r : Option Bool) :
    InPhase { s with hostSeq := l, presence := r } :=
  ⟨h.idle_iff, h.belongs, h.operands, h.selected, h.released, h.armed, h.settled, h.index, h.closed⟩

theorem firstPhase_spec (o : OpSel) :
    firstPhase o ≠ .idle ∧ (firstPhase o).belongs o = true ∧ (firstPhase o).inBracket = false
      ∧ (firstPhase o).armed = false ∧ (firstPhase o).settled = false := by
  cases o <;> decide

/-- Acceptance, from an idle block (R97): the first phase of an operation asks nothing that the idle block has not. -/
theorem InPhase.accept (h : InPhase s) (hb : s.busy = false) {o : Operands} (ho : o.wf s.params = true) :
    InPhase (s.accept o) := by
  obtain ⟨hne, hbel, hin, harm, hset⟩ := firstPhase_spec o.opsel
  have hidle : s.seq.inBracket = false := by rw [h.idle_iff.mp hb]; rfl
  exact {
    idle_iff := by simp [hne]
    belongs := hbel
    operands := fun _ => ho
    selected := fun hs => by simp [hin] at hs
    released := fun hc _ => h.released hc hidle
    armed := fun ha => by simp [harm] at ha
    settled := fun hs => by simp [hset] at hs
    index := fun t ht => by simp only [State.accept_seq] at ht; simp [ht, Phase.inBracket] at hin
    closed := fun _ => h.closed hidle }

/-! ### The micro-steps of the block -/

theorem afterFrame_spec (t : Txn) :
    afterFrame t ≠ .idle ∧ (afterFrame t).inBracket = false ∧ (afterFrame t).armed = false
      ∧ (∀ o, (Phase.frame t .rel).belongs o = true → (afterFrame t).belongs o = true)
      ∧ (afterFrame t).settled = (Phase.frame t .rel).settled := by
  cases t <;> refine ⟨by decide, rfl, rfl, fun o => ?_, rfl⟩ <;> cases o <;> decide

/-- `F_DATA` is entered where a byte remains to be sent (R94). -/
theorem dataOrRel_spec (s : State) (t : Txn) (i : Nat) :
    ∃ f, dataOrRel s t i = .frame t f ∧ f ≠ .sel ∧ (f = .data → i < (txnOut s t).length) := by
  unfold dataOrRel
  split
  · exact ⟨.data, rfl, by simp, fun _ => ‹_›⟩
  · exact ⟨.rel, rfl, by simp, by simp⟩

theorem InPhase.frameTick (h : InPhase s) (hb : s.busy = true) (hq : s.seq = .frame t f) :
    InPhase (frameTick t f s) := by
  cases f with
  | sel => exact h.insideBracket (f' := .head) hb hq rfl rfl rfl rfl rfl (by simp) rfl (by simp)
  | head =>
    unfold Machine.frameTick frameHead
    dsimp only
    split
    · exact h
    · obtain ⟨f', hf, hsel, hidx⟩ := dataOrRel_spec s t 0
      exact h.insideBracket hb hq rfl rfl rfl rfl hf hsel (h.selected (by rw [hq]; rfl)) (by simpa using hidx)
  | data =>
    have hcsn : s.csn = .low := h.selected (by rw [hq]; rfl)
    unfold Machine.frameTick frameData
    dsimp only
    split
    · exact h.insideBracket (f' := .rel) hb hq rfl rfl rfl rfl rfl (by simp) hcsn (by simp)
    · split
      · exact h
      · obtain ⟨f', hf, hsel, hidx⟩ := dataOrRel_spec s t (s.idx + 1)
        exact h.insideBracket hb hq rfl rfl rfl rfl hf hsel hcsn (by simpa using hidx)
  | rel =>
    have hcsn : s.csn = .low := h.selected (by rw [hq]; rfl)
    obtain ⟨hp, ho, hbusy, -, hce, -⟩ := frameTick_keeps t .rel s
    obtain ⟨hne, hin, harm, hbel, hset⟩ := afterFrame_spec t
    refine h.outsideBracket (q' := afterFrame t) hb hq hp ho hbusy rfl hne hin hbel (fun hc => ?_) ?_ ?_ ?_
    · rw [← txnClose_high hc t]
      cases t <;> rfl
    · rw [← busSelect_from_low (txnClose s t), ← hcsn]
      cases t <;> rfl
    · simp [harm]
    · rw [hset, hce, ← hq]
      exact h.settled

theorem InPhase.blockTick (h : InPhase s) (hb : s.busy = true) : InPhase (blockTick s) := by
  unfold Machine.blockTick
  cases hq : s.seq with
  | idle => exact h
  | frame t f => exact h.frameTick hb hq
  | tRet | ret => exact h.finish (by rw [hq]; rfl) _
  | cSet =>
    exact h.betweenBrackets (q' := .ret) hb hq rfl rfl (by simp) rfl
      (fun o ho => by cases o <;> simp_all [Phase.belongs]) (by simp [Phase.armed]) (by simp [Phase.settled])
  | tArm =>
    exact h.betweenBrackets (q' := .tPoll) hb hq rfl rfl (by simp) rfl (fun _ ho => ho) (fun _ => rfl)
      (by simp [Phase.settled])
  | tPoll =>
    have hce : s.ce = .high := h.armed (by rw [hq]; rfl)
    dsimp only [transmitPoll]
    cases s.env.sample.level with
    | high =>
      exact h.betweenBrackets (q' := .tPoll) hb hq rfl rfl (by simp) rfl (fun _ ho => ho) (fun _ => hce)
        (by simp [Phase.settled])
    | low =>
      exact h.betweenBrackets (q' := .tSettle) hb hq rfl rfl (by simp) rfl (fun _ ho => ho) (fun _ => hce)
        (by simp [Phase.settled])
  | tSettle =>
    exact h.betweenBrackets (q' := .frame .rdst .sel) hb hq rfl rfl (by simp) rfl (fun _ ho => ho)
      (by simp [Phase.armed]) (fun _ => rfl)
  | tClass =>
    have hce : s.ce = .low := h.settled (by rw [hq]; rfl)
    dsimp only [transmitClass]
    cases flushNeeded s.sReg with
    | true =>
      exact h.betweenBrackets (q' := .frame .flush .sel) hb hq rfl rfl (by simp) rfl (fun _ ho => ho)
        (by simp [Phase.armed]) (fun _ => hce)
    | false =>
      exact h.betweenBrackets (q' := .tRet) hb hq rfl rfl (by simp) rfl (fun _ ho => ho) (by simp [Phase.armed])
        (fun _ => hce)

/-! ### The host's part -/

theorem invariant_accept (h : Invariant s) (hb : s.busy = false) {l : List HostStep} {o : Operands}
    (hl : l.all (HostStep.wf s.params) = true) (ho : o.wf s.params = true) :
    Invariant ({ s with hostSeq := l }.accept o) := by
  obtain ⟨hsound, hphase⟩ := (invariant_iff s).mp h
  exact (invariant_iff _).mpr
    ⟨(hsound.hostDrops hl s.presence).accept o, (hphase.hostDrops l s.presence).accept hb ho⟩

theorem invariant_hostDrops (h : Invariant s) {l : List HostStep} (hl : l.all (HostStep.wf s.params) = true)
    (r : Option Bool) : Invariant { s with hostSeq := l, presence := r } := by
  obtain ⟨hsound, hphase⟩ := (invariant_iff s).mp h
  exact (invariant_iff _).mpr ⟨hsound.hostDrops hl r, hphase.hostDrops l r⟩

end

section
variable {p : Params}

theorem opWreg_wf (hn : 1 ≤ p.nMax) (a : RegAddr) (v : Byte) : (opWreg a v).wf p = true := by
  simp [Operands.wf, opWreg, hn]

theorem opRreg_wf (hn : 1 ≤ p.nMax) (a : RegAddr) : (opRreg a).wf p = true := by
  simp [Operands.wf, opRreg, hn]

theorem opRbuf_wf (sel : HeadSel) (head : Byte) {n : Nat} (hn : n ≤ p.nMax) : (opRbuf sel head n).wf p = true := by
  simp [Operands.wf, opRbuf, hn]

theorem opWbuf_wf (sel : HeadSel) (head : Byte) {data : List Byte} (hn : data.length ≤ p.nMax) :
    (opWbuf sel head data).wf p = true := by
  simp [Operands.wf, opWbuf, hn]

theorem opTxpkt_wf {payload : List Byte} (hn : payload.length ≤ p.nMax) : (opTxpkt payload).wf p = true := by
  simp [Operands.wf, opTxpkt, hn]

theorem opSetce_wf (l : Level) : (opSetce l).wf p = true := by
  simp [Operands.wf, opSetce]

/-- A legal operation presents legal operations to the block (R37, R64, R140). -/
theorem hostSteps_wf (hp : p.wf = true) {i : Instr} (hi : i.WellFormed p) :
    (hostSteps p i).all (HostStep.wf p) = true := by
  obtain ⟨-, h5, -, htrailer⟩ := p.wf_parts hp
  have h1 : 1 ≤ p.nMax := by omega
  cases i with
  | rRegister a n | rRxPayload n | rbufReg a n =>
    simp [hostSteps, carriedBy, HostStep.wf, opRbuf_wf _ _ (illegalCount_none p _ hi)]
  | wRegister a data | wTxPayload data | wbufReg a data =>
    simp [hostSteps, carriedBy, HostStep.wf, opWbuf_wf _ _ (illegalCount_none p _ hi)]
  | rbufCmd c n => simp [hostSteps, carriedBy, HostStep.wf, opRbuf_wf _ _ (illegalCommand_none p _ _ hi).2]
  | wbufCmd c data => simp [hostSteps, carriedBy, HostStep.wf, opWbuf_wf _ _ (illegalCommand_none p _ _ hi).2]
  | flushTx | flushTxFifo => simp [hostSteps, carriedBy, HostStep.wf, opWbuf_wf _ _ htrailer]
  | flushRx | nop => simp [hostSteps, carriedBy, HostStep.wf, opWbuf_wf]
  | wreg a v => simp [hostSteps, carriedBy, HostStep.wf, opWreg_wf h1]
  | rreg a => simp [hostSteps, carriedBy, HostStep.wf, opRreg_wf h1]
  | txpkt payload => simp [hostSteps, HostStep.wf, opTxpkt_wf (illegalCount_none p _ hi)]
  | setce l => simp [hostSteps, HostStep.wf, opSetce_wf]
  | present =>
    have hpattern : p.pattern.toList.length ≤ p.nMax := by simpa using h5
    simp [hostSteps, presentSteps, HostStep.wf, opWbuf_wf _ _ hpattern, opRbuf_wf _ _ h5]
  | enterTx cfg =>
    have hw : (cfg.addr.take cfg.width).length ≤ p.nMax := by
      have hwf : cfg.wf p = true := by
        by_contra hc
        simp [Instr.WellFormed, Instr.illegal, hc] at hi
      simp only [TxConfig.wf, Bool.and_eq_true, decide_eq_true_eq] at hwf
      simp only [List.length_take]
      omega
    simp [hostSteps, enterTxSteps, setChStep, HostStep.wf, opSetce_wf, opWreg_wf h1, opWbuf_wf _ _ hw]
  | setCh ch => simp [hostSteps, setChStep, HostStep.wf, opWreg_wf h1]
  | pwrDn => simp [hostSteps, pwrDnSteps, HostStep.wf, opSetce_wf, opRreg_wf h1]
  | wake => simp [hostSteps, wakeSteps, HostStep.wf, opRreg_wf h1]
  | setPwr level => simp [hostSteps, setPwrSteps, HostStep.wf, opRreg_wf h1]

end

theorem invariant_hostTick {s : State} (h : Invariant s) (hb : s.busy = false) : Invariant (hostTick s) := by
  have hhost := h.host
  obtain ⟨-, h5, -, -⟩ := s.params.wf_parts h.paramsWf
  cases hs : s.hostSeq with
  | nil => rwa [hostTick_nil hs]
  | cons x l =>
    rw [hs, List.all_cons, Bool.and_eq_true] at hhost
    obtain ⟨hx, hl⟩ := hhost
    cases x with
    | op o =>
      rw [hostTick_op hs]
      exact invariant_accept h hb hl hx
    | writeBack a keep set =>
      by_cases hv : ∃ c, s.resp = some (.value c)
      · obtain ⟨c, hc⟩ := hv
        rw [hostTick_writeBack_value hs hc]
        exact invariant_accept h hb hl (opWreg_wf (by omega) _ _)
      · rw [hostTick_writeBack_end hs hv]
        exact invariant_hostDrops h hl _
    | compare pattern =>
      rw [hostTick_compare hs]
      exact invariant_hostDrops h hl _

/-! ### The step -/

theorem invariant_micro {s : State} (h : Invariant s) : Invariant (micro s) := by
  unfold micro
  split
  · obtain ⟨hsound, hphase⟩ := (invariant_iff s).mp h
    exact (invariant_iff _).mpr ⟨hsound.blockTick hphase.selected, hphase.blockTick ‹_›⟩
  · exact invariant_hostTick h (by simpa using ‹¬ s.busy = true›)

theorem invariant_settle {s : State} (h : Invariant s) : Invariant (settle s) :=
  settle_induction Invariant (fun _ => invariant_micro) s h

/-- An operation that the block accepts is legal, so the host presents legal operations and the run keeps the rest. -/
theorem invariant_exec {i : Instr} {s t : State} (h : Invariant s) (he : exec i s = .next t) : Invariant t := by
  rw [exec_eq_perform] at he
  obtain ⟨-, hi, rfl⟩ := perform_next i _ s t he
  exact invariant_settle (invariant_hostDrops h (hostSteps_wf h.paramsWf hi) s.presence)

/-- The command port and the counter of free values are in no clause. -/
theorem invariant_fetched {s : State} (h : Invariant s) (l : List Request) (k : Nat) :
    Invariant { s with inbox := l, freeCount := k } :=
  ⟨h.paramsWf, h.idle_iff, h.belongs, h.operands, h.host, h.selected, h.released, h.armed, h.settled, h.index,
    h.closed, h.csnTrace, h.ceTrace, h.exchanges, h.chipWf, h.envWf⟩

/-- Settles O56: every micro-step of the block and of the host keeps the invariant, so going on with an operation does,
and so does performing a fetched one; a step that waits changes nothing. -/
theorem stepKeepsTheInvariant : Obligations.StepKeepsTheInvariant := by
  unfold Obligations.StepKeepsTheInvariant
  intro s t h hs
  obtain ⟨-, rfl⟩ | ⟨-, -, rfl⟩ | ⟨r, rest, i, -, -, -, he⟩ := step_next s t hs
  · exact invariant_settle (invariant_micro h)
  · exact h
  · exact invariant_exec (invariant_fetched h _ _) he

end Sys2Proof.Machine
end

section
/-! PROOF. What the operations that are one bracket do to the chip (20_memory.md rule R38, 40_command_framer.md rules
R87 to R93): reads leave it as it is, register writes store their bytes, and the fixed commands work on the queues. -/

namespace Sys2Proof.Machine

/-! ### The bytes of each operation -/

@[simp] theorem opHead_opWreg (p : Params) (a : RegAddr) (v : Byte) :
    opHead p (opWreg a v) = p.opWRegister ||| regByte a := by
  simp [opHead, opWreg, writeHead, addrOf_regByte]
@[simp] theorem opHead_opRreg (p : Params) (a : RegAddr) : opHead p (opRreg a) = p.opRRegister ||| regByte a := by
  simp [opHead, opRreg, readHead, addrOf_regByte]
@[simp] theorem opHead_opWbuf_reg (p : Params) (a : RegAddr) (data : List Byte) :
    opHead p (opWbuf .reg (regByte a) data) = p.opWRegister ||| regByte a := by
  simp [opHead, opWbuf, writeHead, addrOf_regByte]
@[simp] theorem opHead_opRbuf_reg (p : Params) (a : RegAddr) (n : Nat) :
    opHead p (opRbuf .reg (regByte a) n) = p.opRRegister ||| regByte a := by
  simp [opHead, opRbuf, readHead, addrOf_regByte]
@[simp] theorem opHead_opWbuf_cmd (p : Params) (c : Byte) (data : List Byte) : opHead p (opWbuf .cmd c data) = c := rfl
@[simp] theorem opHead_opRbuf_cmd (p : Params) (c : Byte) (n : Nat) : opHead p (opRbuf .cmd c n) = c := rfl

@[simp] theorem opOut_opWbuf (p : Params) (sel : HeadSel) (h : Byte) (data : List Byte) :
    opOut p (opWbuf sel h data) = data := rfl

@[simp] theorem opClose_opWbuf (p : Params) (sel : HeadSel) (h : Byte) (data : List Byte) :
    opClose p (opWbuf sel h data) = .high := rfl

/-! ### An operation that is one bracket -/

/-- Its one host step, and that it is a framer operation. -/
theorem hostSteps_of_carriedBy {p : Params} {i : Instr} {o : Operands} (hc : carriedBy p i = some o) :
    hostSteps p i = [.op o] ∧ firstPhase o.opsel = .frame .op .sel := by
  cases i <;> simp only [carriedBy, Option.some.injEq, reduceCtorEq] at hc <;> subst hc <;> exact ⟨rfl, rfl⟩

section
variable {i : Instr} {o : Operands} {s t : State}

/-- With all its answers it returns (R80 to R84). -/
theorem exec_framer (hs : s.Idle) (hi : i.WellFormed s.params) (hc : carriedBy s.params i = some o) {r0 : Reply}
    {rs rest : List Reply} (he : s.env.replies = r0 :: (rs ++ rest)) (hl : rs.length = (opOut s.params o).length) :
    exec i s = .next (framerEnd o (opHead s.params o) (opOut s.params o) (opClose s.params o)
      (framerResponse o r0.rx (latched s.inBytes rs)) r0 rs rest s) := by
  obtain ⟨hsteps, hf⟩ := hostSteps_of_carriedBy hc
  rw [exec_eq_perform, hsteps]
  exact perform_framer i o r0 rs rest s hs hi hf he hl

/-- Where it answers a next state, it has returned with all its answers, or it waits inside its bracket (R30, R177). -/
theorem exec_framer_next (hc : carriedBy s.params i = some o) (h : exec i s = .next t) :
    (∃ r0 rs rest, s.env.replies = r0 :: (rs ++ rest) ∧ rs.length = (opOut s.params o).length
        ∧ t = framerEnd o (opHead s.params o) (opOut s.params o) (opClose s.params o)
          (framerResponse o r0.rx (latched s.inBytes rs)) r0 rs rest s)
      ∨ t = bracketWaits .op { s with ops := o, busy := true, seq := .frame .op .sel, hostSeq := [] } := by
  obtain ⟨hsteps, hf⟩ := hostSteps_of_carriedBy hc
  obtain ⟨hs, hi, -⟩ := perform_next i _ s t (exec_eq_perform i s ▸ h)
  by_cases hl : s.env.replies.length ≤ (opOut s.params o).length
  · rw [exec_eq_perform, hsteps, perform_framer_short i o s hs hi hf hl, Host.Outcome.next.injEq] at h
    exact .inr h.symm
  · obtain ⟨r0, rs, rest, he, hlen⟩ := split_replies s.env.replies (opOut s.params o).length (by omega)
    rw [exec_framer hs hi hc he hlen, Host.Outcome.next.injEq] at h
    exact .inl ⟨r0, rs, rest, he, hlen, h.symm⟩

end

/-! ### Reads and NOP -/

/-- A transaction with command byte `h` has no effect on the chip: it stores no data byte, and nothing happens at its
end. -/
structure Inert (p : Params) (h : Byte) : Prop where
  storesNothing : opBits h ≠ p.opWRegister
  endsQuietly : ∀ d c, Chip.finish p { cmd := some h, data := d } c = c

section
variable {p : Params}

theorem inert_readHead (hp : p.opcodesWf = true) (a : RegAddr) : Inert p (p.opRRegister ||| regByte a) := by
  obtain ⟨hr, -, hne, -, -⟩ := p.opcodesWf_iff.mp hp
  have hb := opBits_or_regByte p.opRRegister a hr
  exact ⟨by rwa [hb], fun d c => by simp [Chip.finish, hb]⟩

/-- R7's constraints keep the commands that work on a queue apart from one another and from the other two. -/
theorem queueCommands_ne (hp : p.opcodesWf = true) :
    p.opFlushTx ≠ p.opWTxPayload ∧ p.opFlushRx ≠ p.opWTxPayload ∧ p.opFlushRx ≠ p.opFlushTx
      ∧ ∀ h ∈ [p.opRRxPayload, p.opNop], h ≠ p.opWTxPayload ∧ h ≠ p.opFlushTx ∧ h ≠ p.opFlushRx := by
  obtain ⟨-, -, -, hn, -⟩ := p.opcodesWf_iff.mp hp
  simp only [Params.fixedCommands, List.nodup_cons, List.mem_cons, List.not_mem_nil, or_false, not_or] at hn
  obtain ⟨⟨r1, r2, r3, -⟩, ⟨w1, w2, w3⟩, ⟨t1, t2⟩, x1, -⟩ := hn
  simp only [List.mem_cons, List.not_mem_nil, or_false, forall_eq_or_imp, forall_eq]
  exact ⟨Ne.symm w1, Ne.symm w2, Ne.symm t1, ⟨r1, r2, r3⟩, Ne.symm w3, Ne.symm t2, Ne.symm x1⟩

/-- R_RX_PAYLOAD and NOP work on no queue. -/
theorem inert_command (hp : p.opcodesWf = true) {h : Byte} (hh : h ∈ [p.opRRxPayload, p.opNop]) : Inert p h := by
  obtain ⟨-, -, -, -, hc⟩ := p.opcodesWf_iff.mp hp
  obtain ⟨-, -, -, hne⟩ := queueCommands_ne hp
  obtain ⟨h1, h2, h3⟩ := hne h hh
  obtain ⟨hr, hw⟩ := hc h (by obtain rfl | rfl := List.mem_pair.mp hh <;> simp [Params.fixedCommands])
  exact ⟨hw, fun d c => by simp [Chip.finish, hr, hw, h1, h2, h3]⟩

/-- The exchanges of a transaction that stores nothing, with a chip that makes no move of its own. -/
theorem Chip.takeAll_quiet {h : Byte} (hw : opBits h ≠ p.opWRegister) {out : List Byte} {r0 : Reply} {rs : List Reply}
    (hl : rs.length = out.length) (hq : Quiet (r0 :: rs)) (c : Chip) :
    Chip.takeAll p h 0 out rs (c.moved r0.chip) = c := by
  rw [Chip.takeAll_of_not_write p h hw 0 out rs _ hl]
  exact Chip.movedAll_quiet c (r0 :: rs) hq

/-- A whole inert bracket, of whatever levels. -/
theorem Inert.bracketChip {h : Byte} (hi : Inert p h) (old close : Level) {out : List Byte} {r0 : Reply}
    {rs : List Reply} (hl : rs.length = out.length) (hq : Quiet (r0 :: rs)) (c : Chip) :
    bracketChip p old close h out r0 rs c = c := by
  have htake := Chip.takeAll_quiet hi.storesNothing hl hq c
  cases old with
  | low => exact Chip.movedAll_quiet c _ hq
  | high => cases close <;> simp [Machine.bracketChip, htake, hi.endsQuietly]

/-- The data exchanges of an inert transaction, however many of them are answered. -/
theorem Inert.busChip {h : Byte} (hi : Inert p h) (out : List Byte) (rs : List Reply) (hq : Quiet rs)
    (b : Option BusTxn) (hb : ∀ t, b = some t → t.cmd = some h) (c : Chip) : (busChip p b c out rs).2 = c := by
  induction out generalizing b rs with
  | nil => rfl
  | cons o out ih =>
    cases rs with
    | nil => rfl
    | cons r rs =>
      have hr : r.chip = none := hq r (by simp)
      have htake : chipTake p o b c = c ∧ ∀ t, busTake o b = some t → t.cmd = some h := by
        cases b with
        | none => exact ⟨rfl, by simp [busTake]⟩
        | some t =>
          obtain ⟨cmd, d⟩ := t
          obtain rfl : cmd = some h := hb _ rfl
          exact ⟨by simp [chipTake, Chip.takeData, hi.storesNothing], by simp [busTake]⟩
      simp only [Machine.busChip, hr, Chip.moved_none, htake.1]
      exact ih rs (fun x hx => hq x (by simp [hx])) _ htake.2

/-- The first exchange of a bracket brings the command byte, where the chip reads the bracket at all. -/
theorem busTake_busSelect_cmd (h : Byte) (old : Level) :
    ∀ t, busTake h (busSelect old .low) = some t → t.cmd = some h := by
  cases old with
  | low => simp [busSelect, busTake]
  | high =>
    intro t ht
    obtain rfl := Option.some.inj ht
    rfl

/-- An inert bracket that waits for an answer. -/
theorem Inert.bracketWaits {s : State} {t : Txn} (hi : Inert s.params (txnHead s t)) (hq : Quiet s.env.replies) :
    (bracketWaits t s).chip = s.chip := by
  unfold Machine.bracketWaits
  split
  · rfl
  · rename_i r0 rs he
    rw [he] at hq
    have hr : r0.chip = none := hq r0 (by simp)
    rw [hr, Chip.moved_none]
    exact hi.busChip _ rs (fun x hx => hq x (by simp [hx])) _ (busTake_busSelect_cmd _ _) _

/-- An operation that is one inert bracket leaves the chip as it is, whether or not it returns. -/
theorem exec_inert {i : Instr} {o : Operands} {s t : State} (hc : carriedBy s.params i = some o)
    (hi : Inert s.params (opHead s.params o)) (hq : Quiet s.env.replies) (h : exec i s = .next t) :
    t.chip = s.chip := by
  obtain ⟨r0, rs, rest, he, hl, rfl⟩ | rfl := exec_framer_next hc h
  · rw [he] at hq
    exact hi.bracketChip _ _ hl
      (fun x hx => hq x (List.mem_cons.mpr ((List.mem_cons.mp hx).imp_right (List.mem_append_left _)))) _
  · exact Inert.bracketWaits (t := .op) hi hq

end

/-- Settles O47: each of these operations is one bracket whose command byte has no effect on the chip. -/
theorem readsLeaveTheChipAsItIs : Obligations.ReadsLeaveTheChipAsItIs := by
  unfold Obligations.ReadsLeaveTheChipAsItIs
  intro s t i _ hp hq hi h
  obtain ⟨a, rfl⟩ | ⟨a, n, rfl⟩ | ⟨n, rfl⟩ | ⟨a, n, rfl⟩ | ⟨n, rfl⟩ | rfl := hi
  · exact exec_inert rfl (by simpa using inert_readHead hp a) hq h
  · exact exec_inert rfl (by simpa using inert_readHead hp a) hq h
  · exact exec_inert rfl (inert_command hp (by simp)) hq h
  · exact exec_inert rfl (by simpa using inert_readHead hp a) hq h
  · exact exec_inert rfl (inert_command hp (by simp)) hq h
  · exact exec_inert rfl (inert_command hp (by simp)) hq h

/-! ### Register writes -/

/-- The chip after the data bytes `data` of a register write have been stored, from number `j` on. -/
def Chip.storeAll (p : Params) (a : RegAddr) : Nat → List Byte → Chip → Chip
  | _, [], c => c
  | j, v :: data, c => Chip.storeAll p a (j + 1) data (Chip.store p a j v c)

/-- What every store keeps, from number `j` on, a run of them keeps. -/
theorem Chip.storeAll_induction {p : Params} {a : RegAddr} (P : Chip → Prop) {j : Nat}
    (hP : ∀ k v c, j ≤ k → P c → P (Chip.store p a k v c)) {data : List Byte} {c : Chip} (hc : P c) :
    P (Chip.storeAll p a j data c) := by
  induction data generalizing j c with
  | nil => exact hc
  | cons v data ih => exact ih (fun k v c hk => hP k v c (by omega)) (hP j v c (le_refl j) hc)

section
variable {p : Params}

/-- The data bytes of a register write to a chip that makes no move of its own. -/
theorem Chip.takeAll_write_quiet (hp : p.opcodesWf = true) (a : RegAddr) {j : Nat} {data : List Byte} {rs : List Reply}
    (hl : rs.length = data.length) (hq : Quiet rs) (c : Chip) :
    Chip.takeAll p (p.opWRegister ||| regByte a) j data rs c = Chip.storeAll p a j data c := by
  obtain ⟨-, hw, -, -, -⟩ := p.opcodesWf_iff.mp hp
  induction data generalizing j rs c with
  | nil => cases rs <;> rfl
  | cons v data ih =>
    cases rs with
    | nil => simp at hl
    | cons r rs =>
      have hr : r.chip = none := hq r (by simp)
      simp only [Chip.takeAll, Chip.takeData, opBits_or_regByte _ a hw, addrOf_or_regByte _ a hw, ↓reduceIte, hr,
        Chip.moved_none]
      exact ih (by simpa using hl) (fun x hx => hq x (by simp [hx])) _

/-- A register write (R88) from a falling edge: the chip's own moves up to the first data byte, and then the stores. -/
theorem bracketChip_write_quiet (hp : p.opcodesWf = true) (close : Level) (a : RegAddr) {data : List Byte} (r0 : Reply)
    {rs : List Reply} (hl : rs.length = data.length) (hq : Quiet (rs.drop 1)) (c : Chip) :
    bracketChip p .high close (p.opWRegister ||| regByte a) data r0 rs c
      = Chip.storeAll p a 0 data (c.movedAll (r0 :: rs)) := by
  obtain ⟨-, hw, -, -, -⟩ := p.opcodesWf_iff.mp hp
  rw [bracketChip_write p hp]
  cases data with
  | nil =>
    obtain rfl := List.length_eq_zero_iff.mp hl
    rfl
  | cons v data =>
    cases rs with
    | nil => simp at hl
    | cons r1 rs =>
      have hmoves : c.movedAll (r0 :: r1 :: rs) = (c.moved r0.chip).moved r1.chip :=
        Chip.movedAll_quiet _ rs hq
      simp only [hmoves, Chip.takeAll, Chip.takeData, opBits_or_regByte _ a hw, addrOf_or_regByte _ a hw, ↓reduceIte]
      exact Chip.takeAll_write_quiet hp a (by simpa using hl) hq _

theorem regByteExists_zero {a : RegAddr} (ha : a.toNat ≤ 0x17) : regByteExists p a 0 = true := by
  unfold regByteExists regWidth lastRegAddr
  split <;> simp [ha]

/-- A one-byte register takes the first data byte alone. -/
theorem Chip.storeAll_one_byte {a : RegAddr} (ht : a ≠ p.aTxAddr) (hr : a ≠ p.aRxAddrP0) (v : Byte) (data : List Byte)
    (c : Chip) : Chip.storeAll p a 0 (v :: data) c = Chip.store p a 0 v c := by
  rw [Chip.storeAll]
  refine Chip.storeAll_induction (· = Chip.store p a 0 v c) (fun k w d hk hd => ?_) rfl
  have hnone : regByteExists p a k = false := by
    simp only [regByteExists, regWidth, ht, hr, or_self, ↓reduceIte, Bool.and_eq_false_iff, decide_eq_false_iff_not]
    omega
  simp [Chip.store, hnone, hd]

/-- A run of stores to RF_CH clears the counter with its first byte; one to another register leaves it (R208, log
entries 26 and 27). -/
theorem Chip.storeAll_counter (hr : p.aRfCh ≠ p.aStatus) (ha : p.aRfCh.toNat ≤ 0x17) (a : RegAddr) (data : List Byte)
    (c : Chip) :
    (Chip.storeAll p a 0 data c).counter = if a = p.aRfCh ∧ data ≠ [] then 0 else c.counter := by
  by_cases h : a = p.aRfCh
  · cases data with
    | nil => simp [Chip.storeAll]
    | cons v data =>
      rw [if_pos ⟨h, by simp⟩, Chip.storeAll]
      refine Chip.storeAll_induction (·.counter = 0) (fun k w d _ hd => ?_) ?_
      · rw [Chip.store_counter p a k w d hr, hd, ite_self]
      · rw [Chip.store_counter p a 0 v c hr, if_pos ⟨h, h ▸ regByteExists_zero ha⟩]
  · rw [if_neg fun e => h e.1]
    refine Chip.storeAll_induction (·.counter = c.counter) (fun k w d _ hd => ?_) rfl
    rw [Chip.store_counter p a k w d hr, if_neg fun e => h e.1, hd]

end

/-- The three forms of a register write (R81, R84, R88) are one bracket that sends the same bytes. -/
theorem carriedBy_write (p : Params) {a : RegAddr} {data : List Byte} {i : Instr}
    (hi : i = .wbufReg a data ∨ i = .wRegister a data ∨ ∃ v, data = [v] ∧ i = .wreg a v) :
    ∃ o, carriedBy p i = some o ∧ opHead p o = p.opWRegister ||| regByte a ∧ opOut p o = data := by
  obtain rfl | rfl | ⟨v, rfl, rfl⟩ := hi
  · exact ⟨_, rfl, by simp, rfl⟩
  · exact ⟨_, rfl, by simp, rfl⟩
  · exact ⟨_, rfl, by simp, rfl⟩

/-- A register write with all its answers, from a falling edge, to a chip that makes moves of its own up to the first
data byte only: what it leaves of the chip. -/
theorem exec_write_chip {a : RegAddr} {data : List Byte} {i : Instr} {s : State} {r0 : Reply} {rs rest : List Reply}
    (hi : i = .wbufReg a data ∨ i = .wRegister a data ∨ ∃ v, data = [v] ∧ i = .wreg a v) (hs : s.Idle)
    (hp : s.params.opcodesWf = true) (hcsn : s.csn = .high) (hw : i.WellFormed s.params)
    (he : s.env.replies = r0 :: (rs ++ rest)) (hl : rs.length = data.length) (hq : Quiet (rs.drop 1)) :
    ∃ t, exec i s = .next t ∧ t.params = s.params
      ∧ t.chip = Chip.storeAll s.params a 0 data (s.chip.movedAll (r0 :: rs)) := by
  obtain ⟨o, hc, hhead, hout⟩ := carriedBy_write s.params hi
  refine ⟨_, exec_framer hs hw hc he (by rw [hout, hl]), rfl, ?_⟩
  simp only [framerEnd, hcsn, hhead, hout]
  exact bracketChip_write_quiet hp _ a r0 hl hq _

/-! ### STATUS -/

theorem clearLatched_bits (old v : Byte) : clearLatched old v &&& 0x30#8 = old &&& 0x30#8 &&& ~~~v := by
  have h : maskMaxRt ||| maskTxDs = 0x30#8 := by decide
  unfold clearLatched
  rw [h]
  apply BitVec.eq_of_getElem_eq
  intro k hk
  simp only [BitVec.getElem_and, BitVec.getElem_not, Bool.not_and]
  cases old[k] <;> cases v[k] <;> cases (0x30#8)[k] <;> rfl

/-- Settles O42: STATUS has one byte, so the write is the store of its first byte, or none. -/
theorem statusIsWriteOneToClear : Obligations.StatusIsWriteOneToClear := by
  unfold Obligations.StatusIsWriteOneToClear
  intro s data r0 rs rest i hs hp ha ht hr hcsn hi hw he hl hq
  obtain ⟨t, hexec, hparams, hchip⟩ := exec_write_chip hi hs hp hcsn hw he hl hq
  refine ⟨t, hexec, ?_⟩
  rw [hchip, hparams]
  cases data with
  | nil => exact ⟨by simp [Chip.storeAll, BitVec.and_assoc], fun _ _ _ => rfl⟩
  | cons v data =>
    rw [Chip.storeAll_one_byte ht hr]
    refine ⟨?_, fun a j haj => Chip.readByte_store_status _ a 0 j v _ haj⟩
    rw [Chip.store_status _ _ _ _ (regByteExists_zero ha)]
    exact clearLatched_bits _ v

/-! ### RF_CH and its counter -/

/-- A host step that is a register write. -/
def IsWrite (x : HostStep) : Prop :=
  ∃ a data o, x = .op o ∧ ((∃ v, data = [v] ∧ o = opWreg a v) ∨ o = opWbuf .reg (regByte a) data)

theorem isWrite_opWreg (a : RegAddr) (v : Byte) : IsWrite (.op (opWreg a v)) :=
  ⟨a, [v], _, rfl, .inl ⟨v, rfl, rfl⟩⟩

/-- Where a sequence gets past some register writes, it goes on idle, with chip-select high. -/
theorem settle_writes_return {ws l : List HostStep} {s : State} (hws : ∀ x ∈ ws, IsWrite x)
    (hp : s.params.opcodesWf = true) (hb : s.busy = false) (hh : s.hostSeq = ws ++ l) (hcsn : s.csn = .high)
    (hq : Quiet s.env.replies) (hr : (settle s).busy = false) :
    ∃ u, settle s = settle u ∧ u.params = s.params ∧ u.busy = false ∧ u.hostSeq = l ∧ u.csn = .high
      ∧ Quiet u.env.replies := by
  induction ws generalizing s with
  | nil => exact ⟨s, rfl, rfl, hb, hh, hcsn, hq⟩
  | cons x ws ih =>
    obtain ⟨a, data, o, rfl, ho⟩ := hws x (by simp)
    obtain ⟨s', -, hs, hp', hb', hh', hc', hq', -⟩ :=
      settle_write_returns a data o ho (ws ++ l) s hp hb hh hcsn hq hr
    obtain ⟨u, hu, hup, h⟩ := ih (fun x hx => hws x (by simp [hx])) (hp' ▸ hp) hb' hh' hc' hq' (hs ▸ hr)
    exact ⟨u, hs.trans hu, hup.trans hp', h⟩

/-- A sequence of register writes with a write of RF_CH among them, once it has returned, leaves the counter at 0. -/
theorem settle_channel_counter {ws l : List HostStep} {ch : Nat} {s : State} (hws : ∀ x ∈ ws, IsWrite x)
    (hl : ∀ x ∈ l, StepIn (fun _ => True) x) (hp : s.params.opcodesWf = true) (hr : s.params.aRfCh ≠ s.params.aStatus)
    (ha : s.params.aRfCh.toNat ≤ 0x17) (hb : s.busy = false) (hh : s.hostSeq = ws ++ setChStep s.params ch :: l)
    (hcsn : s.csn = .high) (hq : Quiet s.env.replies) (hret : (settle s).busy = false) :
    (settle s).chip.counter = 0 := by
  obtain ⟨u, hu, hup, hub, huh, huc, huq⟩ := settle_writes_return hws hp hb hh hcsn hq hret
  rw [hu] at hret ⊢
  rw [← hup] at hp hr ha huh
  obtain ⟨w, rs, hw, hwp, hwb, hwh, -, hwq, hlen, hrs, hchip⟩ :=
    settle_write_returns _ _ _ (.inl ⟨_, rfl, rfl⟩) l u hp hub huh huc huq hret
  have hzero : w.chip.counter = 0 := by
    rw [hchip, Chip.takeAll_write_quiet hp _ hlen hrs, Chip.storeAll_counter hr ha, if_pos ⟨rfl, by simp⟩]
  have hrest : w = { { w with hostSeq := [] } with hostSeq := l } := by rw [← hwh]
  rw [hw, hrest]
  refine settle_confined (fun _ => True) (·.counter = 0) l { w with hostSeq := [] } (by simpa [hwp] using hp)
    ((State.idle_iff _).mpr ⟨hwb, rfl⟩) hwq hl (fun a j v c _ hc => ?_) hzero
  rw [Chip.store_counter _ _ _ _ _ (by simpa [hwp] using hr), hc, ite_self]

/-- Settles O43: a register write is a run of stores, of which those to RF_CH alone touch the counter; and SETCH and
ENTERTX write RF_CH, with nothing but register writes around it. -/
theorem theChannelWriteClearsTheCounter : Obligations.TheChannelWriteClearsTheCounter := by
  unfold Obligations.TheChannelWriteClearsTheCounter
  intro s hs hp ha hr hcsn
  refine ⟨fun a data r0 rs rest i hi hw he hl hq => ?_, fun i t hi hq h hidle => ?_⟩
  · obtain ⟨t, hexec, -, hchip⟩ := exec_write_chip hi hs hp hcsn hw he hl hq
    exact ⟨t, hexec, by rw [hchip, Chip.storeAll_counter hr ha]⟩
  · rw [exec_eq_perform] at h
    obtain ⟨-, -, rfl⟩ := perform_next i _ s t h
    obtain ⟨hb, -⟩ := s.idle_iff.mp hs
    obtain ⟨hret, -⟩ := (State.idle_iff _).mp hidle
    obtain ⟨ch, rfl⟩ | ⟨cfg, rfl⟩ := hi
    · exact settle_channel_counter (ws := []) (l := []) (by simp) (by simp) hp hr ha hb rfl hcsn hq hret
    · have hlow := settle_setce .low _ { s with hostSeq := hostSteps s.params (.enterTx cfg) } hb rfl
      rw [hlow] at hret ⊢
      refine settle_channel_counter (ws := [.op (opWreg _ _), .op (opWreg _ _), .op (opWreg _ _)])
        (by simp [isWrite_opWreg]) ?_ hp hr ha hb rfl hcsn hq hret
      simp [StepIn, opIn_wbuf, opIn_wreg]

/-! ### A byte written and read back -/

/-- FIFO status in its two parts: what was stored, and bit 4, which shows the TX FIFO (R69). -/
theorem fifoStatusByte_eq (v : Byte) (q : List (List Byte)) :
    fifoStatusByte v q = (v &&& 0xEF#8) ||| (if q = [] then 0x10#8 else 0x00#8) := by
  cases q <;> rfl

/-- A chip that returns a register's content to a read answers with its first byte (R34). -/
theorem Chip.answer_read {p : Params} (hp : p.opcodesWf = true) {a : RegAddr} (ha : a.toNat ≤ 0x17) (c : Chip) :
    Chip.answer p c (some { cmd := some (p.opRRegister ||| regByte a), data := [] })
      = some (Chip.readByte p c a 0) := by
  obtain ⟨hr, -, -, -, -⟩ := p.opcodesWf_iff.mp hp
  simp [Chip.answer, opBits_or_regByte _ a hr, addrOf_or_regByte _ a hr, regByteExists_zero ha]

/-- Settles O41: the write stores its byte, and the read returns what the chip holds there. -/
theorem aWrittenRegisterIsReadBack : Obligations.AWrittenRegisterIsReadBack := by
  unfold Obligations.AWrittenRegisterIsReadBack
  intro s t a v r0 r1 q0 q1 rest hs hp hcsn ha hstatus he _ _ h hanswer
  obtain ⟨t', hexec, hparams, hchip⟩ := exec_write_chip (rs := [r1]) (.inr (.inr ⟨v, rfl, rfl⟩)) hs hp hcsn rfl he rfl
    (by simp [Quiet])
  rw [exec_framer (rs := [r1]) hs rfl rfl he rfl, Host.Outcome.next.injEq] at h hexec
  obtain rfl := h.symm.trans hexec
  have hidle : t.Idle := by rw [← h]; exact hs
  have hreplies : t.env.replies = q0 :: ([q1] ++ rest) := by rw [← h]; rfl
  have hq1 : q1.rx = Chip.readByte s.params t.chip a 0 := by
    have hread := hanswer _ (Chip.answer_read (hparams ▸ hp) ha t.chip)
    rwa [hparams] at hread
  have hstored : t.chip = Chip.store s.params a 0 v (s.chip.movedAll [r0, r1]) := hchip
  refine ⟨_, exec_framer hidle rfl rfl hreplies rfl, fun hf => ?_, fun hf => ?_⟩
  · change some (Response.value q1.rx) = _
    rw [hq1, hstored, Chip.readByte_store_same _ _ _ _ _ hstatus (.inl hf) (regByteExists_zero ha)]
  · change some (Response.value q1.rx) = _
    subst hf
    obtain ⟨hfifo, -⟩ := Chip.store_frame s.params s.params.aFifoStatus 0 v (s.chip.movedAll [r0, r1])
    rw [hq1, hstored, Chip.readByte_store_fifo _ _ _ hstatus (regByteExists_zero ha), fifoStatusByte_eq, hfifo]

/-! ### The queues -/

section
variable {p : Params}

theorem Chip.finish_load (hp : p.opcodesWf = true) (data : List Byte) (c : Chip) :
    Chip.finish p { cmd := some p.opWTxPayload, data := data } c = { c with txFifo := c.txFifo ++ [data] } := by
  obtain ⟨-, -, -, -, hc⟩ := p.opcodesWf_iff.mp hp
  obtain ⟨hr, hw⟩ := hc p.opWTxPayload (by simp [Params.fixedCommands])
  simp [Chip.finish, hr, hw]

theorem Chip.finish_flushTx (hp : p.opcodesWf = true) (data : List Byte) (c : Chip) :
    Chip.finish p { cmd := some p.opFlushTx, data := data } c = { c with txFifo := [] } := by
  obtain ⟨-, -, -, -, hc⟩ := p.opcodesWf_iff.mp hp
  obtain ⟨hr, hw⟩ := hc p.opFlushTx (by simp [Params.fixedCommands])
  obtain ⟨h1, -⟩ := queueCommands_ne hp
  simp [Chip.finish, hr, hw, h1]

theorem Chip.finish_flushRx (hp : p.opcodesWf = true) (data : List Byte) (c : Chip) :
    Chip.finish p { cmd := some p.opFlushRx, data := data } c = { c with rxFifo := [] } := by
  obtain ⟨-, -, -, -, hc⟩ := p.opcodesWf_iff.mp hp
  obtain ⟨hr, hw⟩ := hc p.opFlushRx (by simp [Params.fixedCommands])
  obtain ⟨-, h1, h2, -⟩ := queueCommands_ne hp
  simp [Chip.finish, hr, hw, h1, h2]

/-- What FIFO status shows follows the TX FIFO alone, where no store comes between. -/
theorem Chip.readByte_fifoStatus_txFifo (hf : p.aFifoStatus ≠ p.aStatus) (c : Chip) (q : List (List Byte)) :
    Chip.readByte p { c with txFifo := q } p.aFifoStatus 0
      = (Chip.readByte p c p.aFifoStatus 0 &&& 0xEF#8) ||| (if q = [] then 0x10#8 else 0x00#8) := by
  simp only [Chip.readByte, hf, false_and, and_self, ↓reduceIte, fifoStatusByte_rest]
  exact fifoStatusByte_eq _ q

end

/-- A fixed command that WBUF carries, with all its answers, from a falling edge, to a chip that makes no move of its
own: what happens at its end is all. -/
theorem exec_command_chip {i : Instr} {h : Byte} {data : List Byte} {s : State} {r0 : Reply} {rs rest : List Reply}
    (hc : carriedBy s.params i = some (opWbuf .cmd h data)) (hs : s.Idle) (hp : s.params.opcodesWf = true)
    (hh : h ∈ s.params.fixedCommands) (hcsn : s.csn = .high) (hw : i.WellFormed s.params)
    (he : s.env.replies = r0 :: (rs ++ rest)) (hl : rs.length = data.length) (hq : Quiet (r0 :: rs)) :
    ∃ t, exec i s = .next t ∧ t.params = s.params
      ∧ t.chip = Chip.finish s.params { cmd := some h, data := data } s.chip := by
  obtain ⟨-, -, -, -, hne⟩ := s.params.opcodesWf_iff.mp hp
  refine ⟨_, exec_framer hs hw hc he hl, rfl, ?_⟩
  simp [framerEnd, hcsn, bracketChip, Chip.takeAll_quiet (hne h hh).2 hl hq]

theorem masked_or_bit4 (v : Byte) : (v &&& 0xEF#8) ||| 0x10#8 = v ||| 0x10#8 := by
  decide +revert

/-- Settles O44: each of the three is a fixed command, whose effect falls on the closing edge. -/
theorem payloadsAreQueuedAndFlushed : Obligations.PayloadsAreQueuedAndFlushed := by
  unfold Obligations.PayloadsAreQueuedAndFlushed
  intro s r0 rs rest hs hp hcsn he hq
  refine ⟨fun data hn hl => ?_, fun hl => ?_, fun hl => ?_⟩
  · obtain ⟨t, hexec, hparams, hchip⟩ := exec_command_chip (i := .wTxPayload data) rfl hs hp
      (by simp [Params.fixedCommands]) hcsn (if_pos hn) he hl hq
    refine ⟨t, hexec, ?_⟩
    rw [hparams, hchip, Chip.finish_load hp]
    refine ⟨rfl, rfl, fun hf => ?_, fun a j haj => Chip.readByte_txFifo _ _ _ a j haj⟩
    rw [Chip.readByte_fifoStatus_txFifo hf, if_neg (by simp), BitVec.or_zero]
  · obtain ⟨t, hexec, hparams, hchip⟩ := exec_command_chip (i := .flushTx) rfl hs hp
      (by simp [Params.fixedCommands]) hcsn rfl he hl hq
    refine ⟨t, hexec, ?_⟩
    rw [hparams, hchip, Chip.finish_flushTx hp]
    refine ⟨rfl, rfl, fun hf => ?_, fun a j haj => Chip.readByte_txFifo _ _ _ a j haj⟩
    rw [Chip.readByte_fifoStatus_txFifo hf, if_pos rfl]
    exact masked_or_bit4 _
  · obtain ⟨t, hexec, hparams, hchip⟩ := exec_command_chip (i := .flushRx) (data := []) rfl hs hp
      (by simp [Params.fixedCommands]) hcsn rfl he (by rw [hl]; rfl) hq
    refine ⟨t, hexec, ?_⟩
    rw [hparams, hchip, Chip.finish_flushRx hp]
    exact ⟨rfl, rfl, fun a j => Chip.readByte_congr _ _ _ rfl rfl rfl a j⟩

end Sys2Proof.Machine
end

section
/-! PROOF. TXPKT from its load to its return (41_transmit_fsm.md rules R110 to R121 and R123), and the packing of
SETUP_RETR (30_encoding.md rule R55). -/

namespace Sys2Proof.Machine

/-! ### From the classification to the return -/

section
variable {s : State}

/-- With neither completion bit set TXPKT returns straight from `T_CLASS` (R117, R123). -/
theorem settle_class_returns (hb : s.busy = true) (hq : s.seq = .tClass) (hz : s.sReg &&& 0x30#8 = 0x00#8) :
    settle s = settle (transmitRet s) := by
  have hn : flushNeeded s.sReg = false := by rw [flushNeeded_eq]; simp [hz]
  rw [settle_class s hb hq, hn, settle_tRet _ (by exact hb) (by rfl)]
  rfl

/-- With a completion bit set the flush comes before the return (R117, R118, R123). -/
theorem settle_class_flushes (hb : s.busy = true) (hq : s.seq = .tClass) (hz : s.sReg &&& 0x30#8 ≠ 0x00#8)
    {f0 : Reply} {fs rest : List Reply} (he : s.env.replies = f0 :: (fs ++ rest))
    (hl : fs.length = s.params.flushTrailer.length) :
    settle s
      = settle (transmitRet (bracketEnd .flush f0 fs rest { s with seq := .frame .flush .sel })) := by
  have hn : flushNeeded s.sReg = true := by rw [flushNeeded_eq]; simp [hz]
  rw [settle_class s hb hq, hn, if_pos rfl,
    settle_bracket .flush f0 fs rest { s with seq := .frame .flush .sel } hb rfl he hl,
    settle_tRet _ (by exact hb) (by rfl)]
  rfl

end

/-- A TXPKT in its domain on an idle machine is its one host step (R110). -/
theorem exec_txpkt {s : State} {payload : List Byte} (hs : s.Idle) (hn : payload.length ≤ s.params.nMax) :
    exec (.txpkt payload) s = .next (settle { s with hostSeq := [.op (opTxpkt payload)] }) := by
  rw [exec_eq_perform]
  exact perform_idle _ _ s hs (if_pos hn)

/-- Settles O27: the run to `T_CLASS` is the same for every outcome; from there it returns at once, or after the
flush. -/
theorem txpktRunsFromLoadToReturn : Obligations.TxpktRunsFromLoadToReturn := by
  unfold Obligations.TxpktRunsFromLoadToReturn
  intro s payload l0 ls h1 d1 h2 d2 fl rest hs x more hidle hn he hl hfl hnext
  obtain ⟨hb, -⟩ := s.idle_iff.mp hidle
  rw [exec_txpkt hidle hn, settle_txpkt_to_class payload l0 ls h1 d1 h2 d2 (fl ++ rest) hs x more [] _ (by exact hb)
    (by rfl) (by exact he) hl (by exact hnext)]
  -- the states on both paths are literals, so every field but the outcome and the events is read off by `rfl`
  cases fl with
  | nil =>
    have hz : d1.rx &&& 0x30#8 = 0x00#8 := by
      by_contra hne
      rw [if_neg hne, List.length_nil] at hfl
      omega
    rw [settle_class_returns (by rfl) (by rfl) (by exact hz), settle_nil _ (by rfl) (by rfl)]
    refine ⟨_, [], classify d1.rx, rfl, rfl, classify_eq d1.rx, ?_, rfl, rfl, rfl, rfl, rfl, rfl, rfl, rfl, rfl, rfl,
      rfl, rfl, rfl, rfl, rfl, rfl, rfl, _, _, _, rfl, rfl, rfl, rfl⟩
    rw [List.append_nil]
    rfl
  | cons f0 fs =>
    have hz : d1.rx &&& 0x30#8 ≠ 0x00#8 := by
      intro h0
      simp [h0] at hfl
    have hfs : fs.length = s.params.flushTrailer.length := by
      rw [if_neg hz, List.length_cons] at hfl
      omega
    rw [settle_class_flushes (by rfl) (by rfl) (by exact hz) (by rfl) (by exact hfs), settle_nil _ (by rfl) (by rfl)]
    exact ⟨_, _, classify d1.rx, rfl, rfl, classify_eq d1.rx, rfl, rfl, rfl, rfl, rfl, rfl, rfl, rfl, rfl, rfl, rfl,
      rfl, rfl, rfl, rfl, rfl, rfl, rfl, _, _, _, rfl, rfl, rfl, rfl⟩

/-! ### The packing of SETUP_RETR -/

/-- A bit of the packed byte, from the nibble it lies in. -/
theorem packRetr_getLsbD (delay : Nat) {count i : Nat} (hc : count ≤ 15) (hi : i < 8) :
    (packRetr delay count).getLsbD i = if i < 4 then count.testBit i else delay.testBit (i - 4) := by
  have hhigh : 4 ≤ i → count.testBit i = false := fun h =>
    Nat.testBit_lt_two_pow (Nat.lt_of_lt_of_le (Nat.lt_succ_of_le hc) (Nat.pow_le_pow_right (n := 2) (by omega) h))
  rw [packRetr, BitVec.getLsbD_or, BitVec.getLsbD_shiftLeft, BitVec.getLsbD_ofNat, BitVec.getLsbD_ofNat]
  by_cases h : i < 4
  · simp [h, hi]
  · simp [h, hi, hhigh (by omega), show i - 4 < 8 by omega]

/-- Settles O12, bit by bit. -/
theorem retransmitByteIsPackedInNibbles : Obligations.RetransmitByteIsPackedInNibbles := by
  unfold Obligations.RetransmitByteIsPackedInNibbles
  refine ⟨fun delay count _ hc => ⟨?_, ?_⟩, by decide⟩
  · apply BitVec.eq_of_getLsbD_eq
    intro i hi
    rw [BitVec.getLsbD_extractLsb', packRetr_getLsbD delay hc (by omega), BitVec.getLsbD_ofNat]
    simp
  · apply BitVec.eq_of_getLsbD_eq
    intro i hi
    rw [BitVec.getLsbD_extractLsb', packRetr_getLsbD delay hc (by omega), BitVec.getLsbD_ofNat]
    simp [hi]

end Sys2Proof.Machine
end

section
/-! PROOF. The framer's operations as the host sees them (40_command_framer.md rules R80 to R97): the state after one
with all its answers, the events it emits, what it leaves alone, and where it waits if an answer is missing. -/

namespace Sys2Proof.Machine

/-! ### The bytes and the response of each operation -/

section
variable (p : Params)

@[simp] theorem opOut_opWreg (a : RegAddr) (v : Byte) : opOut p (opWreg a v) = [v] := rfl
@[simp] theorem opOut_opRbuf (sel : HeadSel) (h : Byte) (n : Nat) :
    opOut p (opRbuf sel h n) = List.replicate n p.dummy := rfl

end

section
variable {s : State} {r0 : Reply} {rs rest : List Reply} {i : Instr}

/-- RBUF answers with the bytes of its own bracket alone (R83). -/
theorem framerResponse_opRbuf (sel : HeadSel) (h st : Byte) (old : List Byte) {n : Nat} (hl : rs.length = n) :
    framerResponse (opRbuf sel h n) st (latched old rs) = .buffer st (received rs) := by
  subst hl
  cases rs <;> simp [framerResponse, opRbuf, latched, received]

/-- An operation that RBUF carries, with all its answers (R83). -/
theorem exec_rbuf_returns {sel : HeadSel} {h : Byte} {n : Nat} (hc : carriedBy s.params i = some (opRbuf sel h n))
    (hs : s.Idle) (hw : i.WellFormed s.params) (he : s.env.replies = r0 :: (rs ++ rest)) (hl : rs.length = n) :
    exec i s = .next (framerEnd (opRbuf sel h n) (opHead s.params (opRbuf sel h n)) (List.replicate n s.params.dummy)
      (rbufClose s.params) (.buffer r0.rx (received rs)) r0 rs rest s) := by
  rw [exec_framer hs hw hc he (by simpa using hl), framerResponse_opRbuf sel h _ _ hl]
  rfl

/-- An operation that WBUF carries, with all its answers (R84). -/
theorem exec_wbuf_returns {sel : HeadSel} {h : Byte} {data : List Byte}
    (hc : carriedBy s.params i = some (opWbuf sel h data)) (hs : s.Idle) (hw : i.WellFormed s.params)
    (he : s.env.replies = r0 :: (rs ++ rest)) (hl : rs.length = data.length) :
    exec i s = .next (framerEnd (opWbuf sel h data) (opHead s.params (opWbuf sel h data)) data .high
      (.status r0.rx) r0 rs rest s) :=
  exec_framer hs hw hc he hl

theorem illegalCount_of_le {p : Params} {n : Nat} (hn : n ≤ p.nMax) : illegalCount p n = none := if_pos hn

theorem illegalCommand_of_mem {p : Params} {c : Byte} {n : Nat} (hc : c ∈ p.fixedCommands) (hn : n ≤ p.nMax) :
    illegalCommand p c n = none := by
  rw [illegalCommand, if_pos (List.contains_iff_mem.mpr hc), illegalCount_of_le hn]

end

/-- Settles O13: WREG is one bracket with one data byte. -/
theorem wregWritesOneByteAndReturnsStatus : Obligations.WregWritesOneByteAndReturnsStatus := by
  unfold Obligations.WregWritesOneByteAndReturnsStatus
  intro s a v r0 r1 rest hs he
  rw [exec_framer (rs := [r1]) hs rfl rfl he rfl, opHead_opWreg]
  rfl

/-- Settles O14: RREG is one bracket with one data byte, and returns what that exchange brought. -/
theorem rregReturnsTheSecondByte : Obligations.RregReturnsTheSecondByte := by
  unfold Obligations.RregReturnsTheSecondByte
  intro s a r0 r1 rest hs he
  rw [exec_framer (rs := [r1]) hs rfl rfl he rfl, opHead_opRreg]
  rfl

/-- Settles O15: each form is one bracket of dummy bytes. -/
theorem rbufCollectsTheBytesInOrder : Obligations.RbufCollectsTheBytesInOrder := by
  unfold Obligations.RbufCollectsTheBytesInOrder
  intro s n r0 rs rest hs hn he hl
  refine ⟨fun a => ?_, fun c hc => ?_⟩
  · rw [exec_rbuf_returns (i := .rbufReg a n) rfl hs (illegalCount_of_le hn) he hl, opHead_opRbuf_reg]
    rfl
  · exact exec_rbuf_returns rfl hs (illegalCommand_of_mem hc hn) he hl

/-- Settles O16: each form is one bracket of its bytes. -/
theorem wbufSendsTheBytesInOrder : Obligations.WbufSendsTheBytesInOrder := by
  unfold Obligations.WbufSendsTheBytesInOrder
  intro s data r0 rs rest hs hn he hl
  refine ⟨fun a => ?_, fun c hc => ?_⟩
  · rw [exec_wbuf_returns (i := .wbufReg a data) rfl hs (illegalCount_of_le hn) he hl, opHead_opWbuf_reg]
  · exact exec_wbuf_returns rfl hs (illegalCommand_of_mem hc hn) he hl

/-- Settles O18: RBUF carries both. -/
theorem wireReadsAreBracketsOfDummyBytes : Obligations.WireReadsAreBracketsOfDummyBytes := by
  unfold Obligations.WireReadsAreBracketsOfDummyBytes
  intro s n r0 rs rest hs hn he hl
  refine ⟨fun a => ?_, exec_rbuf_returns rfl hs (illegalCount_of_le hn) he hl⟩
  rw [exec_rbuf_returns (i := .rRegister a n) rfl hs (illegalCount_of_le hn) he hl, opHead_opRbuf_reg]

/-- Settles O19: WBUF carries both. -/
theorem wireWritesAreBracketsOfTheirBytes : Obligations.WireWritesAreBracketsOfTheirBytes := by
  unfold Obligations.WireWritesAreBracketsOfTheirBytes
  intro s data r0 rs rest hs hn he hl
  refine ⟨fun a => ?_, exec_wbuf_returns rfl hs (illegalCount_of_le hn) he hl⟩
  rw [exec_wbuf_returns (i := .wRegister a data) rfl hs (illegalCount_of_le hn) he hl, opHead_opWbuf_reg]

/-- Settles O20: WBUF carries all four, with the trailer as its bytes or with none. -/
theorem flushesAndNopSendTheirHeadByte : Obligations.FlushesAndNopSendTheirHeadByte := by
  unfold Obligations.FlushesAndNopSendTheirHeadByte
  intro s r0 rs rest hs he
  refine ⟨fun hl => ⟨exec_wbuf_returns rfl hs rfl he hl, exec_wbuf_returns rfl hs rfl he hl⟩, fun hl => ?_⟩
  subst hl
  exact ⟨exec_wbuf_returns rfl hs rfl he rfl, exec_wbuf_returns rfl hs rfl he rfl⟩

/-- Settles O48: RBUF closes its bracket low, so the next bracket opens without a falling edge, and the chip makes its
own moves alone. -/
theorem theErratumLeavesChipSelectLow : Obligations.TheErratumLeavesChipSelectLow := by
  unfold Obligations.TheErratumLeavesChipSelectLow
  intro s a b n v r0 rs q0 q1 rest hs herr hn he hl
  obtain ⟨hb, -⟩ := s.idle_iff.mp hs
  have hlow : rbufClose s.params = .low := if_pos herr
  refine ⟨_, _, exec_rbuf_returns rfl hs (illegalCount_of_le hn) he hl, hlow, hb,
    wregWritesOneByteAndReturnsStatus _ b v q0 q1 rest (by exact hs) (by rfl), rfl, ?_, ?_⟩
  · simp only [framerEnd, hlow]
    rfl
  · rfl

/-! ### The events of a bracket -/

/-- An exchange. -/
def Event.isExchange : Event → Bool
  | .x _ _ => true
  | .csn _ | .ce _ | .irq _ | .ret _ => false

/-- An event of a bracket: a write of chip-select or an exchange. -/
def Event.ofBracket : Event → Bool
  | .csn _ | .x _ _ => true
  | .ce _ | .irq _ | .ret _ => false

section
variable {out : List Byte} {rs : List Reply}

theorem dataEvents_exchanges (out : List Byte) (rs : List Reply) : ∀ e ∈ dataEvents out rs, e.isExchange = true := by
  intro e he
  obtain ⟨k, hk, rfl⟩ := List.mem_iff_getElem.mp he
  simp [dataEvents, Event.isExchange]

theorem dataEvents_length (hl : rs.length = out.length) : (dataEvents out rs).length = out.length := by
  simp [dataEvents, hl]

/-- A bracket with `n` data bytes is `n + 3` events, of which `n + 1` are exchanges (R80). -/
theorem frameEvents_length (h : Byte) (close : Level) (r0 : Reply) (hl : rs.length = out.length) :
    (frameEvents h out close r0 rs).length = out.length + 3
      ∧ ((frameEvents h out close r0 rs).filter Event.isExchange).length = out.length + 1 := by
  have hx : (dataEvents out rs).filter Event.isExchange = dataEvents out rs :=
    List.filter_eq_self.mpr (dataEvents_exchanges out rs)
  constructor
  · simp [frameEvents, dataEvents_length hl]
  · simp [frameEvents, List.filter_cons, Event.isExchange, hx, dataEvents_length hl]

theorem dataEvents_ofBracket (out : List Byte) (rs : List Reply) : ∀ e ∈ dataEvents out rs, e.ofBracket = true := by
  intro e he
  have hx := dataEvents_exchanges out rs e he
  cases e <;> simp_all [Event.isExchange, Event.ofBracket]

theorem frameEvents_ofBracket (h : Byte) (out : List Byte) (close : Level) (r0 : Reply) (rs : List Reply) :
    ∀ e ∈ frameEvents h out close r0 rs, e.ofBracket = true := by
  simp only [frameEvents, List.mem_append, List.mem_cons, List.not_mem_nil, or_false]
  rintro e (((rfl | rfl) | he) | rfl)
  · rfl
  · rfl
  · exact dataEvents_ofBracket out rs e he
  · rfl

end

/-- The data bytes that a framer operation sends are as many as its `COUNT` latch says (R65). -/
theorem opOut_length_of_carriedBy {p : Params} {i : Instr} {o : Operands} (hc : carriedBy p i = some o) :
    (opOut p o).length = o.count := by
  cases i <;> simp only [carriedBy, Option.some.injEq, reduceCtorEq] at hc <;> subst hc <;>
    simp [opWreg, opRreg, opRbuf, opWbuf, opOut]

/-- Settles O21: the operation has returned, so its bracket was answered whole. -/
theorem aFramerOperationEmitsNPlusThreeEvents : Obligations.AFramerOperationEmitsNPlusThreeEvents := by
  unfold Obligations.AFramerOperationEmitsNPlusThreeEvents
  intro s t i o _ hc h hb
  obtain ⟨r0, rs, rest, -, hl, rfl⟩ | rfl := exec_framer_next hc h
  · obtain ⟨hlen, hx⟩ := frameEvents_length (opHead s.params o) (opClose s.params o) r0 hl
    rw [opOut_length_of_carriedBy hc] at hlen hx
    exact ⟨_, _, rfl, hlen, hx⟩
  · simp at hb

/-! ### What a framer operation leaves alone -/

/-- The events a bracket emits before it waits for an answer. -/
theorem bracketWaits_trace (t : Txn) (s : State) :
    (bracketWaits t s).trace = s.trace ++ ([.csn .low] ++ dataEvents (txnHead s t :: txnOut s t) s.env.replies) := by
  unfold bracketWaits
  split
  · rename_i he
    simp [he, dataEvents]
  · rename_i he
    simp [he]

/-- `t` is a later state than `s` in which nothing but the framer's own latches, chip-select, the answers to exchanges,
the chip and the host's response differ (R96 (d), (e)). -/
structure FramerFrame (s t : State) : Prop where
  ce : t.ce = s.ce
  samples : t.env.samples = s.env.samples
  line : t.env.line = s.env.line
  sReg : t.sReg = s.sReg
  presence : t.presence = s.presence
  inbox : t.inbox = s.inbox
  params : t.params = s.params
  freeCount : t.freeCount = s.freeCount

theorem bracketWaits_frame (s : State) : FramerFrame s (bracketWaits .op s) := by
  unfold bracketWaits
  split <;> exact ⟨rfl, rfl, rfl, rfl, rfl, rfl, rfl, rfl⟩

theorem bracketWaits_ops (t : Txn) (s : State) : (bracketWaits t s).ops = s.ops := by
  unfold bracketWaits
  split <;> rfl

/-- Settles O22: the operation has returned, or it waits inside its bracket; either way its events are those of the
bracket, and its `RET`. -/
theorem framerOperationsLeaveChipEnableAndTheLineAlone :
    Obligations.FramerOperationsLeaveChipEnableAndTheLineAlone := by
  unfold Obligations.FramerOperationsLeaveChipEnableAndTheLineAlone
  intro s t i o _ hc h
  have absent (es : List Event) (hes : ∀ e ∈ es, e.ofBracket = true) (l : Level) :
      Event.ce l ∉ es ∧ Event.irq l ∉ es :=
    ⟨fun hm => Bool.false_ne_true (hes _ hm), fun hm => Bool.false_ne_true (hes _ hm)⟩
  obtain ⟨r0, rs, rest, -, -, rfl⟩ | rfl := exec_framer_next hc h
  · refine ⟨rfl, rfl, rfl, rfl, rfl, rfl, rfl, rfl, rfl, _, List.append_assoc _ _ _, fun l => ?_⟩
    simpa using absent _ (frameEvents_ofBracket _ _ _ r0 rs) l
  · obtain ⟨hce, hsamples, hline, hS, hpresence, hinbox, hparams, hfree⟩ :=
      bracketWaits_frame { s with ops := o, busy := true, seq := .frame .op .sel, hostSeq := [] }
    refine ⟨hce, hsamples, hline, hS, hpresence, hinbox, hparams, bracketWaits_ops _ _, hfree, _,
      bracketWaits_trace _ _, fun l => ?_⟩
    simpa using absent _ (dataEvents_ofBracket _ _) l

/-- Settles O23: the answers run out inside the operation's bracket. -/
theorem anUnansweredFramerOperationHangs : Obligations.AnUnansweredFramerOperationHangs := by
  unfold Obligations.AnUnansweredFramerOperationHangs
  intro s i o hs hi hc hl
  obtain ⟨hsteps, hf⟩ := hostSteps_of_carriedBy hc
  obtain ⟨-, hb, hcsn, hresp, -, -, htrace, hstep⟩ :=
    bracketWaits_spec .op { s with ops := o, busy := true, seq := .frame .op .sel, hostSeq := [] } rfl hl
  refine ⟨_, ?_, hb, hcsn, hresp, htrace, hstep⟩
  rw [exec_eq_perform, hsteps, perform_framer_short i o s hs hi hf hl]

end Sys2Proof.Machine
end

section
/-! PROOF. The step and its runs (40_command_framer.md rules R94, R96 and R97): when a request is taken up or refused, what
a phase of the framer does, and that an operation is a run of the sequencer. -/

namespace Sys2Proof.Machine

/-! ### When a step is refused -/

theorem perform_of_inProgress {s : State} (hs : inProgress s = true) (i : Instr) (steps : List HostStep) :
    perform i steps s = .refused .busy :=
  if_pos hs

/-- No micro-step looks at the command port. -/
theorem micro_inbox (s : State) : (micro s).inbox = s.inbox := by
  have hblock : (blockTick s).inbox = s.inbox := by
    unfold blockTick
    cases s.seq with
    | frame t f =>
      obtain ⟨-, -, -, -, -, h, -⟩ := frameTick_keeps t f s
      exact h
    | idle | cSet | tArm | tPoll | tSettle | tClass | tRet | ret => rfl
  have hhost : (hostTick s).inbox = s.inbox := by
    unfold hostTick
    split
    · rfl
    · rfl
    · split <;> rfl
    · rfl
  unfold micro
  split
  · exact hblock
  · exact hhost

theorem settle_inbox (s : State) : (settle s).inbox = s.inbox :=
  settle_induction (·.inbox = s.inbox) (fun t h => (micro_inbox t).trans h) s rfl

theorem step_of_inProgress {s : State} (hs : inProgress s = true) : step s = .next (settle (micro s)) :=
  if_pos hs

/-- Settles O3: the operation in progress goes on, and none of its micro-steps looks at the port. -/
theorem nothingIsAcceptedWhileBusy : Obligations.NothingIsAcceptedWhileBusy := by
  unfold Obligations.NothingIsAcceptedWhileBusy
  intro s hs
  have hp : inProgress s = true := by simpa using hs
  refine ⟨fun i => ?_, _, step_of_inProgress hp, (settle_inbox _).trans (micro_inbox s)⟩
  rw [exec_eq_perform, perform_of_inProgress hp]

/-! ### The step of an idle machine -/

theorem step_of_no_request {s : State} (hs : s.Idle) (hin : s.inbox = []) : step s = .next s := by
  simp [step, show inProgress s = false from hs, fetch, hin]

section
variable {s : State} {r : Request} {rest : List Request}

theorem step_of_undecodable (hs : s.Idle) (hin : s.inbox = r :: rest) {e : DecodeError}
    (hd : decode s.params (r.complete s.freeCount) = .error e) : step s = .refused (.undecodable e) := by
  simp [step, show inProgress s = false from hs, fetch, hin, hd]

theorem step_of_decodes (hs : s.Idle) (hin : s.inbox = r :: rest) {i : Instr}
    (hd : decode s.params (r.complete s.freeCount) = .ok i) :
    step s = exec i { s with inbox := rest, freeCount := s.freeCount + r.missing } := by
  simp [step, show inProgress s = false from hs, fetch, hin, hd]

end

theorem wellFormed_of_decodeWire {p : Params} {h : Byte} {data : List Byte} {i : Instr}
    (hd : decodeWire p h data = .ok i) : i.WellFormed p := by
  unfold decodeWire at hd
  split_ifs at hd <;> exact (inDomain_ok p _ i hd).2

/-- Whatever decodes to an operation lies in its domain. -/
theorem wellFormed_of_decode {p : Params} {r : Request} {i : Instr} (hd : decode p r = .ok i) : i.WellFormed p := by
  cases r with
  | wire h data => exact wellFormed_of_decodeWire hd
  | host w data => exact (decodeHost_ok p w _ i hd).1
  | pseudo op => exact (inDomain_ok p _ i hd).2

/-- A legal operation on an idle machine runs its host steps. -/
theorem exec_idle {i : Instr} {s : State} (hs : s.Idle) (hi : i.WellFormed s.params) :
    exec i s = .next (settle { s with hostSeq := hostSteps s.params i }) := by
  rw [exec_eq_perform, perform_idle i _ s hs hi]

/-- Settles O5: an operation in progress goes on, an idle machine with no request waits, and a request that decodes is an
operation in its domain, which an idle machine performs. -/
theorem aStepIsRefusedExactlyIfItsRequestDoesNotDecode :
    Obligations.AStepIsRefusedExactlyIfItsRequestDoesNotDecode := by
  unfold Obligations.AStepIsRefusedExactlyIfItsRequestDoesNotDecode
  intro s
  refine ⟨fun r rest e hs hin hd => step_of_undecodable hs hin hd, fun hok => ?_⟩
  by_cases hs : s.Idle
  · cases hin : s.inbox with
    | nil => exact ⟨s, step_of_no_request hs hin⟩
    | cons r rest =>
      cases hd : decode s.params (r.complete s.freeCount) with
      | error e => exact absurd hd (hok r rest e hs hin)
      | ok i =>
        rw [step_of_decodes hs hin hd]
        exact ⟨_, exec_idle (by exact hs) (wellFormed_of_decode hd)⟩
  · exact ⟨_, step_of_inProgress (by simpa using hs)⟩

/-! ### The phases of the framer -/

/-- Settles O24: each clause is one phase of R94, with or without an answer. -/
theorem framerPhasesStepAsTabulated : Obligations.FramerPhasesStepAsTabulated := by
  unfold Obligations.FramerPhasesStepAsTabulated
  intro s t hb
  have hmicro {f : FramePhase} (hq : s.seq = .frame t f) : micro s = frameTick t f s := by
    rw [micro, if_pos hb]
    simp [blockTick, hq]
  refine ⟨fun hq => ?_, fun hq he => ?_, fun r rest hq he => ?_, fun o hq ho he => ?_,
    fun o r rest hq ho he hi => ?_, fun hq => ?_⟩ <;> rw [hmicro hq]
  · exact ⟨rfl, rfl, rfl⟩
  · simp [frameTick, frameHead, he]
  · simp [frameTick, frameHead, he, dataOrRel]
  · simp [frameTick, frameData, ho, he]
  · simp [frameTick, frameData, ho, he, dataOrRel, latchIn, hi]
  · cases t <;> exact ⟨rfl, rfl, rfl⟩

/-! ### The invariant at reset, and what it says of an idle block -/

theorem invariant_resetWith {p : Params} (hp : p.wf = true) : Invariant (State.resetWith p) where
  paramsWf := hp
  idle_iff := by simp [State.resetWith]
  belongs := rfl
  operands hb := by simp [State.resetWith] at hb
  host := rfl
  selected hs := by simp [State.resetWith, Phase.inBracket] at hs
  released hc _ := by
    simp only [State.resetWith, closesHigh, Bool.and_eq_true, beq_iff_eq] at hc
    exact hc.2
  armed ha := by simp [State.resetWith, Phase.armed] at ha
  settled hs := by simp [State.resetWith, Phase.settled] at hs
  index t ht := by simp [State.resetWith] at ht
  closed _ := rfl
  csnTrace := rfl
  ceTrace := rfl
  exchanges := rfl
  chipWf := rfl
  envWf := rfl

/-- Settles O55: at reset the block is idle, the trace empty and the chip's memory in its canonical form. -/
theorem resetMeetsTheInvariant : Obligations.ResetMeetsTheInvariant := by
  unfold Obligations.ResetMeetsTheInvariant
  exact ⟨fun _ => invariant_resetWith, invariant_resetWith (by decide)⟩

/-- Settles O57: the step keeps the invariant and the parameters, and an idle block is outside every bracket. -/
theorem chipSelectIsHighWheneverIdle : Obligations.ChipSelectIsHighWheneverIdle := by
  unfold Obligations.ChipSelectIsHighWheneverIdle
  intro s t hs herr hcsn hstep hb
  have ht : Invariant t := stepKeepsTheInvariant s t hs hstep
  have hseq : t.seq = .idle := ht.idle_iff.mp hb
  refine ht.released ?_ (by rw [hseq]; rfl)
  simp [(later_step s t hstep).params, closesHigh, herr, hcsn]

/-! ### An operation is a run of the sequencer -/

theorem run_eq_iterate (n : Nat) (s : State) : ∃ k, run n s = micro^[k] s := by
  induction n generalizing s with
  | zero => exact ⟨0, rfl⟩
  | succ n ih =>
    unfold run
    split
    · exact ⟨0, rfl⟩
    · obtain ⟨k, hk⟩ := ih (micro s)
      exact ⟨k + 1, hk⟩

theorem settle_eq_iterate (s : State) : ∃ k, settle s = micro^[k] s := run_eq_iterate _ s

/-- Settles O59: `settle` is a run of micro-steps that ends at rest; a step that goes on is one micro-step before it. -/
theorem anOperationIsARunOfTheSequencer : Obligations.AnOperationIsARunOfTheSequencer := by
  unfold Obligations.AnOperationIsARunOfTheSequencer
  refine ⟨micro_emits, fun s t hs h => ?_, fun i s t h => ?_⟩
  · rw [step_of_inProgress (by simpa using hs), Host.Outcome.next.injEq] at h
    obtain ⟨k, hk⟩ := settle_eq_iterate (micro s)
    exact ⟨k + 1, h.symm.trans hk⟩
  · rw [exec_eq_perform] at h
    obtain ⟨-, -, rfl⟩ := perform_next i _ s t h
    obtain ⟨k, hk⟩ := settle_eq_iterate { s with hostSeq := hostSteps s.params i }
    exact ⟨k, hk, atRest_settle _⟩

end Sys2Proof.Machine
end

section
/-! PROOF. Operations that never return (20_memory.md rule R30, 40_command_framer.md rule R95, 42_host_sequences.md rule
R149, 60_exceptions.md rule R177): TXPKT and the host's sequences wait in the bracket in which the answers run out. -/

namespace Sys2Proof.Machine

/-! ### TXPKT -/

/-- In a run that began at `s` and has emitted the events `done`, with no response so far, `u` is about to open the
bracket of the transaction `t`, which sends `h` and then `out`; the answers to come are `rs`. -/
structure Opens (s : State) (t : Txn) (done : List Event) (h : Byte) (out : List Byte) (rs : List Reply)
    (u : State) : Prop where
  params : u.params = s.params
  busy : u.busy = true
  seq : u.seq = .frame t .sel
  resp : u.resp = s.resp
  trace : u.trace = s.trace ++ done
  head : txnHead u t = h
  out : txnOut u t = out
  replies : u.env.replies = rs

section
variable {s u : State} {t : Txn} {done : List Event} {h : Byte} {out : List Byte} {rs : List Reply}

/-- A bracket that is not answered whole is never left. -/
theorem Opens.hangsIn (ho : Opens s t done h out rs u) {i : Instr} (he : exec i s = .next (settle u))
    (hl : rs.length ≤ out.length) : HangsIn i s t done h out rs := by
  obtain ⟨⟨f, hf⟩, hb, hcsn, hresp, -, hreplies, htrace, hstep⟩ :=
    bracketWaits_spec t u ho.busy (by rw [ho.replies, ho.out]; exact hl)
  rw [settle_bracket_short t u ho.busy ho.seq (by rw [ho.replies, ho.out]; exact hl)] at he
  rw [ho.trace, ho.head, ho.out, ho.replies] at htrace
  exact ⟨_, f, he, hb, hf, hcsn, hresp.trans ho.resp, hreplies, htrace, hstep⟩

end

section
variable {s : State} {payload : List Byte}

theorem exec_txpkt_opens_load (hs : s.Idle) (hn : payload.length ≤ s.params.nMax) :
    ∃ u, exec (.txpkt payload) s = .next (settle u)
      ∧ Opens s .load [] s.params.opWTxPayload payload s.env.replies u := by
  obtain ⟨hb, -⟩ := s.idle_iff.mp hs
  have he := exec_txpkt hs hn
  rw [settle_accept_txpkt payload [] _ (by exact hb) rfl] at he
  exact ⟨_, he, rfl, rfl, rfl, rfl, (List.append_nil _).symm, rfl, rfl, rfl⟩

/-- With the load answered whole and a sample of 0 to come, TXPKT gets to its read of STATUS (R112 to R116). -/
theorem exec_txpkt_opens_read (hs : s.Idle) (hn : payload.length ≤ s.params.nMax) {l0 : Reply} {ls rs : List Reply}
    (he : s.env.replies = l0 :: (ls ++ rs)) (hl : ls.length = payload.length) {hi more : List Sample} {x : Sample}
    (hnext : NextLow s.env hi x more) :
    ∃ u, exec (.txpkt payload) s = .next (settle u)
      ∧ Opens s .rdst (frameEvents s.params.opWTxPayload payload .high l0 ls ++ [.ce .high]
          ++ hi.map (fun _ => Event.irq .high) ++ [.irq .low] ++ [.ce .low])
        (readHead s.params s.params.aStatus) [s.params.dummy] rs u := by
  obtain ⟨hb, -⟩ := s.idle_iff.mp hs
  have hexec := exec_txpkt hs hn
  rw [settle_accept_txpkt payload [] _ (by exact hb) rfl,
    settle_bracket .load l0 ls rs _ (by rfl) (by rfl) (by exact he) (by exact hl), settle_arm _ (by rfl) (by rfl),
    settle_poll hi x more _ (by rfl) (by rfl) (by exact hnext), settle_settle _ (by rfl) (by rfl)] at hexec
  refine ⟨_, hexec, rfl, rfl, rfl, rfl, ?_, rfl, rfl, rfl⟩
  simp [bracketEnd, txnHead, txnOut, txnClose, opTxpkt]

end

section
variable {s u : State} {done : List Event} {h : Byte} {out : List Byte} {r0 r1 : Reply} {rs : List Reply}

/-- After the read of STATUS the byte read is written back (R116). -/
theorem Opens.clear_of_read (ho : Opens s .rdst done h out (r0 :: r1 :: rs) u) :
    ∃ v, settle u = settle v
      ∧ Opens s .clr (done ++ frameEvents h out .high r0 [r1]) (writeHead s.params s.params.aStatus) [r1.rx] rs v
      ∧ v.sReg = r1.rx := by
  refine ⟨bracketEnd .rdst r0 [r1] rs u, settle_bracket .rdst r0 [r1] rs u ho.busy ho.seq ho.replies rfl,
    ⟨ho.params, ho.busy, rfl, ho.resp, ?_, ?_, rfl, rfl⟩, rfl⟩
  · simp [bracketEnd, ho.trace, ho.head, ho.out, txnClose]
  · simp [bracketEnd, txnHead, ho.params]

/-- After the write-back comes the flush, where the byte read asks for one (R117, R118). -/
theorem Opens.flush_of_clear (ho : Opens s .clr done h out (r0 :: r1 :: rs) u)
    (hz : u.sReg &&& 0x30#8 ≠ 0x00#8) :
    ∃ v, settle u = settle v
      ∧ Opens s .flush (done ++ frameEvents h out .high r0 [r1]) s.params.opFlushTx s.params.flushTrailer rs v := by
  have hn : flushNeeded u.sReg = true := by simp [flushNeeded_eq, hz]
  have hrun := settle_bracket .clr r0 [r1] rs u ho.busy ho.seq ho.replies rfl
  rw [settle_class (bracketEnd .clr r0 [r1] rs u) ho.busy rfl,
    show flushNeeded (bracketEnd .clr r0 [r1] rs u).sReg = true from hn, if_pos rfl] at hrun
  refine ⟨_, hrun, ho.params, ho.busy, rfl, ho.resp, ?_, ?_, ?_, rfl⟩
  · simp [bracketEnd, ho.trace, ho.head, ho.out, txnClose]
  · simp [txnHead, bracketEnd, ho.params]
  · simp [txnOut, bracketEnd, ho.params]

end

/-- Settles O31: TXPKT gets from each of its brackets to the next as long as they are answered whole, and hangs in the
first that is not. -/
theorem anUnansweredTxpktHangs : Obligations.AnUnansweredTxpktHangs := by
  unfold Obligations.AnUnansweredTxpktHangs
  intro s payload hs hn
  refine ⟨fun hl => ?_, ?_⟩
  · obtain ⟨u, he, ho⟩ := exec_txpkt_opens_load hs hn
    exact ho.hangsIn he hl
  rintro l0 ls rs hi x more _ hreplies hls hnext rfl
  obtain ⟨u, he, ho⟩ := exec_txpkt_opens_read hs hn hreplies hls hnext
  refine ⟨fun hl => ho.hangsIn he hl, ?_⟩
  rintro h1 d1 rs' _ rfl rfl
  obtain ⟨v, huv, hov, hS⟩ := ho.clear_of_read
  rw [huv] at he
  refine ⟨fun hl => hov.hangsIn he hl, ?_⟩
  rintro h2 d2 fl rfl hz hl
  obtain ⟨w, hvw, how⟩ := hov.flush_of_clear (by rwa [hS])
  rw [hvw] at he
  exact how.hangsIn he hl

/-! ### The host's sequences -/

/-- The exchanges of a host step. -/
def HostStep.exchanges (p : Params) : HostStep → Nat
  | .op o =>
    match o.opsel with
    | .setce => 0
    | .wreg | .rreg | .rbuf | .wbuf | .txpkt => 1 + (opOut p o).length
  | .writeBack _ _ _ => 2
  | .compare _ => 0

/-- Host steps as the sequences of R142 to R148 have them: they lower chip-enable or are framer operations, a value is
written back only where one has just been read (`read`), and a comparison comes last. -/
def InSequence (read : Prop) : List HostStep → Prop
  | [] => True
  | .op o :: l => (o = opSetce .low ∨ firstPhase o.opsel = .frame .op .sel) ∧ InSequence (o.opsel = .rreg) l
  | .writeBack _ _ _ :: l => read ∧ InSequence False l
  | .compare _ :: l => l = []

/-- `t` waits for ever inside the bracket of a framer operation, with the answers used up, and PRESENT's result as in
`s`. -/
def HangsFrom (s t : State) : Prop :=
  ∃ f, t.busy = true ∧ t.seq = .frame .op f ∧ t.csn = .low ∧ t.env.replies = [] ∧ t.presence = s.presence
    ∧ step t = .next t

theorem framerResponse_rreg {o : Operands} (ho : o.opsel = .rreg) (st : Byte) (bytes : List Byte) :
    framerResponse o st bytes = .value (bytes.getD 0 0x00#8) := by
  simp [framerResponse, ho]

section
variable {s : State} {l : List HostStep}

/-- A framer operation among the host's steps hangs itself, or what comes after it does. -/
theorem hangsFrom_framer {o : Operands} (hb : s.busy = false) (hh : s.hostSeq = .op o :: l)
    (hf : firstPhase o.opsel = .frame .op .sel)
    (hnext : ∀ r0 rs rest, s.env.replies = r0 :: (rs ++ rest) → rs.length = (opOut s.params o).length →
      HangsFrom s (settle { framerEnd o (opHead s.params o) (opOut s.params o) (opClose s.params o)
        (framerResponse o r0.rx (latched s.inBytes rs)) r0 rs rest s with hostSeq := l })) :
    HangsFrom s (settle s) := by
  by_cases hl : s.env.replies.length ≤ (opOut s.params o).length
  · obtain ⟨⟨f, hf'⟩, hb', hcsn, -, hpresence, hreplies, -, hstep⟩ :=
      bracketWaits_spec .op { s with ops := o, busy := true, seq := .frame .op .sel, hostSeq := l } rfl hl
    rw [settle_framer_short o l s hb hh hf hl]
    exact ⟨f, hb', hf', hcsn, hreplies, hpresence, hstep⟩
  · obtain ⟨r0, rs, rest, he, hlen⟩ := split_replies s.env.replies (opOut s.params o).length (by omega)
    rw [settle_framer o r0 rs rest l s hb hh hf he hlen]
    exact hnext r0 rs rest he hlen

/-- A sequence with fewer answers than it has exchanges hangs. -/
theorem hangsFrom_sequence {read : Prop} (hb : s.busy = false) (hh : s.hostSeq = l) (hc : InSequence read l)
    (hr : read → ∃ c, s.resp = some (.value c))
    (hl : s.env.replies.length < (l.map (HostStep.exchanges s.params)).sum) : HangsFrom s (settle s) := by
  induction l generalizing s read with
  | nil => simp at hl
  | cons x l ih =>
    rw [List.map_cons, List.sum_cons] at hl
    cases x with
    | op o =>
      obtain ⟨rfl | hf, hc⟩ := hc
      · rw [settle_setce .low l s hb hh]
        exact ih (by exact hb) rfl hc nofun (by simpa [HostStep.exchanges, opSetce] using hl)
      · refine hangsFrom_framer hb hh hf fun r0 rs rest he hlen => ?_
        have hx : HostStep.exchanges s.params (.op o) = 1 + (opOut s.params o).length := by
          cases ho : o.opsel <;> simp_all [HostStep.exchanges, firstPhase]
        refine ih (by exact hb) rfl hc (fun ho => ⟨_, congrArg some (framerResponse_rreg ho _ _)⟩) ?_
        rw [hx, he, List.length_cons, List.length_append] at hl
        simp only [framerEnd]
        omega
    | writeBack a keep set =>
      obtain ⟨hread, hc⟩ := hc
      obtain ⟨c, hresp⟩ := hr hread
      rw [settle_writeBack a keep set c l s hb hh hresp]
      refine hangsFrom_framer (s := { s with hostSeq := .op _ :: l }) (by exact hb) rfl rfl
        fun r0 rs rest he hlen => ih (by exact hb) rfl hc nofun ?_
      rw [show s.env.replies = _ from he] at hl
      simp only [HostStep.exchanges, List.length_cons, List.length_append, hlen, opOut_opWreg, List.length_nil] at hl
      simp only [framerEnd]
      omega
    | compare pattern =>
      obtain rfl : l = [] := hc
      simp [HostStep.exchanges] at hl

end

theorem inSequence_pseudoOp (p : Params) (op : PseudoOp) : InSequence False (hostSteps p op.toInstr) := by
  cases op with
  | present => exact ⟨.inr rfl, .inr rfl, rfl⟩
  | enterTx cfg =>
    exact ⟨.inl rfl, .inr rfl, .inr rfl, .inr rfl, .inr rfl, .inr rfl, .inr rfl, .inr rfl, trivial⟩
  | setCh ch => exact ⟨.inr rfl, trivial⟩
  | pwrDn => exact ⟨.inl rfl, .inr rfl, rfl, trivial⟩
  | wake => exact ⟨.inr rfl, rfl, trivial⟩
  | setPwr level => exact ⟨.inr rfl, rfl, trivial⟩
  | flushTxFifo => exact ⟨.inr rfl, trivial⟩

/-- The exchanges of each sequence: the command byte and the data bytes of its brackets. -/
def PseudoOp.exchanges (p : Params) : PseudoOp → Nat
  | .present => 12
  | .enterTx cfg => 12 + 2 * cfg.width
  | .setCh _ => 2
  | .pwrDn | .wake | .setPwr _ => 4
  | .flushTxFifo => 1 + p.flushTrailer.length

theorem sum_exchanges_pseudoOp (p : Params) (op : PseudoOp) (hw : op.toInstr.WellFormed p) :
    ((hostSteps p op.toInstr).map (HostStep.exchanges p)).sum = PseudoOp.exchanges p op := by
  cases op with
  | present =>
    simp [PseudoOp.toInstr, PseudoOp.exchanges, hostSteps, presentSteps, HostStep.exchanges, opWbuf, opRbuf, opOut]
  | enterTx cfg =>
    have hwidth : cfg.addr.length = cfg.width := by
      have hwf : cfg.wf p = true := by
        by_contra hc
        simp [PseudoOp.toInstr, Instr.WellFormed, Instr.illegal, hc] at hw
      simp only [TxConfig.wf, Bool.and_eq_true, beq_iff_eq] at hwf
      exact hwf.2
    simp [PseudoOp.toInstr, PseudoOp.exchanges, hostSteps, enterTxSteps, setChStep, HostStep.exchanges, opSetce,
      opWreg, opWbuf, opOut, hwidth]
    omega
  | setCh _ | pwrDn | wake | setPwr _ => rfl
  | flushTxFifo =>
    simp [PseudoOp.toInstr, PseudoOp.exchanges, hostSteps, carriedBy, HostStep.exchanges, opWbuf, opOut]

theorem exec_pseudoOp_hangs (op : PseudoOp) {s : State} (hs : s.Idle) (hi : op.toInstr.WellFormed s.params)
    (hl : s.env.replies.length < PseudoOp.exchanges s.params op) :
    ∃ t f, exec op.toInstr s = .next t ∧ t.busy = true ∧ t.seq = .frame .op f ∧ t.csn = .low ∧ t.env.replies = []
      ∧ t.presence = s.presence ∧ step t = .next t := by
  obtain ⟨hb, -⟩ := s.idle_iff.mp hs
  rw [← sum_exchanges_pseudoOp s.params op hi] at hl
  obtain ⟨f, h⟩ := hangsFrom_sequence (s := { s with hostSeq := hostSteps s.params op.toInstr }) hb rfl
    (inSequence_pseudoOp _ op) nofun hl
  exact ⟨_, f, exec_idle hs hi, h⟩

/-- Settles O40: each sequence has as many exchanges as the statement says, and the other operations are none of these. -/
theorem anUnansweredSequenceHangs : Obligations.AnUnansweredSequenceHangs := by
  unfold Obligations.AnUnansweredSequenceHangs
  intro s i hs hi hl
  cases i with
  | present => exact exec_pseudoOp_hangs .present hs hi hl
  | enterTx cfg => exact exec_pseudoOp_hangs (.enterTx cfg) hs hi hl
  | setCh ch => exact exec_pseudoOp_hangs (.setCh ch) hs hi hl
  | pwrDn => exact exec_pseudoOp_hangs .pwrDn hs hi hl
  | wake => exact exec_pseudoOp_hangs .wake hs hi hl
  | setPwr level => exact exec_pseudoOp_hangs (.setPwr level) hs hi hl
  | flushTxFifo => exact exec_pseudoOp_hangs .flushTxFifo hs hi hl
  | rRegister _ _ | wRegister _ _ | rRxPayload _ | wTxPayload _ | flushTx | flushRx | nop | wreg _ _ | rreg _
  | rbufReg _ _ | rbufCmd _ _ | wbufReg _ _ | wbufCmd _ _ | txpkt _ | setce _ => exact absurd hl (Nat.not_lt_zero _)

end Sys2Proof.Machine
end

section
/-! PROOF. The chip's register bytes and queues after whole operations (20_memory.md rules R32 and R38,
40_command_framer.md rules R85 to R91, 42_host_sequences.md section 2): what each changes, and that it changes nothing
else. -/

namespace Sys2Proof.Machine

/-! ### SETCE -/

/-- Raising chip-enable with a payload loaded triggers the transmit sequence (R38 (e)); no other write of it does
anything. -/
theorem chipEnable_eq (old new : Level) (c : Chip) :
    chipEnable old new c
      = if old = .low ∧ new = .high ∧ c.txFifo ≠ [] then { c with txStarted := true } else c := by
  cases old <;> cases new <;> simp [chipEnable]

theorem exec_setce {s : State} (hs : s.Idle) (l : Level) :
    exec (.setce l) s = .next { s with
      ce := l
      seq := .idle
      ops := opSetce l
      resp := some .empty
      chip := chipEnable s.ce l s.chip
      trace := s.trace ++ [.ce l, .ret .empty] } := by
  obtain ⟨hb, hh⟩ := s.idle_iff.mp hs
  rw [exec_idle hs rfl, settle_setce l [] _ (by exact hb) rfl, settle_nil _ (by exact hb) rfl]
  simp [hh]

/-- Settles O17: SETCE is one write of the line and its `RET`. -/
theorem setceDrivesChipEnableOnly : Obligations.SetceDrivesChipEnableOnly := by
  unfold Obligations.SetceDrivesChipEnableOnly
  intro s l hs
  rw [exec_setce hs, chipEnable_eq]

/-! ### FIFO status after a load or a flush -/

/-- Bit 4 of FIFO status as a read shows it (R69). -/
theorem Chip.readByte_fifoStatus_bit4 {p : Params} (hf : p.aFifoStatus ≠ p.aStatus) (c : Chip) :
    Chip.readByte p c p.aFifoStatus 0 &&& 0x10#8 = if c.txFifo = [] then 0x10#8 else 0x00#8 := by
  simp only [Chip.readByte, hf, false_and, and_self, ↓reduceIte]
  exact fifoStatusByte_txEmpty _ _

/-- A chip that returns a register's content to a read: RREG hands over the byte that the chip holds (R82, R34). -/
theorem exec_rreg_answered {s : State} (hs : s.Idle) (hp : s.params.opcodesWf = true) {a : RegAddr}
    (ha : a.toNat ≤ 0x17) {q0 q1 : Reply} {rest : List Reply} (he : s.env.replies = q0 :: q1 :: rest)
    (hanswer : ∀ b, Chip.answer s.params s.chip (some { cmd := some (s.params.opRRegister ||| regByte a), data := [] })
      = some b → q1.rx = b) :
    ∃ u, exec (.rreg a) s = .next u ∧ u.resp = some (.value (Chip.readByte s.params s.chip a 0)) := by
  refine ⟨_, rregReturnsTheSecondByte s a q0 q1 rest hs he, ?_⟩
  rw [← hanswer _ (Chip.answer_read hp ha s.chip)]
  rfl

/-- A fixed command that WBUF carries, from a falling edge, once it has returned: what happens at its end comes last,
whatever moves the chip made by itself before (log entry 13). -/
theorem exec_command_returns {i : Instr} {h : Byte} {data : List Byte} {s t : State}
    (hc : carriedBy s.params i = some (opWbuf .cmd h data)) (hs : s.Idle) (hcsn : s.csn = .high)
    (he : exec i s = .next t) (hb : t.busy = false) :
    t.params = s.params ∧ t.Idle ∧ ∃ c, t.chip = Chip.finish s.params { cmd := some h, data := data } c := by
  obtain ⟨r0, rs, rest, -, -, rfl⟩ | rfl := exec_framer_next hc he
  · refine ⟨rfl, hs, Chip.takeAll s.params h 0 data rs (s.chip.moved r0.chip), ?_⟩
    simp only [framerEnd, hcsn]
    rfl
  · simp at hb

/-- Settles O45: the load or the flush has its effect at the closing edge, and the read brings what the chip holds. -/
theorem fifoStatusShowsTheLoadAndTheFlush : Obligations.FifoStatusShowsTheLoadAndTheFlush := by
  unfold Obligations.FifoStatusShowsTheLoadAndTheFlush
  intro s t i q0 q1 rest hs hp hcsn ha hf hi he hb hreplies _ _ hanswer
  have read (hparams : t.params = s.params) (hidle : t.Idle) :
      ∃ u v, exec (.rreg s.params.aFifoStatus) t = .next u ∧ u.resp = some (.value v)
        ∧ v &&& 0x10#8 = if t.chip.txFifo = [] then 0x10#8 else 0x00#8 := by
    obtain ⟨u, hexec, hresp⟩ := exec_rreg_answered hidle (by rwa [hparams]) ha hreplies hanswer
    refine ⟨u, _, hexec, hresp, ?_⟩
    rw [hparams]
    exact Chip.readByte_fifoStatus_bit4 hf _
  obtain rfl | rfl | ⟨data, rfl⟩ := hi
  · obtain ⟨hparams, hidle, c, hchip⟩ := exec_command_returns rfl hs hcsn he hb
    simpa [hchip, Chip.finish_flushTx hp] using read hparams hidle
  · obtain ⟨hparams, hidle, c, hchip⟩ := exec_command_returns rfl hs hcsn he hb
    simpa [hchip, Chip.finish_flushTx hp] using read hparams hidle
  · obtain ⟨hparams, hidle, c, hchip⟩ := exec_command_returns rfl hs hcsn he hb
    simpa [hchip, Chip.finish_load hp] using read hparams hidle

/-! ### The bytes of a register write -/

section
variable {p : Params}

/-- A register write leaves every byte that is none of its own. -/
theorem Chip.readByte_storeAll_other {a a' : RegAddr} (ha : a ≠ p.aStatus) {k j' : Nat} (hj : j' < 8)
    {data : List Byte} (h : a' ≠ a ∨ j' < k ∨ k + data.length ≤ j' ∨ regByteExists p a j' = false) (c : Chip) :
    Chip.readByte p (Chip.storeAll p a k data c) a' j' = Chip.readByte p c a' j' := by
  induction data generalizing k c with
  | nil => rfl
  | cons v data ih =>
    rw [List.length_cons] at h
    obtain ⟨hrest, hhere⟩ : (a' ≠ a ∨ j' < k + 1 ∨ k + 1 + data.length ≤ j' ∨ regByteExists p a j' = false)
        ∧ (a' ≠ a ∨ j' ≠ k ∨ regByteExists p a k = false) := by
      obtain h | h | h | h := h
      · exact ⟨.inl h, .inl h⟩
      · exact ⟨.inr (.inl (by omega)), .inr (.inl (by omega))⟩
      · exact ⟨.inr (.inr (.inl (by omega))), .inr (.inl (by omega))⟩
      · exact ⟨.inr (.inr (.inr h)), .inr (or_iff_not_imp_left.mpr fun hk => not_not.mp hk ▸ h)⟩
    rw [Chip.storeAll, ih hrest, Chip.readByte_store_other p a a' k j' v c ha hj hhere]

/-- A register write stores data byte `j` into byte `j`, as far as the register has it: the later stores leave it. -/
theorem Chip.readByte_storeAll_same {a : RegAddr} (ha : a ≠ p.aStatus) {j : Nat} (he : regByteExists p a j = true)
    (hf : a ≠ p.aFifoStatus ∨ j ≠ 0) (hj : j < 8) {k : Nat} {data : List Byte} (hk : k ≤ j) (hl : j < k + data.length)
    (c : Chip) : some (Chip.readByte p (Chip.storeAll p a k data c) a j) = data[j - k]? := by
  induction data generalizing k c with
  | nil => simp at hl; omega
  | cons v data ih =>
    rw [List.length_cons] at hl
    rw [Chip.storeAll]
    obtain rfl | hlt := hk.eq_or_lt
    · rw [Chip.readByte_storeAll_other ha hj (.inr (.inl (by omega))), Chip.readByte_store_same p a k v c ha hf he]
      simp
    · rw [ih (by omega) (by omega), show j - k = j - (k + 1) + 1 by omega, List.getElem?_cons_succ]

/-- A byte that a register has is one of its first five (R36). -/
theorem lt_eight_of_regByteExists {a : RegAddr} {j : Nat} (he : regByteExists p a j = true) : j < 8 := by
  have hw : regWidth p a ≤ 5 := by
    unfold regWidth
    split <;> omega
  simp only [regByteExists, Bool.and_eq_true, decide_eq_true_eq] at he
  omega

/-- A write of FIFO status stores its first byte but for bit 4. -/
theorem Chip.readByte_storeAll_fifoStatus (ha : p.aFifoStatus ≠ p.aStatus)
    (he : regByteExists p p.aFifoStatus 0 = true) (v : Byte) (data : List Byte) (c : Chip) :
    Chip.readByte p (Chip.storeAll p p.aFifoStatus 0 (v :: data) c) p.aFifoStatus 0 &&& 0xEF#8 = v &&& 0xEF#8 := by
  rw [Chip.storeAll, Chip.readByte_storeAll_other ha (by omega) (.inr (.inl (by omega))),
    Chip.readByte_store_fifo p v c ha he, fifoStatusByte_rest]

end

/-- Settles O46: the chip moves by nothing but the stores of the write. -/
theorem registerWritesStoreTheirBytesAndNoOther : Obligations.RegisterWritesStoreTheirBytesAndNoOther := by
  unfold Obligations.RegisterWritesStoreTheirBytesAndNoOther
  intro s a data r0 rs rest i hs hp hcsn ha hi hw he hl hq
  obtain ⟨t, hexec, hparams, hchip⟩ := exec_write_chip hi hs hp hcsn hw he hl
    fun x hx => hq x (List.mem_cons_of_mem _ (List.mem_of_mem_drop hx))
  rw [Chip.movedAll_quiet _ _ hq] at hchip
  refine ⟨t, hexec, ?_⟩
  rw [hparams, hchip]
  refine ⟨fun j hx hj hf => ?_, fun v hf hx hv => ?_, fun a' j' hj h _ => ?_⟩
  · simpa using Chip.readByte_storeAll_same ha hx hf (lt_eight_of_regByteExists hx) (Nat.zero_le j) (by omega) s.chip
  · subst hf
    obtain ⟨data', rfl⟩ : ∃ data', data = v :: data' := by
      cases data with
      | nil => simp at hv
      | cons w data' => exact ⟨data', by simpa using hv⟩
    exact Chip.readByte_storeAll_fifoStatus ha hx v data' s.chip
  · exact Chip.readByte_storeAll_other ha hj (h.imp_right fun h => .inr (by simpa using h)) s.chip

/-! ### Exchanges in which the chip changes nothing by itself -/

section
variable {r : Reply} {rs rest : List Reply}

theorem Quiet.head (h : Quiet (r :: rs)) : r.chip = none := h r (by simp)

theorem Quiet.tail (h : Quiet (r :: rs)) : Quiet rs := fun x hx => h x (by simp [hx])

/-- The exchanges of one bracket, and those after it. -/
theorem Quiet.bracket (h : Quiet (r :: (rs ++ rest))) : Quiet (r :: rs) := fun x hx =>
  h x (by simp only [List.mem_cons, List.mem_append] at hx ⊢; tauto)

theorem Quiet.afterBracket (h : Quiet (r :: (rs ++ rest))) : Quiet rest := fun x hx => h x (by simp [hx])

end

/-! ### The bytes that a bracket leaves -/

section
variable {p : Params} {a : RegAddr} {j : Nat}

/-- A store leaves every byte of the other registers. -/
theorem Chip.readByte_store_elsewhere (hj : j < 8) {a' : RegAddr} (ha : a ≠ a') (k : Nat) (v : Byte) (c : Chip) :
    Chip.readByte p (Chip.store p a' k v c) a j = Chip.readByte p c a j := by
  by_cases h : a' = p.aStatus
  · rw [h]
    exact Chip.readByte_store_status p a k j v c (.inl (h ▸ ha))
  · exact Chip.readByte_store_other p a' a k j v c h hj (.inl ha)

/-- The end of a transaction changes no register byte but what FIFO status shows (R90, R91). -/
theorem Chip.readByte_finish (hf : a ≠ p.aFifoStatus ∨ j ≠ 0) (t : BusTxn) (c : Chip) :
    Chip.readByte p (Chip.finish p t c) a j = Chip.readByte p c a j := by
  unfold Chip.finish
  split
  · rfl
  · split_ifs
    · rfl
    · exact Chip.readByte_txFifo p c _ a j hf
    · exact Chip.readByte_txFifo p c _ a j hf
    · exact Chip.readByte_congr p c _ rfl rfl rfl a j
    · rfl

theorem readByte_chipEnable (old new : Level) (c : Chip) :
    Chip.readByte p (chipEnable old new c) a j = Chip.readByte p c a j := by
  rw [chipEnable_eq]
  split
  · exact Chip.readByte_congr p c _ rfl rfl rfl a j
  · rfl

end

/-- A transaction with command byte `h` is no write of the register `a`. -/
def Spares (p : Params) (a : RegAddr) (h : Byte) : Prop := opBits h = p.opWRegister → a ≠ addrOf h

section
variable {p : Params} {a : RegAddr} {j : Nat} {h : Byte}

theorem spares_writeHead (hp : p.opcodesWf = true) {a' : RegAddr} (ha : a ≠ a') : Spares p a (writeHead p a') := by
  obtain ⟨-, hw, -, -, -⟩ := p.opcodesWf_iff.mp hp
  intro _
  rwa [writeHead, addrOf_or_regByte _ _ hw]

theorem spares_readHead (hp : p.opcodesWf = true) (a' : RegAddr) : Spares p a (readHead p a') :=
  fun hb => absurd hb (inert_readHead hp a').storesNothing

theorem spares_command (hp : p.opcodesWf = true) (hh : h ∈ p.fixedCommands) : Spares p a h := by
  obtain ⟨-, -, -, -, hc⟩ := p.opcodesWf_iff.mp hp
  exact fun hb => absurd hb (hc h hh).2

theorem Spares.takeData (hs : Spares p a h) (hj : j < 8) (k : Nat) (o : Byte) (c : Chip) :
    Chip.readByte p (Chip.takeData p h k o c) a j = Chip.readByte p c a j := by
  unfold Chip.takeData
  split
  · exact Chip.readByte_store_elsewhere hj (hs ‹_›) k o c
  · rfl

theorem Spares.takeAll (hs : Spares p a h) (hj : j < 8) (k : Nat) (out : List Byte) {rs : List Reply} (hq : Quiet rs)
    (c : Chip) : Chip.readByte p (Chip.takeAll p h k out rs c) a j = Chip.readByte p c a j := by
  induction out generalizing k rs c with
  | nil => rfl
  | cons o out ih =>
    cases rs with
    | nil => rfl
    | cons r rs =>
      rw [Chip.takeAll, ih (k + 1) hq.tail, hs.takeData hj, hq.head, Chip.moved_none]

/-- A whole bracket, on a chip that changes nothing by itself. -/
theorem Spares.bracketChip (hs : Spares p a h) (hj : j < 8) (hf : a ≠ p.aFifoStatus ∨ j ≠ 0) (old close : Level)
    (out : List Byte) {r0 : Reply} {rs : List Reply} (hq : Quiet (r0 :: rs)) (c : Chip) :
    Chip.readByte p (bracketChip p old close h out r0 rs c) a j = Chip.readByte p c a j := by
  have htake : Chip.readByte p (Chip.takeAll p h 0 out rs (c.moved r0.chip)) a j = Chip.readByte p c a j := by
    rw [hs.takeAll hj 0 out hq.tail, hq.head, Chip.moved_none]
  cases old with
  | low => rw [Machine.bracketChip, Chip.movedAll_quiet c _ hq]
  | high =>
    cases close with
    | low => exact htake
    | high => exact (Chip.readByte_finish hf _ _).trans htake

/-- The data exchanges of a bracket, however many of them are answered. -/
theorem Spares.busChip (hs : Spares p a h) (hj : j < 8) (out : List Byte) {rs : List Reply} (hq : Quiet rs)
    {b : Option BusTxn} (hb : ∀ t, b = some t → t.cmd = some h) (c : Chip) :
    Chip.readByte p (busChip p b c out rs).2 a j = Chip.readByte p c a j := by
  induction out generalizing b rs c with
  | nil => rfl
  | cons o out ih =>
    cases rs with
    | nil => rfl
    | cons r rs =>
      have hr : r.chip = none := hq.head
      cases b with
      | none =>
        rw [Machine.busChip, hr, ih hq.tail (by simp [busTake])]
        rfl
      | some t =>
        obtain ⟨cmd, d⟩ := t
        obtain rfl : cmd = some h := hb _ rfl
        rw [Machine.busChip, hr, ih hq.tail (by simp [busTake])]
        exact hs.takeData hj _ o c

/-- A bracket that waits for an answer. -/
theorem Spares.bracketWaits {s : State} {t : Txn} (hs : Spares s.params a (txnHead s t)) (hj : j < 8)
    (hq : Quiet s.env.replies) :
    Chip.readByte s.params (bracketWaits t s).chip a j = Chip.readByte s.params s.chip a j := by
  unfold Machine.bracketWaits
  split
  · rfl
  · rename_i r0 rs he
    rw [he] at hq
    rw [hs.busChip hj _ hq.tail (busTake_busSelect_cmd _ _), hq.head]
    rfl

end

/-! ### TXPKT on a chip that changes nothing by itself -/

/-- Byte `j` of the register `a` is none that TXPKT changes: neither of STATUS, which it clears, nor of FIFO status, which
shows what it does to the queue. -/
structure Apart (p : Params) (a : RegAddr) (j : Nat) : Prop where
  opcodes : p.opcodesWf = true
  byte : j < 8
  status : a ≠ p.aStatus
  fifo : a ≠ p.aFifoStatus

/-- The run from `u` to where the machine rests leaves byte `j` of the register `a`. -/
def RunKeeps (a : RegAddr) (j : Nat) (u : State) : Prop :=
  Chip.readByte u.params (settle u).chip a j = Chip.readByte u.params u.chip a j

section
variable {a : RegAddr} {j : Nat} {u : State}

/-- A part of the run that leaves the byte, before the rest of it. -/
theorem RunKeeps.after {v : State} (hv : RunKeeps a j v) (hrun : settle u = settle v) (hp : v.params = u.params)
    (hc : Chip.readByte u.params v.chip a j = Chip.readByte u.params u.chip a j) : RunKeeps a j u := by
  unfold RunKeeps at hv ⊢
  rw [hrun, ← hc, ← hp, hv]

theorem runKeeps_of_idle (hb : u.busy = false) (hh : u.hostSeq = []) : RunKeeps a j u := by
  rw [RunKeeps, settle_nil u hb hh]

/-- A transaction that spares the register, answered whole or not. -/
theorem runKeeps_bracket (h : Apart u.params a j) {t : Txn} (hs : Spares u.params a (txnHead u t)) (hb : u.busy = true)
    (hq : u.seq = .frame t .sel) (hquiet : Quiet u.env.replies)
    (hnext : ∀ r0 rs rest, Quiet rest → RunKeeps a j (bracketEnd t r0 rs rest u)) : RunKeeps a j u := by
  by_cases hl : u.env.replies.length ≤ (txnOut u t).length
  · rw [RunKeeps, settle_bracket_short t u hb hq hl]
    exact hs.bracketWaits h.byte hquiet
  · obtain ⟨r0, rs, rest, he, hlen⟩ := split_replies u.env.replies (txnOut u t).length (by omega)
    rw [he] at hquiet
    refine (hnext r0 rs rest hquiet.afterBracket).after
      (settle_bracket t r0 rs rest u hb hq he hlen) rfl ?_
    exact hs.bracketChip h.byte (.inl h.fifo) _ _ _ hquiet.bracket _

theorem runKeeps_return (hb : u.busy = true) (hq : u.seq = .tRet) (hh : u.hostSeq = []) : RunKeeps a j u :=
  RunKeeps.after (runKeeps_of_idle (by rfl) (by exact hh)) (settle_tRet u hb hq) rfl rfl

theorem runKeeps_class (h : Apart u.params a j) (hb : u.busy = true) (hq : u.seq = .tClass) (hh : u.hostSeq = [])
    (hquiet : Quiet u.env.replies) : RunKeeps a j u := by
  refine RunKeeps.after ?_ (settle_class u hb hq) rfl rfl
  cases flushNeeded u.sReg with
  | true =>
    exact runKeeps_bracket (u := { u with seq := .frame .flush .sel }) (t := .flush) h
      (spares_command h.opcodes (by simp [txnHead, Params.fixedCommands])) hb rfl hquiet
      fun r0 rs rest _ => runKeeps_return hb rfl hh
  | false => exact runKeeps_return hb rfl hh

/-- The read of STATUS and its write-back. -/
theorem runKeeps_status (h : Apart u.params a j) (hb : u.busy = true) (hq : u.seq = .frame .rdst .sel)
    (hh : u.hostSeq = []) (hquiet : Quiet u.env.replies) : RunKeeps a j u :=
  runKeeps_bracket h (spares_readHead h.opcodes _) hb hq hquiet fun r0 rs rest hrest =>
    runKeeps_bracket (u := bracketEnd .rdst r0 rs rest u) (t := .clr) h (spares_writeHead h.opcodes h.status) hb rfl
      hrest fun _ _ _ hrest' => runKeeps_class h hb rfl hh hrest'

/-- The samples up to the first that is 0 are scripted ones, or that one is the line's own level. -/
theorem Chip.sampledAll_nextLow {e : Env} {hs : List Sample} {x : Sample} {more : List Sample}
    (hn : NextLow e hs x more) (hquiet : ∀ y ∈ e.samples, y.chip = none) (c : Chip) :
    c.sampledAll (hs ++ [x]) = c := by
  refine Chip.sampledAll_quiet c _ fun y hy => ?_
  obtain ⟨-, -, he | ⟨he, hx, -⟩⟩ := hn
  · exact hquiet y (by rw [he]; simp at hy ⊢; tauto)
  · obtain hy | hy := List.mem_append.mp hy
    · exact hquiet y (he ▸ hy)
    · rw [List.mem_singleton.mp hy, hx]

theorem runKeeps_poll (h : Apart u.params a j) (hb : u.busy = true) (hq : u.seq = .tPoll) (hh : u.hostSeq = [])
    (hquiet : Quiet u.env.replies) (hsamples : ∀ y ∈ u.env.samples, y.chip = none) : RunKeeps a j u := by
  obtain ⟨hs, x, more, hn⟩ | ⟨hhigh, hline⟩ := nextLow_or_high u.env
  · refine RunKeeps.after ?_ (settle_poll hs x more u hb hq hn) rfl
      (congrArg (Chip.readByte u.params · a j) (Chip.sampledAll_nextLow hn hsamples u.chip))
    refine RunKeeps.after ?_ (settle_settle _ (by exact hb) rfl) rfl (readByte_chipEnable _ _ _)
    exact runKeeps_status h hb rfl hh hquiet
  · rw [RunKeeps, settle_poll_high u hb hq hhigh hline]
    exact congrArg (Chip.readByte u.params · a j) (Chip.sampledAll_quiet u.chip _ hsamples)

theorem runKeeps_txpkt (h : Apart u.params a j) (hb : u.busy = false) {payload : List Byte}
    (hh : u.hostSeq = [.op (opTxpkt payload)]) (hquiet : Quiet u.env.replies)
    (hsamples : ∀ y ∈ u.env.samples, y.chip = none) : RunKeeps a j u := by
  refine RunKeeps.after ?_ (settle_accept_txpkt payload [] u hb hh) rfl rfl
  refine runKeeps_bracket (t := .load) h (spares_command h.opcodes (by simp [txnHead, Params.fixedCommands])) rfl rfl
    hquiet fun r0 rs rest hrest => ?_
  refine RunKeeps.after ?_ (settle_arm _ rfl rfl) rfl (readByte_chipEnable _ _ _)
  exact runKeeps_poll h rfl rfl rfl hrest hsamples

end

/-! ### The registers that an operation names -/

section
variable {s t : State} {i : Instr} {a : RegAddr} {j : Nat}

/-- A framer operation that spares the register leaves its bytes, whether or not it returns. -/
theorem readByte_exec_framer {o : Operands} (hc : carriedBy s.params i = some o)
    (hs : Spares s.params a (opHead s.params o)) (hj : j < 8) (hf : a ≠ s.params.aFifoStatus)
    (hq : Quiet s.env.replies) (h : exec i s = .next t) :
    Chip.readByte s.params t.chip a j = Chip.readByte s.params s.chip a j := by
  obtain ⟨r0, rs, rest, he, -, rfl⟩ | rfl := exec_framer_next hc h
  · rw [he] at hq
    exact hs.bracketChip hj (.inl hf) _ _ _ hq.bracket _
  · exact Spares.bracketWaits (t := .op)
      (s := { s with ops := o, busy := true, seq := .frame .op .sel, hostSeq := [] }) hs hj hq

/-- A sequence that accesses the registers of `A` leaves the bytes of every other, whether or not it returns. -/
theorem readByte_exec_confined (h : exec i s = .next t) (hp : s.params.opcodesWf = true) (hq : Quiet s.env.replies)
    (hj : j < 8) {A : RegAddr → Prop} (hsteps : ∀ x ∈ hostSteps s.params i, StepIn A x) (ha : ¬ A a) :
    Chip.readByte s.params t.chip a j = Chip.readByte s.params s.chip a j := by
  rw [exec_eq_perform] at h
  obtain ⟨hs, -, rfl⟩ := perform_next i _ s t h
  refine settle_confined A (fun c => Chip.readByte s.params c a j = Chip.readByte s.params s.chip a j) _ s hp hs hq
    hsteps (fun a' k v c ha' hc => ?_) rfl
  rw [Chip.readByte_store_elsewhere hj (fun e => ha (by rwa [e])), hc]

end

/-- Settles O54: the sequences access the registers they name and no others; the brackets of TXPKT and of FLUSHTX write no
register but STATUS and no queue but the transmit FIFO; SETCE has no bracket. -/
theorem sequencesWriteOnlyTheRegistersTheyName : Obligations.SequencesWriteOnlyTheRegistersTheyName := by
  unfold Obligations.SequencesWriteOnlyTheRegistersTheyName
  intro s t i a j hs hp hq hsamples hj h ha
  rw [(later_exec i s t h).params]
  cases i with
  | present =>
    exact readByte_exec_confined h hp hq hj (stepIn_present s.params (· = s.params.aTxAddr) rfl) ha
  | enterTx cfg =>
    exact readByte_exec_confined h hp hq hj (stepIn_enterTx s.params (· ∈ _) cfg fun _ h => h) ha.2
  | setCh ch =>
    exact readByte_exec_confined h hp hq hj (stepIn_setCh s.params (· = s.params.aRfCh) ch rfl) ha.2
  | pwrDn =>
    exact readByte_exec_confined h hp hq hj (stepIn_pwrDn s.params (· = s.params.aConfig) rfl) ha
  | wake =>
    exact readByte_exec_confined h hp hq hj (stepIn_wake s.params (· = s.params.aConfig) rfl) ha
  | setPwr level =>
    exact readByte_exec_confined h hp hq hj (stepIn_setPwr s.params (· = s.params.aRfSetup) level rfl) ha
  | flushTxFifo =>
    exact readByte_exec_framer rfl (spares_command hp (by simp [Params.fixedCommands])) hj ha hq h
  | txpkt payload =>
    obtain ⟨hb, -⟩ := s.idle_iff.mp hs
    rw [exec_eq_perform] at h
    obtain ⟨-, -, rfl⟩ := perform_next _ _ s t h
    exact runKeeps_txpkt (u := { s with hostSeq := [.op (opTxpkt payload)] }) ⟨hp, hj, ha.1, ha.2⟩ hb rfl hq hsamples
  | setce l =>
    rw [exec_setce hs l, Host.Outcome.next.injEq] at h
    subst h
    exact readByte_chipEnable _ _ _
  | rRegister _ _ | wRegister _ _ | rRxPayload _ | wTxPayload _ | flushTx | flushRx | nop | wreg _ _ | rreg _
  | rbufReg _ _ | rbufCmd _ _ | wbufReg _ _ | wbufCmd _ _ => exact ha.elim

end Sys2Proof.Machine
end

section
/-! PROOF. TXPKT as its caller sees it (41_transmit_fsm.md rules R114 to R125): its phases one by one, what every run
that returns has in common, the run that polls for ever, and what neither chip-enable nor the bytes received decide. -/

namespace Sys2Proof.Machine

/-! ### The phases -/

/-- Settles O26: each clause is one phase of R123. -/
theorem transmitPhasesStepAsTabulated : Obligations.TransmitPhasesStepAsTabulated := by
  unfold Obligations.TransmitPhasesStepAsTabulated
  intro s hb
  have hmicro : micro s = blockTick s := if_pos hb
  refine ⟨fun hq => ?_, fun hq => ?_, fun hq => ?_, fun hq => ?_, fun hq => ?_, fun hq => ?_⟩ <;>
    simp only [hmicro, blockTick, hq]
  · exact ⟨rfl, rfl, rfl⟩
  · refine ⟨rfl, rfl, rfl, ?_⟩
    rw [transmitPoll, State.goto_seq]
    cases s.env.sample.level <;> rfl
  · exact ⟨rfl, rfl, rfl⟩
  · exact ⟨rfl, rfl⟩
  · refine ⟨rfl, ?_⟩
    by_cases hz : s.sReg &&& 0x30#8 = 0x00#8 <;> simp [transmitClass, flushNeeded_eq, hz]
  · refine ⟨rfl, rfl, ?_⟩
    rintro _ rfl
    rw [← classify_eq]
    exact ⟨rfl, rfl⟩

/-! ### A run that returns -/

/-- What the environment answers in a TXPKT that returns, bracket by bracket: `load0` and `load`, `read0` and `read`,
`clear0` and `clear`, and `flush`; the samples `highs` and then `low`; and what is left of its script. -/
structure TxpktAnswers where
  load0 : Reply
  load : List Reply
  read0 : Reply
  read : Reply
  clear0 : Reply
  clear : Reply
  flush : List Reply
  rest : List Reply
  highs : List Sample
  low : Sample
  more : List Sample

/-- From `s` the environment gives the answers `w`, and they are all that a TXPKT with this payload asks for. -/
structure TxpktAnswers.Complete (w : TxpktAnswers) (payload : List Byte) (s : State) : Prop where
  replies : s.env.replies
    = w.load0 :: (w.load ++ w.read0 :: w.read :: w.clear0 :: w.clear :: (w.flush ++ w.rest))
  load : w.load.length = payload.length
  flush : w.flush.length = if w.read.rx &&& 0x30#8 = 0x00#8 then 0 else 1 + s.params.flushTrailer.length
  samples : NextLow s.env w.highs w.low w.more

/-- The chip when the poll has ended (R112 to R114). -/
def TxpktAnswers.chipPolled (w : TxpktAnswers) (payload : List Byte) (s : State) : Chip :=
  (chipEnable s.ce .high
    (bracketChip s.params s.csn .high s.params.opWTxPayload payload w.load0 w.load s.chip)).sampledAll
    (w.highs ++ [w.low])

/-- The chip when STATUS has been read and written back (R116). -/
def TxpktAnswers.chipCleared (w : TxpktAnswers) (payload : List Byte) (s : State) : Chip :=
  bracketChip s.params .high .high (s.params.opWRegister ||| regByte s.params.aStatus) [w.read.rx] w.clear0 [w.clear]
    (bracketChip s.params .high .high (s.params.opRRegister ||| regByte s.params.aStatus) [s.params.dummy] w.read0
      [w.read] (w.chipPolled payload s))

/-- The chip at `RET`, after the flush if there is one (R118). -/
def TxpktAnswers.chipReturned (w : TxpktAnswers) (payload : List Byte) (s : State) : Chip :=
  match w.flush with
  | [] => w.chipCleared payload s
  | f0 :: fs =>
    bracketChip s.params .high .high s.params.opFlushTx s.params.flushTrailer f0 fs (w.chipCleared payload s)

/-- The state `t` in which TXPKT with the answers `w` has returned (R117, R121, R125). -/
structure TxpktAnswers.Returned (w : TxpktAnswers) (payload : List Byte) (s t : State) : Prop where
  busy : t.busy = false
  resp : t.resp = some (.outcome (classify w.read.rx))
  sReg : t.sReg = w.read.rx
  ce : t.ce = .low
  csn : t.csn = .high
  params : t.params = s.params
  chip : t.chip = w.chipReturned payload s
  sampledLow : ∃ es, t.trace = s.trace ++ es ∧ Event.irq .low ∈ es

section
variable {s t : State} {payload : List Byte} {w : TxpktAnswers}

/-- With all its answers TXPKT returns. -/
theorem TxpktAnswers.Complete.returned (hw : w.Complete payload s) (hs : s.Idle)
    (hn : payload.length ≤ s.params.nMax) : ∃ t, exec (.txpkt payload) s = .next t ∧ w.Returned payload s t := by
  obtain ⟨t, flush, outcome, he, -, ho, htrace, hresp, hS, -, hb, -, hcsn, hce, -, -, -, -, -, hparams, -, -, -, -,
    c1, c2, c3, rfl, rfl, rfl, hchip⟩ := txpktRunsFromLoadToReturn s payload w.load0 w.load w.read0 w.read w.clear0
      w.clear w.flush w.rest w.highs w.low w.more hs hn hw.replies hw.load hw.flush hw.samples
  rw [← classify_eq] at ho
  subst ho
  refine ⟨t, he, hb, hresp, hS, hce, hcsn, hparams, hchip, ?_⟩
  simp only [List.append_assoc] at htrace
  exact ⟨_, htrace, by simp⟩

/-- TXPKT answers a next state only for a payload that it accepts (R110). -/
theorem length_le_of_exec_txpkt (h : exec (.txpkt payload) s = .next t) : payload.length ≤ s.params.nMax := by
  obtain ⟨-, hi, -⟩ := perform_next _ _ s t (exec_eq_perform _ s ▸ h)
  exact illegalCount_none _ _ hi

/-- A TXPKT that has returned had all its answers. -/
theorem exists_complete_of_returns (hs : s.Idle) (h : exec (.txpkt payload) s = .next t) (hb : t.busy = false) :
    ∃ w : TxpktAnswers, w.Complete payload s := by
  rw [exec_txpkt hs (length_le_of_exec_txpkt h), Host.Outcome.next.injEq] at h
  subst h
  obtain ⟨l0, ls, h1, d1, h2, d2, fl, rest, hi, x, more, hreplies, hl, hfl, hn⟩ :=
    txpkt_returns payload { s with hostSeq := [.op (opTxpkt payload)] } (s.idle_iff.mp hs).1 rfl hb
  exact ⟨⟨l0, ls, h1, d1, h2, d2, fl, rest, hi, x, more⟩, hreplies, hl, hfl, hn⟩

/-- The state in which a TXPKT with all its answers ends. -/
theorem TxpktAnswers.Complete.returned_of_exec (hw : w.Complete payload s) (hs : s.Idle)
    (h : exec (.txpkt payload) s = .next t) : w.Returned payload s t := by
  obtain ⟨t', ht', hr⟩ := hw.returned hs (length_le_of_exec_txpkt h)
  obtain rfl : t' = t := by simpa [h] using ht'.symm
  exact hr

end

/-! ### The outcome -/

theorem classify_eq_success_iff (b : Byte) :
    classify b = .success ↔ b &&& 0x20#8 ≠ 0x00#8 ∧ b &&& 0x10#8 = 0x00#8 := by
  rw [classify_eq]
  split_ifs <;> simp_all

theorem classify_eq_maxRetransmitExceeded_iff (b : Byte) :
    classify b = .maxRetransmitExceeded ↔ b &&& 0x10#8 ≠ 0x00#8 := by
  rw [classify_eq]
  split_ifs <;> simp_all

theorem completion_bits_clear_iff (b : Byte) :
    b &&& 0x30#8 = 0x00#8 ↔ b &&& 0x10#8 = 0x00#8 ∧ b &&& 0x20#8 = 0x00#8 := by
  decide +revert

theorem classify_eq_unknown_iff (b c : Byte) : classify b = .unknown c ↔ c = b ∧ b &&& 0x30#8 = 0x00#8 := by
  rw [classify_eq, completion_bits_clear_iff]
  split_ifs <;> simp_all [eq_comm]

/-- Settles O29: the outcome is the classification of the byte that went to `S`. -/
theorem outcomeIsClassifiedFromTheStatusRead : Obligations.OutcomeIsClassifiedFromTheStatusRead := by
  unfold Obligations.OutcomeIsClassifiedFromTheStatusRead
  intro s t payload hs h hb
  obtain ⟨w, hw⟩ := exists_complete_of_returns hs h hb
  have hr := hw.returned_of_exec hs h
  rw [hr.sReg]
  exact ⟨_, hr.resp, classify_eq_success_iff _, classify_eq_maxRetransmitExceeded_iff _, classify_eq_unknown_iff _⟩

/-- Settles O32: a TXPKT that returns had all its answers, the sample of 0 among them. -/
theorem txpktReturnsWithTheLinesReleased : Obligations.TxpktReturnsWithTheLinesReleased := by
  unfold Obligations.TxpktReturnsWithTheLinesReleased
  intro s t payload hs h hb
  obtain ⟨w, hw⟩ := exists_complete_of_returns hs h hb
  have hr := hw.returned_of_exec hs h
  exact ⟨hr.ce, hr.csn, hr.sampledLow⟩

/-! ### The chip after the return -/

/-- Writing back a value clears the completion bits that it shows as 1 (R38 (b), R116). -/
theorem clearLatched_completion_bits (old v : Byte) : clearLatched old v &&& v &&& 0x30#8 = 0x00#8 := by
  calc clearLatched old v &&& v &&& 0x30#8
    _ = clearLatched old v &&& 0x30#8 &&& v := by ac_rfl
    _ = old &&& 0x30#8 &&& ~~~v &&& v := by rw [clearLatched_bits]
    _ = old &&& 0x30#8 &&& (v &&& ~~~v) := by rw [BitVec.and_assoc, BitVec.and_comm (~~~v)]
    _ = 0x00#8 := by simp

/-- A flush from a falling edge has its effect last, whatever the chip does by itself before (R91, log entry 13). -/
theorem bracketChip_flushTx_txFifo {p : Params} (hp : p.opcodesWf = true) (out : List Byte) (r0 : Reply)
    (rs : List Reply) (c : Chip) : (bracketChip p .high .high p.opFlushTx out r0 rs c).txFifo = [] := by
  rw [bracketChip, Chip.finish_flushTx hp]

/-- A fixed command from a falling edge, on a chip that changes nothing by itself: what happens at its end is all. -/
theorem bracketChip_command_quiet {p : Params} (hp : p.opcodesWf = true) {h : Byte} (hh : h ∈ p.fixedCommands)
    {out : List Byte} {r0 : Reply} {rs : List Reply} (hl : rs.length = out.length) (hq : Quiet (r0 :: rs)) (c : Chip) :
    bracketChip p .high .high h out r0 rs c = Chip.finish p { cmd := some h, data := out } c := by
  obtain ⟨-, -, -, -, hc⟩ := p.opcodesWf_iff.mp hp
  rw [bracketChip, Chip.takeAll_quiet (hc h hh).2 hl hq]

theorem chipEnable_txFifo (old new : Level) (c : Chip) : (chipEnable old new c).txFifo = c.txFifo := by
  rw [chipEnable_eq]
  split <;> rfl

section
variable {s : State} {payload : List Byte} {w : TxpktAnswers}

/-- A value read with a completion bit set is followed by a whole flush, and any other by none (R117, R118). -/
theorem TxpktAnswers.Complete.flush_eq (hw : w.Complete payload s) :
    (w.read.rx &&& 0x30#8 = 0x00#8 ∧ w.flush = [])
      ∨ (w.read.rx &&& 0x30#8 ≠ 0x00#8 ∧ ∃ f0 fs, w.flush = f0 :: fs ∧ fs.length = s.params.flushTrailer.length) := by
  have hl := hw.flush
  by_cases hz : w.read.rx &&& 0x30#8 = 0x00#8
  · rw [if_pos hz] at hl
    exact .inl ⟨hz, List.length_eq_zero_iff.mp hl⟩
  · rw [if_neg hz, Nat.add_comm] at hl
    obtain ⟨f0, fs, hf⟩ := List.exists_cons_of_length_eq_add_one hl
    exact .inr ⟨hz, f0, fs, hf, by simpa [hf] using hl⟩

/-- The write-back clears the completion bits that the read showed, whatever the chip did before (R116). -/
theorem TxpktAnswers.chipCleared_status (hp : s.params.opcodesWf = true) (ha : s.params.aStatus.toNat ≤ 0x17) :
    (w.chipCleared payload s).status &&& w.read.rx &&& 0x30#8 = 0x00#8 := by
  rw [chipCleared, bracketChip_write_one _ hp, Chip.store_status _ _ _ _ (regByteExists_zero ha)]
  exact clearLatched_completion_bits _ _

/-- Up to the write-back of STATUS a chip that changes nothing by itself has only queued the payload (R112). -/
theorem TxpktAnswers.Complete.chipCleared_txFifo (hw : w.Complete payload s) (hp : s.params.opcodesWf = true)
    (hcsn : s.csn = .high) (hq : Quiet s.env.replies) (hsamples : ∀ x ∈ s.env.samples, x.chip = none) :
    (w.chipCleared payload s).txFifo = s.chip.txFifo ++ [payload] := by
  rw [hw.replies] at hq
  have hread := hq.afterBracket
  have hclear := hread.tail.tail
  have hpolled : (w.chipPolled payload s).txFifo = s.chip.txFifo ++ [payload] := by
    rw [chipPolled, Chip.sampledAll_nextLow hw.samples hsamples, chipEnable_txFifo, hcsn,
      bracketChip_command_quiet hp (by simp [Params.fixedCommands]) hw.load hq.bracket, Chip.finish_load hp]
  rw [chipCleared, bracketChip_write_one _ hp, hclear.head, hclear.tail.head,
    (inert_readHead hp _).bracketChip _ _ rfl (Quiet.bracket (rs := [w.read]) hread)]
  exact (Chip.store_frame _ _ _ _ _).1.trans hpolled

end

/-- Settles O28: the write-back clears what was read, the flush comes last where a completion bit was read, and where
none was nothing has emptied the queue. -/
theorem txpktClearsTheBitsItReadAndFlushes : Obligations.TxpktClearsTheBitsItReadAndFlushes := by
  unfold Obligations.TxpktClearsTheBitsItReadAndFlushes
  intro s t payload l0 ls h1 d1 h2 d2 fl rest hs hp ha hreplies hl hfl h hb
  obtain ⟨v, hv⟩ := exists_complete_of_returns hs h hb
  have hw : TxpktAnswers.Complete ⟨l0, ls, h1, d1, h2, d2, fl, rest, v.highs, v.low, v.more⟩ payload s :=
    ⟨hreplies, hl, hfl, hv.samples⟩
  have hr := hw.returned_of_exec hs h
  rw [hr.params, hr.chip, TxpktAnswers.chipReturned]
  obtain ⟨hz, rfl⟩ | ⟨hz, f0, fs, rfl, hfs⟩ := hw.flush_eq
  · exact ⟨fun _ => TxpktAnswers.chipCleared_status hp ha, fun hne => absurd hz hne,
      fun _ hcsn hq hsamples => hw.chipCleared_txFifo hp hcsn hq hsamples⟩
  · have hempty := bracketChip_flushTx_txFifo hp s.params.flushTrailer f0 fs
    refine ⟨fun hq => ?_, fun _ => ⟨hempty _, fun hf => ?_⟩, fun hz' => absurd hz' hz⟩
    · dsimp only
      rw [bracketChip_command_quiet hp (by simp [Params.fixedCommands]) hfs hq, Chip.finish_flushTx hp]
      exact TxpktAnswers.chipCleared_status hp ha
    · rw [Chip.readByte_fifoStatus_bit4 hf, if_pos (hempty _)]

/-! ### The poll of a line that is never asserted -/

/-- TXPKT polls a line of which the environment has said no more than that it stays at 1 (R114, R177). -/
structure Polls (s : State) : Prop where
  busy : s.busy = true
  seq : s.seq = .tPoll
  samples : s.env.samples = []
  line : s.env.line = .high

/-- `s` after `k` more samples of 1. -/
def State.polledOn (s : State) (k : Nat) : State := { s with trace := s.trace ++ List.replicate k (.irq .high) }

section
variable {s : State}

theorem Polls.polledOn (h : Polls s) (k : Nat) : Polls (s.polledOn k) := ⟨h.busy, h.seq, h.samples, h.line⟩

theorem Polls.micro (h : Polls s) : micro s = { s with trace := s.trace ++ [.irq .high] } := by
  have hsample : s.env.sample = { level := .high, chip := none } := by simp [Env.sample, h.samples, h.line]
  have henv : { s.env with samples := s.env.samples.tail } = s.env := by
    rw [show s.env.samples.tail = s.env.samples by rw [h.samples]; rfl]
  simp only [Machine.micro, if_pos h.busy, blockTick, h.seq, transmitPoll, State.irqSample, State.goto, hsample, henv,
    Chip.moved_none]

/-- Each further step is one more sample. -/
theorem Polls.step_polledOn (h : Polls s) (k : Nat) : step (s.polledOn k) = .next (s.polledOn (k + 1)) := by
  have hmicro : Machine.micro (s.polledOn k) = s.polledOn (k + 1) := by
    rw [(h.polledOn k).micro]
    simp [State.polledOn, List.replicate_succ']
  obtain ⟨hb, hq, hsamples, hline⟩ := h.polledOn (k + 1)
  rw [step_of_inProgress (by simp [inProgress, (h.polledOn k).busy]), hmicro, settle_of_atRest]
  simp [atRest, pollsForEver, hb, hq, hsamples, hline]

end

/-- With its load answered and every sample 1, TXPKT gets to a poll that does not end (R112 to R114). -/
theorem exec_txpkt_polls {s : State} (hs : s.Idle) {payload : List Byte} (hn : payload.length ≤ s.params.nMax)
    {l0 : Reply} {ls rest : List Reply} (hreplies : s.env.replies = l0 :: (ls ++ rest))
    (hl : ls.length = payload.length) (hhigh : ∀ x ∈ s.env.samples, x.level = .high) (hline : s.env.line = .high) :
    ∃ t, exec (.txpkt payload) s = .next t ∧ Polls t ∧ t.ce = .high ∧ t.csn = .high ∧ t.resp = s.resp
      ∧ t.trace = s.trace ++ frameEvents s.params.opWTxPayload payload .high l0 ls ++ [.ce .high]
          ++ s.env.samples.map (fun _ => Event.irq .high) := by
  rw [exec_txpkt hs hn, settle_txpkt_high payload l0 ls rest [] _ (by exact (s.idle_iff.mp hs).1) rfl
    (by exact hreplies) hl (by exact hhigh) (by exact hline)]
  exact ⟨_, rfl, ⟨rfl, rfl, rfl, hline⟩, rfl, rfl, rfl, rfl⟩

/-- Settles O30: from the poll that does not end, the run of steps that each take one more sample. -/
theorem txpktNeverReturnsIfTheLineIsNeverAsserted : Obligations.TxpktNeverReturnsIfTheLineIsNeverAsserted := by
  unfold Obligations.TxpktNeverReturnsIfTheLineIsNeverAsserted
  intro s payload l0 ls rest hs hn hreplies hl hhigh hline
  obtain ⟨t, he, hpolls, hce, hcsn, hresp, htrace⟩ := exec_txpkt_polls hs hn hreplies hl hhigh hline
  exact ⟨t, he, htrace, hresp, t.polledOn, by simp [State.polledOn], fun k =>
    ⟨hpolls.step_polledOn k, hpolls.busy, hpolls.seq, hce, hcsn, hresp, rfl⟩⟩

/-! ### What chip-enable does not decide -/

/-- `s'` is `s` but for chip-enable and the chip, which sees it (R38 (e)). -/
def SameButChipEnable (s s' : State) : Prop := ∃ l c, s' = { s with ce := l, chip := c }

section
variable {s s' : State}

theorem SameButChipEnable.txnOut (h : SameButChipEnable s s') (t : Txn) : txnOut s' t = txnOut s t := by
  obtain ⟨l, c, rfl⟩ := h
  cases t <;> rfl

theorem SameButChipEnable.txnHead (h : SameButChipEnable s s') (t : Txn) : txnHead s' t = txnHead s t := by
  obtain ⟨l, c, rfl⟩ := h
  cases t <;> rfl

theorem sameButChipEnable_frameTick (h : SameButChipEnable s s') (t : Txn) (f : FramePhase) :
    SameButChipEnable (frameTick t f s) (frameTick t f s') := by
  have hout := h.txnOut t
  have hhead := h.txnHead t
  obtain ⟨l, c, rfl⟩ := h
  cases f with
  | sel => exact ⟨_, _, rfl⟩
  | head =>
    simp only [frameTick, frameHead, hhead, dataOrRel, hout]
    cases s.env.replies with
    | nil => exact ⟨_, _, rfl⟩
    | cons r rest => exact ⟨_, _, rfl⟩
  | data =>
    simp only [frameTick, frameData, dataOrRel, hout]
    cases (Machine.txnOut s t)[s.idx]? with
    | none => exact ⟨_, _, rfl⟩
    | some o =>
      cases s.env.replies with
      | nil => exact ⟨_, _, rfl⟩
      | cons r rest => exact ⟨_, _, rfl⟩
  | rel => cases t <;> exact ⟨_, _, rfl⟩

theorem sameButChipEnable_blockTick (h : SameButChipEnable s s') : SameButChipEnable (blockTick s) (blockTick s') := by
  have hseq : s'.seq = s.seq := by
    obtain ⟨l, c, rfl⟩ := h
    rfl
  unfold blockTick
  rw [hseq]
  cases s.seq with
  | frame t f => exact sameButChipEnable_frameTick h t f
  | idle | cSet | tArm | tPoll | tSettle | tClass | tRet | ret =>
    obtain ⟨l, c, rfl⟩ := h
    exact ⟨_, _, rfl⟩

theorem sameButChipEnable_hostTick (h : SameButChipEnable s s') : SameButChipEnable (hostTick s) (hostTick s') := by
  obtain ⟨hhost, hresp⟩ : s'.hostSeq = s.hostSeq ∧ s'.resp = s.resp := by
    obtain ⟨l, c, rfl⟩ := h
    exact ⟨rfl, rfl⟩
  unfold hostTick
  rw [hhost, hresp]
  obtain ⟨l, c, he⟩ := h
  cases s.hostSeq with
  | nil => exact ⟨l, c, he⟩
  | cons x rest =>
    subst he
    cases x with
    | op _ | compare _ => exact ⟨_, _, rfl⟩
    | writeBack a keep set =>
      dsimp only
      split <;> exact ⟨_, _, rfl⟩

theorem sameButChipEnable_micro (h : SameButChipEnable s s') : SameButChipEnable (micro s) (micro s') := by
  have hbusy : s'.busy = s.busy := by
    obtain ⟨l, c, rfl⟩ := h
    rfl
  unfold micro
  rw [hbusy]
  split
  · exact sameButChipEnable_blockTick h
  · exact sameButChipEnable_hostTick h

theorem atRest_of_sameButChipEnable (h : SameButChipEnable s s') : atRest s' = atRest s := by
  have hout := h.txnOut
  obtain ⟨l, c, rfl⟩ := h
  simp only [atRest, waitsForReply, pollsForEver, hout]

end

/-- Settles O33: no micro-step looks at chip-enable but to tell the chip, and none looks at the chip. -/
theorem txpktDoesNotLookAtChipEnable : Obligations.TxpktDoesNotLookAtChipEnable := by
  unfold Obligations.TxpktDoesNotLookAtChipEnable
  intro s t payload l hs h
  have hn := length_le_of_exec_txpkt h
  rw [exec_txpkt hs hn, Host.Outcome.next.injEq] at h
  subst h
  refine ⟨_, exec_txpkt (s := { s with ce := l }) hs hn, ?_⟩
  obtain ⟨l', c, h⟩ := settle_relation SameButChipEnable (fun _ _ => atRest_of_sameButChipEnable)
    (fun _ _ => sameButChipEnable_micro) { s with hostSeq := [.op (opTxpkt payload)] }
    { s with ce := l, hostSeq := [.op (opTxpkt payload)] } ⟨l, s.chip, rfl⟩
  rw [h]
  exact ⟨rfl, rfl, rfl, rfl⟩

/-! ### What the bytes received do not decide -/

theorem exists_four_of_length {rs : List Reply} {n : Nat} (h : rs.length = n + 4) :
    ∃ a b c d r, rs = a :: b :: c :: d :: r ∧ r.length = n :=
  match rs, h with
  | a :: b :: c :: d :: r, h => ⟨a, b, c, d, r, rfl, by simpa using h⟩

/-- The second exchange after a bracket with `n` data bytes. -/
theorem getElem?_after_bracket {ls : List Reply} {n : Nat} (hl : ls.length = n) (a b c : Reply) (rs : List Reply) :
    (a :: (ls ++ b :: c :: rs))[n + 2]? = some c := by
  subst hl
  simp

/-- As many answers with the same value of STATUS are again all that TXPKT asks for: only that value says whether there
is a flush. -/
theorem TxpktAnswers.Complete.exists_of_replies {s : State} {payload : List Byte} {w : TxpktAnswers}
    (hw : w.Complete payload s) {rs : List Reply} (hl : rs.length = s.env.replies.length)
    (hbyte : ∀ r r', s.env.replies[payload.length + 2]? = some r → rs[payload.length + 2]? = some r' → r'.rx = r.rx) :
    ∃ w' : TxpktAnswers,
      w'.Complete payload { s with env := { s.env with replies := rs } } ∧ w'.read.rx = w.read.rx := by
  have hload := hw.load
  simp only [hw.replies, List.length_cons, List.length_append] at hl
  obtain ⟨l0, ls, rs, rfl, hls⟩ := split_replies rs payload.length (by omega)
  obtain ⟨h1, d1, h2, d2, r, rfl, hr⟩ :=
    exists_four_of_length (rs := rs) (n := w.flush.length + w.rest.length) (by simp at hl; omega)
  have hread : d1.rx = w.read.rx := hbyte _ _ (by rw [hw.replies, getElem?_after_bracket hload])
    (getElem?_after_bracket hls _ _ _ _)
  refine ⟨{ w with
    load0 := l0, load := ls, read0 := h1, read := d1, clear0 := h2, clear := d2
    flush := r.take w.flush.length, rest := r.drop w.flush.length }, ⟨by simp, hls, ?_, hw.samples⟩, hread⟩
  rw [List.length_take, Nat.min_eq_left (by omega), hread]
  exact hw.flush

/-- Settles O34: with the other answers TXPKT returns too, and classifies the same value. -/
theorem onlyTheStatusByteDecidesTheOutcome : Obligations.OnlyTheStatusByteDecidesTheOutcome := by
  unfold Obligations.OnlyTheStatusByteDecidesTheOutcome
  intro s t u payload rs hs hl hbyte ht hb hu
  obtain ⟨w, hw⟩ := exists_complete_of_returns hs ht hb
  obtain ⟨w', hw', hread⟩ := hw.exists_of_replies hl hbyte
  have hr' := hw'.returned_of_exec (by exact hs) hu
  exact ⟨hr'.busy, by rw [hr'.resp, hread, (hw.returned_of_exec hs ht).resp]⟩

end Sys2Proof.Machine
end

section
/-! PROOF. The host's sequences (42_host_sequences.md sections 1 and 2): the state that each leaves when its exchanges
are answered, what then stands in the chip's registers, and the operations that are refused. -/

namespace Sys2Proof.Machine

/-! ### Operations outside their domain -/

theorem exec_illegal {i : Instr} {s : State} (hs : s.Idle) {why : Illegal} (hi : i.illegal s.params = some why) :
    exec i s = .refused (.illegal why) := by
  obtain ⟨hb, hh⟩ := s.idle_iff.mp hs
  simp [exec_eq_perform, perform, hb, hh, hi]

section
variable {p : Params}

theorem illegalCount_of_lt {n : Nat} (hn : p.nMax < n) : illegalCount p n = some .countAboveMax :=
  if_neg (Nat.not_le.mpr hn)

theorem illegalCommand_of_lt {c : Byte} (hc : c ∈ p.fixedCommands) {n : Nat} (hn : p.nMax < n) :
    illegalCommand p c n = some .countAboveMax := by
  rw [illegalCommand, if_pos (List.contains_iff_mem.mpr hc), illegalCount_of_lt hn]

theorem illegalCommand_of_notMem {c : Byte} (hc : c ∉ p.fixedCommands) (n : Nat) :
    illegalCommand p c n = some .notFixedCommand :=
  if_neg fun h => hc (List.contains_iff_mem.mp h)

/-- The domains of R141's table. -/
theorem txConfig_wf_iff (cfg : TxConfig) :
    cfg.wf p = true ↔ cfg.count ≤ 15 ∧ cfg.delay ≤ 15 ∧ cfg.channel ≤ 127 ∧ cfg.dataRate ∈ p.rate
      ∧ cfg.txPower ∈ p.pwr ∧ (cfg.crcWidth = 1 ∨ cfg.crcWidth = 2) ∧ 3 ≤ cfg.width ∧ cfg.width ≤ 5
      ∧ cfg.addr.length = cfg.width := by
  simp [TxConfig.wf, and_assoc]

end

/-- Settles O4: each is outside the domain of its operation, and an idle machine refuses it by the name of that. -/
theorem outOfDomainOperationsAreRefused : Obligations.OutOfDomainOperationsAreRefused := by
  unfold Obligations.OutOfDomainOperationsAreRefused
  intro s hs
  refine ⟨fun a n hn => ?_, fun a data hn => ?_, fun c n data hc => ?_, fun c n data hc => ?_, fun ch hch => ?_,
    fun cfg hcfg => ?_⟩
  · have hill := illegalCount_of_lt hn
    exact ⟨exec_illegal hs hill, exec_illegal hs hill, exec_illegal hs hill⟩
  · have hill := illegalCount_of_lt hn
    exact ⟨exec_illegal hs hill, exec_illegal hs hill, exec_illegal hs hill, exec_illegal hs hill⟩
  · have hill := illegalCommand_of_notMem hc
    exact ⟨exec_illegal hs (hill n), exec_illegal hs (hill data.length)⟩
  · have hill {m : Nat} := illegalCommand_of_lt hc (n := m)
    exact ⟨fun hn => exec_illegal hs (hill hn), fun hn => exec_illegal hs (hill hn)⟩
  · exact exec_illegal hs (if_neg (Nat.not_le.mpr hch))
  · have hwf : ¬ cfg.wf s.params = true := fun h => by
      obtain ⟨hcount, hdelay, hchannel, hrate, hpower, hcrc, hmin, hmax, haddr⟩ := (txConfig_wf_iff cfg).mp h
      simp only [hrate, hpower, haddr, not_true_eq_false, false_or, ne_eq, or_false] at hcfg
      omega
    exact exec_illegal hs (if_neg hwf)

/-! ### SETCH -/

/-- Settles O37: SETCH presents the one operation that WREG of the channel into RF_CH presents. -/
theorem setChWritesTheChannel : Obligations.SetChWritesTheChannel := by
  unfold Obligations.SetChWritesTheChannel
  intro s ch r0 r1 rest hs hch he
  have hsame : exec (.setCh ch) s = exec (.wreg s.params.aRfCh (channelByte ch)) s := by
    rw [exec_idle (i := .setCh ch) hs (if_pos hch), exec_idle hs rfl]
    rfl
  rw [hsame]
  exact wregWritesOneByteAndReturnsStatus s _ _ r0 r1 rest hs he

/-! ### Read-modify-writes -/

/-- The state after a register has been read and the value `v` written back to it: RREG, and then WREG (R145 to
R147). -/
def readModifyWriteEnd (a : RegAddr) (v : Byte) (q0 q1 w0 w1 : Reply) (rest : List Reply) (s : State) : State :=
  framerEnd (opWreg a v) (s.params.opWRegister ||| regByte a) [v] .high (.status w0.rx) w0 [w1] rest
    (framerEnd (opRreg a) (s.params.opRRegister ||| regByte a) [s.params.dummy] .high (.value q1.rx) q0 [q1]
      (w0 :: w1 :: rest) s)

/-- The state after the host has lowered chip-enable. -/
def ceLowered (s : State) : State :=
  { s with
    ce := .low
    seq := .idle
    ops := opSetce .low
    resp := some .empty
    trace := s.trace ++ [.ce .low, .ret .empty] }

/-- SETCE(0) among the host's steps: the chip does nothing (R38 (e)). -/
theorem settle_ceLowered {s : State} (hb : s.busy = false) (l : List HostStep) :
    settle { s with hostSeq := .op (opSetce .low) :: l } = settle { ceLowered s with hostSeq := l } := by
  have hchip : chipEnable s.ce .low s.chip = s.chip := by cases s.ce <;> rfl
  rw [settle_setce .low l _ (by exact hb) rfl]
  simp only [hchip]
  rfl

section
variable {a : RegAddr} {keep set v : Byte} {q0 q1 w0 w1 : Reply} {rest : List Reply} {s : State}

/-- A read-modify-write at the end of the host's steps. -/
theorem settle_readModifyWrite (hs : s.Idle) (he : s.env.replies = q0 :: q1 :: w0 :: w1 :: rest)
    (hv : (q1.rx &&& keep) ||| set = v) :
    settle { s with hostSeq := [.op (opRreg a), .writeBack a keep set] }
      = readModifyWriteEnd a v q0 q1 w0 w1 rest s := by
  obtain ⟨hb, hh⟩ := s.idle_iff.mp hs
  rw [settle_rreg a q0 q1 _ _ _ (by exact hb) rfl (by exact he),
    settle_writeBack a keep set q1.rx [] _ (by exact hb) rfl rfl, hv,
    settle_wreg a v w0 w1 rest [] _ (by exact hb) rfl rfl, settle_nil _ (by exact hb) rfl, ← hh]
  rfl

/-- An operation that is one read-modify-write, with all its answers. -/
theorem exec_readModifyWrite {i : Instr} (hs : s.Idle) (hi : i.WellFormed s.params)
    (hsteps : hostSteps s.params i = [.op (opRreg a), .writeBack a keep set])
    (he : s.env.replies = q0 :: q1 :: w0 :: w1 :: rest) (hv : (q1.rx &&& keep) ||| set = v) :
    exec i s = .next (readModifyWriteEnd a v q0 q1 w0 w1 rest s) := by
  rw [exec_idle hs hi, hsteps, settle_readModifyWrite hs he hv]

theorem exec_wake (hs : s.Idle) (he : s.env.replies = q0 :: q1 :: w0 :: w1 :: rest) :
    exec .wake s = .next (readModifyWriteEnd s.params.aConfig (q1.rx ||| s.params.mPwrUp) q0 q1 w0 w1 rest s) :=
  exec_readModifyWrite hs rfl rfl he (congrArg (· ||| s.params.mPwrUp) BitVec.and_allOnes)

theorem exec_setPwr (hs : s.Idle) (level : Byte) (he : s.env.replies = q0 :: q1 :: w0 :: w1 :: rest) :
    exec (.setPwr level) s
      = .next (readModifyWriteEnd s.params.aRfSetup ((q1.rx &&& ~~~s.params.mRfPwr) ||| level) q0 q1 w0 w1 rest s) :=
  exec_readModifyWrite hs rfl rfl he rfl

theorem exec_pwrDn (hs : s.Idle) (he : s.env.replies = q0 :: q1 :: w0 :: w1 :: rest) :
    exec .pwrDn s
      = .next (readModifyWriteEnd s.params.aConfig (q1.rx &&& ~~~s.params.mPwrUp) q0 q1 w0 w1 rest (ceLowered s)) := by
  have hsteps : hostSteps s.params .pwrDn
      = [.op (opSetce .low), .op (opRreg s.params.aConfig),
        .writeBack s.params.aConfig (~~~s.params.mPwrUp) 0x00#8] := rfl
  rw [exec_idle hs rfl, hsteps, settle_ceLowered (s.idle_iff.mp hs).1,
    settle_readModifyWrite (s := ceLowered s) hs he BitVec.or_zero]

end

/-- Settles O38: SETCE(0), and the read-modify-write that clears the bit. -/
theorem pwrDnClearsThePowerUpBit : Obligations.PwrDnClearsThePowerUpBit := by
  unfold Obligations.PwrDnClearsThePowerUpBit
  intro s q0 q1 w0 w1 rest hs he
  obtain ⟨hb, hh⟩ := s.idle_iff.mp hs
  exact ⟨_, exec_pwrDn hs he, rfl, rfl, rfl, hb, hh, rfl, rfl, rfl, rfl, rfl, rfl⟩

/-- Settles O39: each is one read-modify-write. -/
theorem wakeAndSetPwrModifyOneField : Obligations.WakeAndSetPwrModifyOneField := by
  unfold Obligations.WakeAndSetPwrModifyOneField
  intro s q0 q1 w0 w1 rest hs he
  obtain ⟨hb, hh⟩ := s.idle_iff.mp hs
  exact ⟨⟨_, exec_wake hs he, rfl, rfl, rfl, hb, hh, rfl, rfl, rfl, rfl, rfl, rfl⟩, fun level =>
    ⟨_, exec_setPwr hs level he, rfl, rfl, rfl, hb, hh, rfl, rfl, rfl, rfl, rfl, rfl⟩⟩

/-! ### The chip after a read-modify-write -/

section
variable {a : RegAddr} {v : Byte} {q0 q1 w0 w1 : Reply} {rest : List Reply} {s : State}

@[simp] theorem readModifyWriteEnd_params : (readModifyWriteEnd a v q0 q1 w0 w1 rest s).params = s.params := rfl

/-- On a chip that changes nothing by itself a read-modify-write is the store of the value. -/
theorem readModifyWriteEnd_chip (hp : s.params.opcodesWf = true) (hq : Quiet [q0, q1, w0, w1]) :
    (readModifyWriteEnd a v q0 q1 w0 w1 rest s).chip = Chip.store s.params a 0 v s.chip := by
  have hread : bracketChip s.params s.csn .high (s.params.opRRegister ||| regByte a) [s.params.dummy] q0 [q1] s.chip
      = s.chip := by
    rw [bracketChip_read _ hp _ _ _ _ _ _ _ rfl]
    exact Chip.movedAll_quiet _ _ (Quiet.bracket (rs := [q1]) hq)
  obtain ⟨hw0, hw1⟩ : w0.chip = none ∧ w1.chip = none := ⟨hq w0 (by simp), hq w1 (by simp)⟩
  simp only [readModifyWriteEnd, framerEnd, hread, bracketChip_write_one _ hp, hw0, hw1, Chip.moved_none]

/-- What it leaves in the chip's registers. -/
theorem readByte_readModifyWriteEnd (hp : s.params.opcodesWf = true) (hq : Quiet [q0, q1, w0, w1])
    (ha : a.toNat ≤ 0x17) (hstatus : a ≠ s.params.aStatus) (hfifo : a ≠ s.params.aFifoStatus) :
    Chip.readByte s.params (readModifyWriteEnd a v q0 q1 w0 w1 rest s).chip a 0 = v
      ∧ ∀ a' j, j < 8 → (a' ≠ a ∨ j ≠ 0) →
          Chip.readByte s.params (readModifyWriteEnd a v q0 q1 w0 w1 rest s).chip a' j
            = Chip.readByte s.params s.chip a' j := by
  rw [readModifyWriteEnd_chip hp hq]
  exact ⟨Chip.readByte_store_same _ _ _ _ _ hstatus (.inl hfifo) (regByteExists_zero ha), fun a' j hj h =>
    Chip.readByte_store_other _ _ _ _ _ _ _ hstatus hj (h.imp_right .inl)⟩

/-- What one of CONFIG does to the runtime state (R22, R182). -/
theorem mode_readModifyWriteEnd (hp : s.params.opcodesWf = true) (hq : Quiet [q0, q1, w0, w1])
    (ha : s.params.aConfig.toNat ≤ 0x17) (hstatus : s.params.aConfig ≠ s.params.aStatus) :
    (readModifyWriteEnd s.params.aConfig v q0 q1 w0 w1 rest s).chip.mode = poweredMode s.params v s.chip.mode := by
  rw [readModifyWriteEnd_chip hp hq, Chip.store_config_mode _ _ _ hstatus (regByteExists_zero ha)]

end

theorem poweredMode_of_cleared (p : Params) (x : Byte) (m : ChipMode) :
    poweredMode p (x &&& ~~~p.mPwrUp) m = .powerDown := by
  simp [poweredMode, BitVec.and_assoc]

theorem poweredMode_of_set {p : Params} (hp : p.mPwrUp ≠ 0x00#8) (x : Byte) :
    poweredMode p (x ||| p.mPwrUp) .powerDown = .standby := by
  have hbit : (x ||| p.mPwrUp) &&& p.mPwrUp = p.mPwrUp := by
    ext k hk
    rw [BitVec.getElem_and, BitVec.getElem_or]
    cases x[k] <;> simp
  rw [poweredMode, hbit, if_neg hp]

/-- Settles O52: SETPWR is one read-modify-write of RF_SETUP. -/
theorem setPwrWritesThePowerField : Obligations.SetPwrWritesThePowerField := by
  unfold Obligations.SetPwrWritesThePowerField
  intro s level c q0 q1 w0 w1 rest hs hp ha hstatus hfifo _ he hq _ hc
  subst hc
  refine ⟨_, exec_setPwr hs level he, ?_⟩
  rw [readModifyWriteEnd_params]
  exact readByte_readModifyWriteEnd hp hq ha hstatus hfifo

/-- Settles O49: each is one read-modify-write of CONFIG, the second on the chip that the first has left. -/
theorem powerDownThenWakeKeepsTheOtherRegisters : Obligations.PowerDownThenWakeKeepsTheOtherRegisters := by
  unfold Obligations.PowerDownThenWakeKeepsTheOtherRegisters
  intro s t c q0 q1 w0 w1 p0 p1 v0 v1 rest hs hp ha hstatus hfifo _ he hq _ hc hp1 h
  subst hc
  have hdown : Quiet [q0, q1, w0, w1] := Quiet.bracket (rs := [q1, w0, w1]) hq
  have hup : Quiet [p0, p1, v0, v1] := Quiet.afterBracket (rs := [q1, w0, w1]) hq
  rw [exec_pwrDn hs he, Host.Outcome.next.injEq] at h
  obtain ⟨hparams, hidle, hreplies⟩ : t.params = s.params ∧ t.Idle
      ∧ t.env.replies = p0 :: p1 :: v0 :: v1 :: rest := by
    rw [← h]
    exact ⟨rfl, hs, rfl⟩
  obtain ⟨hcleared, hkept⟩ : Chip.readByte s.params t.chip s.params.aConfig 0 = q1.rx &&& ~~~s.params.mPwrUp
      ∧ ∀ a j, j < 8 → (a ≠ s.params.aConfig ∨ j ≠ 0) →
          Chip.readByte s.params t.chip a j = Chip.readByte s.params s.chip a j := by
    rw [← h]
    exact readByte_readModifyWriteEnd (s := ceLowered s) hp hdown ha hstatus hfifo
  have hmode : t.chip.mode = .powerDown := by
    rw [← h, ← poweredMode_of_cleared s.params q1.rx s.chip.mode]
    exact mode_readModifyWriteEnd (s := ceLowered s) hp hdown ha hstatus
  rw [← hparams] at hp ha hstatus hfifo hp1 hcleared hkept ⊢
  obtain ⟨hset, hkept'⟩ :=
    readByte_readModifyWriteEnd (s := t) (v := p1.rx ||| t.params.mPwrUp) (rest := rest) hp hup ha hstatus hfifo
  refine ⟨hcleared, hmode, _, exec_wake hidle hreplies, ?_, fun hbit => ?_, fun a j hj h => ?_⟩
  · rw [readModifyWriteEnd_params, hset, hp1]
  · rw [mode_readModifyWriteEnd hp hup ha hstatus, hmode, poweredMode_of_set hbit]
  · rw [readModifyWriteEnd_params, hkept' a j hj h, hkept a j hj h]

/-! ### PRESENT -/

section
variable {w0 q0 : Reply} {ws qs rest : List Reply} {s t : State}

/-- The state after TX_ADDR has been written with the pattern: WBUF, the first half of PRESENT. -/
def patternWritten (w0 : Reply) (ws rest : List Reply) (s : State) : State :=
  framerEnd (opWbuf .reg (regByte s.params.aTxAddr) s.params.pattern.toList)
    (s.params.opWRegister ||| regByte s.params.aTxAddr) s.params.pattern.toList .high (.status w0.rx) w0 ws rest s

/-- The state after PRESENT, the five bytes that it read compared with the pattern (R142). -/
def presentEnd (w0 : Reply) (ws : List Reply) (q0 : Reply) (qs rest : List Reply) (s : State) : State :=
  { framerEnd (opRbuf .reg (regByte s.params.aTxAddr) 5) (s.params.opRRegister ||| regByte s.params.aTxAddr)
      (List.replicate 5 s.params.dummy) (rbufClose s.params) (.buffer q0.rx (received qs)) q0 qs rest
      (patternWritten w0 ws (q0 :: (qs ++ rest)) s) with
    presence := some (decide (received qs = s.params.pattern.toList)) }

theorem exec_present (hs : s.Idle) (he : s.env.replies = w0 :: (ws ++ q0 :: (qs ++ rest))) (hws : ws.length = 5)
    (hqs : qs.length = 5) : exec .present s = .next (presentEnd w0 ws q0 qs rest s) := by
  obtain ⟨hb, hh⟩ := s.idle_iff.mp hs
  have hsteps : hostSteps s.params .present
      = [.op (opWbuf .reg (regByte s.params.aTxAddr) s.params.pattern.toList),
        .op (opRbuf .reg (regByte s.params.aTxAddr) 5), .compare s.params.pattern.toList] := rfl
  have hmatch : matchesPattern (some (.buffer q0.rx (received qs))) s.params.pattern.toList
      = decide (received qs = s.params.pattern.toList) := by
    rw [Bool.eq_iff_iff]
    simp [matchesPattern]
  rw [exec_idle hs rfl, hsteps,
    settle_wbuf s.params.aTxAddr _ w0 ws _ _ _ (by exact hb) rfl (by exact he) (by simpa using hws),
    settle_rbuf s.params.aTxAddr 5 q0 qs rest _ _ (by exact hb) rfl rfl hqs,
    settle_compare _ [] _ (by exact hb) rfl, settle_nil _ (by exact hb) rfl, presentEnd, ← hmatch, ← hh]
  rfl

/-- PRESENT has twelve exchanges, and where it returns they were answered. -/
theorem present_returns (hs : s.Idle) (h : exec .present s = .next t) (ht : t.busy = false) :
    ∃ w0 ws q0 qs rest, s.env.replies = w0 :: (ws ++ q0 :: (qs ++ rest)) ∧ ws.length = 5 ∧ qs.length = 5 := by
  have hlong : 12 ≤ s.env.replies.length := by
    by_contra hshort
    obtain ⟨u, f, hu, hbusy, -⟩ := exec_pseudoOp_hangs .present hs rfl (by exact Nat.not_le.mp hshort)
    obtain rfl : t = u := Host.Outcome.next.inj (h.symm.trans hu)
    simp [ht] at hbusy
  obtain ⟨w0, ws, more, he, hws⟩ := split_replies s.env.replies 5 (by omega)
  obtain ⟨q0, qs, rest, rfl, hqs⟩ := split_replies more 5 (by simp [he] at hlong; omega)
  exact ⟨w0, ws, q0, qs, rest, he, hws, hqs⟩

/-- On a chip that changes nothing by itself PRESENT is the store of the pattern into TX_ADDR. -/
theorem presentEnd_chip (hp : s.params.opcodesWf = true) (hcsn : s.csn = .high)
    (hq : Quiet (w0 :: (ws ++ q0 :: (qs ++ rest)))) (hws : ws.length = 5) (hqs : qs.length = 5) :
    (presentEnd w0 ws q0 qs rest s).chip
      = Chip.storeAll s.params s.params.aTxAddr 0 s.params.pattern.toList s.chip := by
  have hwrite : (patternWritten w0 ws (q0 :: (qs ++ rest)) s).chip
      = Chip.storeAll s.params s.params.aTxAddr 0 s.params.pattern.toList s.chip := by
    simp only [patternWritten, framerEnd, hcsn]
    rw [bracketChip_write_quiet hp _ _ _ (by simpa using hws)
      (fun x hx => hq.bracket.tail x (List.mem_of_mem_drop hx)), Chip.movedAll_quiet _ _ hq.bracket]
  rw [← hwrite]
  simp only [presentEnd, framerEnd]
  exact (bracketChip_read _ hp _ _ _ _ _ _ _ (by simpa using hqs)).trans
    (Chip.movedAll_quiet _ _ hq.afterBracket.bracket)

end

/-- Settles O35: WBUF, RBUF and the comparison. -/
theorem presentComparesTheEcho : Obligations.PresentComparesTheEcho := by
  unfold Obligations.PresentComparesTheEcho
  intro s w0 ws q0 qs rest hs he hws hqs
  obtain ⟨hb, hh⟩ := s.idle_iff.mp hs
  exact ⟨_, exec_present hs he hws hqs, rfl, rfl, rfl, rfl, hb, hh, rfl, rfl, rfl, rfl, rfl⟩

/-- The bytes of an address register (R32, R36). -/
theorem regByteExists_address {p : Params} {a : RegAddr} (h : a = p.aTxAddr ∨ a = p.aRxAddrP0) (ha : a.toNat ≤ 0x17)
    {j : Nat} (hj : j < 5) : regByteExists p a j = true := by
  simp [regByteExists, regWidth, lastRegAddr, if_pos h, ha, hj]

/-- Settles O51: the exchanges were answered, and after the write the chip is only read. -/
theorem presentLeavesThePatternInTxAddr : Obligations.PresentLeavesThePatternInTxAddr := by
  unfold Obligations.PresentLeavesThePatternInTxAddr
  intro s t hs hp ha hstatus hfifo hcsn hq h hidle j hj
  obtain ⟨w0, ws, q0, qs, rest, he, hws, hqs⟩ := present_returns hs h ((State.idle_iff t).mp hidle).1
  rw [exec_present hs he hws hqs, Host.Outcome.next.injEq] at h
  have hparams : t.params = s.params := by
    rw [← h]
    rfl
  rw [hparams, ← h, presentEnd_chip hp hcsn (he ▸ hq) hws hqs]
  exact Chip.readByte_storeAll_same hstatus (regByteExists_address (.inl rfl) ha hj) (.inl hfifo) (by omega)
    (Nat.zero_le j) (by simpa using hj) s.chip

/-! ### Sequences of register writes -/

/-- A register write of a host sequence: WREG of one byte, or WBUF in register form. -/
structure RegWrite where
  op : Operands
  addr : RegAddr
  data : List Byte
  carried : (∃ v, data = [v] ∧ op = opWreg addr v) ∨ op = opWbuf .reg (regByte addr) data

def RegWrite.byte (a : RegAddr) (v : Byte) : RegWrite := ⟨opWreg a v, a, [v], .inl ⟨v, rfl, rfl⟩⟩

def RegWrite.bytes (a : RegAddr) (data : List Byte) : RegWrite :=
  ⟨opWbuf .reg (regByte a) data, a, data, .inr rfl⟩

def RegWrite.step (w : RegWrite) : HostStep := .op w.op

/-- A register write with the answers to its exchanges. -/
structure AnsweredWrite extends RegWrite where
  first : Reply
  more : List Reply
  answered : more.length = data.length

def AnsweredWrite.replies (w : AnsweredWrite) : List Reply := w.first :: w.more

/-- The state after a register write (R81, R84). -/
def AnsweredWrite.endState (w : AnsweredWrite) (rest : List Reply) (s : State) : State :=
  framerEnd w.op (s.params.opWRegister ||| regByte w.addr) w.data .high (.status w.first.rx) w.first w.more rest s

/-- The state after register writes, one after another. -/
def writesEnd : List AnsweredWrite → List Reply → State → State
  | [], _, s => s
  | w :: ws, rest, s => writesEnd ws rest (w.endState (ws.flatMap AnsweredWrite.replies ++ rest) s)

/-- The chip after register writes, on a chip that changes nothing by itself. -/
def Chip.program (p : Params) (ws : List RegWrite) (c : Chip) : Chip :=
  ws.foldl (fun c w => Chip.storeAll p w.addr 0 w.data c) c

/-- Register writes with all their answers, as the host's only steps. -/
theorem settle_writes {ws : List AnsweredWrite} {rest : List Reply} {s : State} (hs : s.Idle)
    (he : s.env.replies = ws.flatMap AnsweredWrite.replies ++ rest) :
    settle { s with hostSeq := ws.map (·.step) } = writesEnd ws rest s := by
  obtain ⟨hb, hh⟩ := s.idle_iff.mp hs
  induction ws generalizing s with
  | nil =>
    rw [List.map_nil, ← hh]
    exact settle_nil s hb hh
  | cons w ws ih =>
    have hreplies : s.env.replies = w.first :: (w.more ++ (ws.flatMap AnsweredWrite.replies ++ rest)) := by
      rw [he]
      simp [AnsweredWrite.replies]
    have hstep : settle { s with hostSeq := w.step :: ws.map (·.step) }
        = settle { w.endState (ws.flatMap AnsweredWrite.replies ++ rest) s with hostSeq := ws.map (·.step) } := by
      obtain ⟨⟨op, a, data, ⟨v, rfl, rfl⟩ | rfl⟩, r0, rs, hrs⟩ := w
      · obtain ⟨r1, rfl⟩ := List.length_eq_one_iff.mp hrs
        exact settle_wreg a v r0 r1 _ _ _ hb rfl hreplies
      · exact settle_wbuf a data r0 rs _ _ _ hb rfl hreplies hrs
    rw [List.map_cons, hstep]
    exact ih hs rfl hb hh

/-- Register writes on a chip that changes nothing by itself, from a falling edge, once they have all returned. -/
theorem settle_writes_chip {ws : List RegWrite} {s : State} (hp : s.params.opcodesWf = true) (hb : s.busy = false)
    (hh : s.hostSeq = ws.map RegWrite.step) (hcsn : s.csn = .high) (hq : Quiet s.env.replies)
    (hret : (settle s).busy = false) : (settle s).chip = Chip.program s.params ws s.chip := by
  induction ws generalizing s with
  | nil =>
    rw [settle_nil s hb hh]
    rfl
  | cons w ws ih =>
    obtain ⟨u, rs, hu, hup, hub, huh, hucsn, huq, hlen, hrs, hchip⟩ :=
      settle_write_returns w.addr w.data w.op w.carried _ s hp hb hh hcsn hq hret
    rw [Chip.takeAll_write_quiet hp _ hlen hrs] at hchip
    rw [hu, ih (hup ▸ hp) hub huh hucsn huq (hu ▸ hret), hup, hchip]
    rfl

section
variable {p : Params} {ws : List RegWrite}

/-- Writes of other registers leave a register's bytes. -/
theorem Chip.readByte_program_other (hstatus : p.aStatus ∉ ws.map RegWrite.addr) {a : RegAddr}
    (ha : a ∉ ws.map RegWrite.addr) {j : Nat} (hj : j < 8) (c : Chip) :
    Chip.readByte p (Chip.program p ws c) a j = Chip.readByte p c a j := by
  induction ws generalizing c with
  | nil => rfl
  | cons w ws ih =>
    rw [List.map_cons, List.mem_cons, not_or] at hstatus ha
    obtain ⟨⟨hsw, hsws⟩, haw, haws⟩ := And.intro hstatus ha
    exact (ih hsws haws _).trans (Chip.readByte_storeAll_other (Ne.symm hsw) hj (.inl haw) c)

/-- After writes of registers that are all different each holds the bytes written to it. -/
theorem Chip.readByte_program (hdiff : (ws.map RegWrite.addr).Nodup) (hstatus : p.aStatus ∉ ws.map RegWrite.addr)
    {w : RegWrite} (hw : w ∈ ws) {j : Nat} (he : regByteExists p w.addr j = true) (hf : w.addr ≠ p.aFifoStatus)
    (hl : j < w.data.length) (c : Chip) :
    some (Chip.readByte p (Chip.program p ws c) w.addr j) = w.data[j]? := by
  have hj := lt_eight_of_regByteExists he
  induction ws generalizing c with
  | nil => simp at hw
  | cons x ws ih =>
    rw [List.map_cons, List.mem_cons, not_or] at hstatus
    obtain ⟨hsx, hsws⟩ := hstatus
    obtain ⟨hx, hdiff⟩ := List.nodup_cons.mp hdiff
    obtain rfl | hw := List.mem_cons.mp hw
    · have hrest := Chip.readByte_program_other hsws hx hj (Chip.storeAll p w.addr 0 w.data c)
      exact (congrArg some hrest).trans
        (Chip.readByte_storeAll_same (Ne.symm hsx) he (.inl hf) hj (Nat.zero_le j) (by omega) c)
    · exact ih hdiff hsws hw _

/-- Writes of other registers than CONFIG leave the runtime state (log entry 33). -/
theorem Chip.program_keeps_mode (h : p.aConfig ∉ ws.map RegWrite.addr) (c : Chip) :
    (Chip.program p ws c).mode = c.mode := by
  induction ws generalizing c with
  | nil => rfl
  | cons w ws ih =>
    rw [List.map_cons, List.mem_cons, not_or] at h
    obtain ⟨hw, hws⟩ := h
    exact (ih hws _).trans (Chip.storeAll_induction (·.mode = c.mode)
      (fun k v d _ hd => (Chip.store_keeps_mode p w.addr k v d (Ne.symm hw)).trans hd) rfl)

/-- A write of CONFIG among writes of other registers moves it as the power-up bit says (R22, R182). -/
theorem Chip.program_mode (ha : p.aConfig.toNat ≤ 0x17) (hstatus : p.aConfig ≠ p.aStatus) {ws' : List RegWrite}
    {v : Byte} (hdiff : ((ws ++ .byte p.aConfig v :: ws').map RegWrite.addr).Nodup) (c : Chip) :
    (Chip.program p (ws ++ .byte p.aConfig v :: ws') c).mode = poweredMode p v c.mode := by
  rw [List.map_append, List.map_cons, List.nodup_middle, List.nodup_cons, List.mem_append, not_or] at hdiff
  obtain ⟨⟨hbefore, hafter⟩, -⟩ := hdiff
  have hsplit : Chip.program p (ws ++ .byte p.aConfig v :: ws') c
      = Chip.program p ws' (Chip.store p p.aConfig 0 v (Chip.program p ws c)) := List.foldl_append
  rw [hsplit, Chip.program_keeps_mode hafter, Chip.store_config_mode p v _ hstatus (regByteExists_zero ha),
    Chip.program_keeps_mode hbefore]

end

/-! ### ENTERTX -/

/-- The register writes of ENTERTX, in its order (R143). -/
def enterTxWrites (p : Params) (cfg : TxConfig) : List RegWrite :=
  [.byte p.aSetupRetr (packRetr cfg.delay cfg.count), .byte p.aRfSetup (packRfSetup cfg),
   .byte p.aConfig (packConfig p cfg), .byte p.aRfCh (channelByte cfg.channel), .bytes p.aTxAddr cfg.addr,
   .byte p.aEnAa p.mEnaaP0, .bytes p.aRxAddrP0 cfg.addr]

section
variable {s t : State} {cfg : TxConfig}

/-- ENTERTX is SETCE(0) and then its register writes. -/
theorem exec_enterTx (hs : s.Idle) (hcfg : cfg.wf s.params = true) :
    exec (.enterTx cfg) s
      = .next (settle { ceLowered s with hostSeq := (enterTxWrites s.params cfg).map RegWrite.step }) := by
  obtain ⟨-, -, -, -, -, -, -, -, haddr⟩ := (txConfig_wf_iff cfg).mp hcfg
  have hsteps : hostSteps s.params (.enterTx cfg)
      = .op (opSetce .low) :: (enterTxWrites s.params cfg).map RegWrite.step := by
    have htake : cfg.addr.take cfg.width = cfg.addr := List.take_of_length_le haddr.le
    simp only [hostSteps, enterTxSteps, htake]
    rfl
  rw [exec_idle (i := .enterTx cfg) hs (if_pos hcfg), hsteps, settle_ceLowered (s.idle_iff.mp hs).1]

/-- On a chip that changes nothing by itself ENTERTX, where it returns, is the stores of its register writes. -/
theorem enterTx_returns_chip (hs : s.Idle) (hcfg : cfg.wf s.params = true) (hp : s.params.opcodesWf = true)
    (hcsn : s.csn = .high) (hq : Quiet s.env.replies) (h : exec (.enterTx cfg) s = .next t) (ht : t.busy = false) :
    t.chip = Chip.program s.params (enterTxWrites s.params cfg) s.chip := by
  rw [exec_enterTx hs hcfg, Host.Outcome.next.injEq] at h
  rw [← h] at ht ⊢
  exact settle_writes_chip (s := { ceLowered s with hostSeq := _ }) hp (s.idle_iff.mp hs).1 rfl hcsn hq ht

end

/-- Settles O36: SETCE(0) and seven register writes, each with its answers. -/
theorem enterTxAppliesTheConfigurationInOrder : Obligations.EnterTxAppliesTheConfigurationInOrder := by
  unfold Obligations.EnterTxAppliesTheConfigurationInOrder
  intro s cfg a0 a1 b0 b1 c0 c1 d0 d1 e0 es f0 f1 g0 gs rest hs hcfg he hes hgs
  obtain ⟨hb, hh⟩ := s.idle_iff.mp hs
  obtain ⟨-, -, -, -, -, -, -, -, haddr⟩ := (txConfig_wf_iff cfg).mp hcfg
  have hrun : settle { ceLowered s with hostSeq := (enterTxWrites s.params cfg).map RegWrite.step } = _ :=
    settle_writes (rest := rest) (ws := [⟨.byte _ _, a0, [a1], rfl⟩, ⟨.byte _ _, b0, [b1], rfl⟩,
      ⟨.byte _ _, c0, [c1], rfl⟩, ⟨.byte _ _, d0, [d1], rfl⟩, ⟨.bytes _ cfg.addr, e0, es, hes.trans haddr.symm⟩,
      ⟨.byte _ _, f0, [f1], rfl⟩, ⟨.bytes _ cfg.addr, g0, gs, hgs.trans haddr.symm⟩])
      hs (he.trans (by simp [AnsweredWrite.replies]))
  exact ⟨_, (exec_enterTx hs hcfg).trans (congrArg Host.Outcome.next hrun), rfl, rfl, rfl, hb, hh, rfl, rfl, rfl, rfl,
    rfl, rfl⟩

/-- Settles O50: the registers are all different, so each keeps what was written to it. -/
theorem enterTxProgramsTheRegisters : Obligations.EnterTxProgramsTheRegisters := by
  unfold Obligations.EnterTxProgramsTheRegisters
  intro s t cfg hs hp hcfg hcsn hq hnamed hdefined h hidle
  obtain ⟨-, -, -, -, -, -, -, hwidth, haddr⟩ := (txConfig_wf_iff cfg).mp hcfg
  have haddrs : [s.params.aSetupRetr, s.params.aRfSetup, s.params.aConfig, s.params.aRfCh, s.params.aTxAddr,
      s.params.aEnAa, s.params.aRxAddrP0] = (enterTxWrites s.params cfg).map RegWrite.addr := rfl
  rw [haddrs] at hnamed hdefined
  obtain ⟨hstatus, hfifo, hdiff⟩ : s.params.aStatus ∉ (enterTxWrites s.params cfg).map RegWrite.addr
      ∧ s.params.aFifoStatus ∉ (enterTxWrites s.params cfg).map RegWrite.addr
      ∧ ((enterTxWrites s.params cfg).map RegWrite.addr).Nodup := by
    rw [List.nodup_cons, List.nodup_cons, List.mem_cons, not_or] at hnamed
    exact ⟨hnamed.1.2, hnamed.2⟩
  rw [(later_exec _ s t h).params]
  have hchip := enterTx_returns_chip hs hcfg hp hcsn hq h ((State.idle_iff t).mp hidle).1
  have holds {w : RegWrite} (hw : w ∈ enterTxWrites s.params cfg) {j : Nat}
      (hx : regByteExists s.params w.addr j = true) (hl : j < w.data.length) :
      some (Chip.readByte s.params t.chip w.addr j) = w.data[j]? := by
    rw [hchip]
    exact Chip.readByte_program hdiff hstatus hw hx (fun e => hfifo (List.mem_map.mpr ⟨w, hw, e⟩)) hl s.chip
  have defined {w : RegWrite} (hw : w ∈ enterTxWrites s.params cfg) : w.addr.toNat ≤ 0x17 :=
    hdefined _ (List.mem_map.mpr ⟨w, hw, rfl⟩)
  have byte {a : RegAddr} {v : Byte} (hw : .byte a v ∈ enterTxWrites s.params cfg) :
      Chip.readByte s.params t.chip a 0 = v :=
    Option.some.inj (holds (w := .byte a v) hw (regByteExists_zero (defined hw)) Nat.one_pos)
  have address {a : RegAddr} (hw : .bytes a cfg.addr ∈ enterTxWrites s.params cfg)
      (ha : a = s.params.aTxAddr ∨ a = s.params.aRxAddrP0) {j : Nat} (hj : j < cfg.width) :
      some (Chip.readByte s.params t.chip a j) = cfg.addr[j]? :=
    holds hw (regByteExists_address ha (defined hw) (by omega)) (hj.trans_eq haddr.symm)
  have hconfig : .byte s.params.aConfig (packConfig s.params cfg) ∈ enterTxWrites s.params cfg := by
    simp [enterTxWrites]
  have mode : t.chip.mode = poweredMode s.params (packConfig s.params cfg) s.chip.mode := by
    rw [hchip]
    exact Chip.program_mode (ws := [.byte _ _, .byte _ _]) (defined hconfig)
      (fun e => hstatus (List.mem_map.mpr ⟨_, hconfig, e⟩)) hdiff s.chip
  exact ⟨byte (by simp [enterTxWrites]), byte (by simp [enterTxWrites, packRfSetup]), byte hconfig,
    byte (by simp [enterTxWrites, channelByte]), byte (by simp [enterTxWrites]), mode, fun j hj =>
      ⟨address (by simp [enterTxWrites]) (.inl rfl) hj, address (by simp [enterTxWrites]) (.inr rfl) hj⟩⟩

end Sys2Proof.Machine
end

section
/-! PROOF. What the host's sequences leave of the chip beside its registers (42_host_sequences.md section 2, 10_state.md
section 4): a run confined to some registers keeps whatever a store into those keeps. -/

namespace Sys2Proof.Machine

/-- A store to another register than RF_CH leaves the counter, whatever the place of RF_CH (log entry 26). -/
theorem Chip.store_keeps_counter {p : Params} {a : RegAddr} (ha : a ≠ p.aRfCh) (j : Nat) (v : Byte) (c : Chip) :
    (Chip.store p a j v c).counter = c.counter := by
  unfold Chip.store
  simp only [ha, ↓reduceIte]
  split
  · split <;> rfl
  · rfl

/-- What no store into the registers of `A` changes, a sequence that accesses those registers leaves as it was, whether
or not it returns. -/
theorem exec_confined_keeps {α : Type} {s t : State} {i : Instr} (h : exec i s = .next t)
    (hp : s.params.opcodesWf = true) (hq : Quiet s.env.replies) {A : RegAddr → Prop}
    (hsteps : ∀ x ∈ hostSteps s.params i, StepIn A x) (f : Chip → α)
    (hf : ∀ a j v c, A a → f (Chip.store s.params a j v c) = f c) : f t.chip = f s.chip := by
  rw [exec_eq_perform] at h
  obtain ⟨hs, -, rfl⟩ := perform_next i _ s t h
  exact settle_confined A (f · = f s.chip) _ s hp hs hq hsteps (fun a j v c ha hc => (hf a j v c ha).trans hc) rfl

section
variable (p : Params) {i : Instr}

/-- The sequences lower chip-enable and access registers, and do nothing else. -/
theorem stepIn_sequence (hi : i = .present ∨ (∃ cfg, i = .enterTx cfg) ∨ (∃ ch, i = .setCh ch) ∨ i = .pwrDn
    ∨ i = .wake ∨ ∃ level, i = .setPwr level) : ∀ x ∈ hostSteps p i, StepIn (fun _ => True) x := by
  obtain rfl | ⟨cfg, rfl⟩ | ⟨ch, rfl⟩ | rfl | rfl | ⟨level, rfl⟩ := hi
  · exact stepIn_present p _ trivial
  · exact stepIn_enterTx p _ cfg fun _ _ => trivial
  · exact stepIn_setCh p _ ch trivial
  · exact stepIn_pwrDn p _ trivial
  · exact stepIn_wake p _ trivial
  · exact stepIn_setPwr p _ level trivial

/-- All but SETCH and ENTERTX access TX_ADDR, CONFIG or RF_SETUP alone (R142, R145 to R147). -/
theorem stepIn_withoutChannel (hi : i = .present ∨ i = .pwrDn ∨ i = .wake ∨ ∃ level, i = .setPwr level) :
    ∀ x ∈ hostSteps p i, StepIn (· ∈ [p.aTxAddr, p.aConfig, p.aRfSetup]) x := by
  obtain rfl | rfl | rfl | ⟨level, rfl⟩ := hi
  · exact stepIn_present p _ (by simp)
  · exact stepIn_pwrDn p _ (by simp)
  · exact stepIn_wake p _ (by simp)
  · exact stepIn_setPwr p _ level (by simp)

/-- All but ENTERTX, PWRDN and WAKE access TX_ADDR, RF_CH or RF_SETUP alone (R142, R144, R147). -/
theorem stepIn_withoutConfig (hi : i = .present ∨ (∃ ch, i = .setCh ch) ∨ ∃ level, i = .setPwr level) :
    ∀ x ∈ hostSteps p i, StepIn (· ∈ [p.aTxAddr, p.aRfCh, p.aRfSetup]) x := by
  obtain rfl | ⟨ch, rfl⟩ | ⟨level, rfl⟩ := hi
  · exact stepIn_present p _ (by simp)
  · exact stepIn_setCh p _ ch (by simp)
  · exact stepIn_setPwr p _ level (by simp)

end

/-- Settles O53: the sequences store into registers and do nothing else to the chip; no store changes a queue, the trigger
or the retransmission counter, and only one to RF_CH the counter, only one to CONFIG the runtime state. -/
theorem sequencesLeaveTheQueuesAndTheCounters : Obligations.SequencesLeaveTheQueuesAndTheCounters := by
  unfold Obligations.SequencesLeaveTheQueuesAndTheCounters
  intro s t i _ hp hq hi h
  have hsteps := stepIn_sequence s.params hi
  have hqueues : (t.chip.txFifo, t.chip.rxFifo, t.chip.txStarted, t.chip.retransmits)
      = (s.chip.txFifo, s.chip.rxFifo, s.chip.txStarted, s.chip.retransmits) :=
    exec_confined_keeps h hp hq hsteps (fun c => (c.txFifo, c.rxFifo, c.txStarted, c.retransmits))
      fun a j v c _ => by simpa using Chip.store_frame s.params a j v c
  simp only [Prod.mk.injEq] at hqueues
  obtain ⟨htx, hrx, hstarted, hretransmits⟩ := hqueues
  refine ⟨htx, hrx, hstarted, hretransmits, fun hi hrf => ?_, fun hi hconfig => ?_⟩
  · exact exec_confined_keeps h hp hq (stepIn_withoutChannel s.params hi) (·.counter)
      fun a j v c ha => Chip.store_keeps_counter (ne_of_mem_of_not_mem ha hrf) j v c
  · exact exec_confined_keeps h hp hq (stepIn_withoutConfig s.params hi) (·.mode)
      fun a j v c ha => Chip.store_keeps_mode s.params a j v c (ne_of_mem_of_not_mem ha hconfig)

end Sys2Proof.Machine
end

section
/-! PROOF. The decoder and the encoder (30_encoding.md rules R50 to R53, R62, R64 and R65): each operation's encoding is the
one request that decodes to it, once the data bytes taken are filled in, and what the fields of an accepted host word
can be. -/

namespace Sys2Proof

/-! ### The fields of a host word -/

@[simp] theorem levelOf_levelByte (l : Level) : levelOf (levelByte l) = l := by
  cases l <;> rfl

@[simp] theorem countByte_toNat (b : Byte) : countByte b.toNat = b := by
  simp [countByte]

theorem toNat_countByte {n : Nat} (hn : n ≤ 255) : (countByte n).toNat = n :=
  Nat.mod_eq_of_lt (Nat.lt_succ_of_le hn)

/-- A field of a field is a field. -/
theorem extractLsb'_extractLsb' {n : Nat} (x : BitVec n) {i l j m : Nat} (h : j + m ≤ l) :
    (x.extractLsb' i l).extractLsb' j m = x.extractLsb' (i + j) m := by
  apply BitVec.eq_of_getLsbD_eq
  intro b hb
  simp [hb, show j + b < l by omega, Nat.add_assoc]

section
variable {w : BitVec 32}

/-- WBUF and TXPKT ask for `COUNT` data bytes. -/
theorem streamLength_of_opsel (h : wordOpsel w = 3#3 ∨ wordOpsel w = 4#3) :
    streamLength w = (wordCount w).toNat :=
  if_pos h

/-- A register address in `HEAD` keeps `HEAD`'s bits 7:5, the word's bits 23:21, zero (R51). -/
theorem headTop_of_regByte {a : RegAddr} (h : wordHead w = regByte a) : w.extractLsb' 21 3 = 0#3 := by
  have htop : ∀ a : RegAddr, (regByte a).extractLsb' 5 3 = 0#3 := by decide
  have hfield : (wordHead w).extractLsb' 5 3 = w.extractLsb' 21 3 := extractLsb'_extractLsb' w (by decide)
  rw [← hfield, h, htop]

/-- A level in `VAL` keeps `VAL`'s bits 7:1, the word's bits 15:9, zero (R67). -/
theorem valTop_of_levelByte {l : Level} (h : wordVal w = levelByte l) : w.extractLsb' 9 7 = 0#7 := by
  have hfield : (wordVal w).extractLsb' 1 7 = w.extractLsb' 9 7 := extractLsb'_extractLsb' w (by decide)
  rw [← hfield, h]
  cases l <;> rfl

end

/-! ### Wire commands -/

section
variable {p : Params} {h : Byte} {data : List Byte} {i : Instr}

/-- The seven commands are told apart by the command byte alone (R7, R53). -/
theorem decodeWire_of_encode (hp : p.opcodesWf = true) (hi : i.WellFormed p) (he : encode p i = .wire h data) :
    decodeWire p h data = .ok i := by
  obtain ⟨hr, hw, hrw, hdiff, hfixed⟩ := p.opcodesWf_iff.mp hp
  simp only [Params.fixedCommands, List.nodup_cons, List.mem_cons, List.not_mem_nil, or_false, not_or,
    forall_eq_or_imp, forall_eq] at hdiff hfixed
  rw [← inDomain_of_wellFormed p i hi]
  cases i with
  | rRegister a n =>
    cases he
    simp [decodeWire, opBits_or_regByte _ a hr, addrOf_or_regByte _ a hr]
  | wRegister a d =>
    cases he
    simp [decodeWire, opBits_or_regByte _ a hw, addrOf_or_regByte _ a hw, hrw.symm]
  | rRxPayload n =>
    cases he
    simp [decodeWire, hfixed]
  | wTxPayload | flushTx | flushRx | nop =>
    cases he
    simp [decodeWire, hfixed, hdiff, eq_comm]
  | _ => cases he

/-- No bit of an accepted command byte is ignored. -/
theorem encode_of_decodeWire (hd : decodeWire p h data = .ok i) : encode p i = .wire h (wireData p h data) := by
  unfold decodeWire at hd
  unfold wireData
  simp only [ite_or]
  split_ifs at hd ⊢ with hr hw hrx htx hft hfr hnop <;> obtain ⟨rfl, -⟩ := inDomain_ok _ _ _ hd
  · rw [encode, ← hr, opBits_or_addrOf]
  · rw [encode, ← hw, opBits_or_addrOf]
  · rw [encode, hrx]
  · rw [encode, htx]
  · rw [encode, hft]
  · rw [encode, hfr]
  · rw [encode, hnop]

end

/-! ### Host words -/

section
variable {p : Params} {w : BitVec 32} {data : List Byte} {i : Instr}

/-- A word with the fields of an operation decodes to it. -/
theorem decodeHost_of_hostFields (hi : i.WellFormed p) (hz : wordZero w = 0#4) (hf : HostFields w data i) :
    decodeHost p w data = .ok i := by
  rw [← inDomain_of_wellFormed p i hi]
  cases i with
  | wreg | rreg | rbufReg | rbufCmd | wbufReg | wbufCmd | txpkt | setce =>
    obtain ⟨ho, hs, hh, hv, hc⟩ := hf
    simp [decodeHost, require, addrOf_regByte, hz, ho, hs, hh, hv, hc]
  | _ => exact hf.elim

/-- A legal operation's number of data bytes fits the 8 bits of COUNT, so its word has all of its fields, and brings as
many bytes as it asks for (R62). -/
theorem hostFields_of_encode (hn : p.nMax ≤ 255) (hi : i.WellFormed p) (he : encode p i = .host w data) :
    wordZero w = 0#4 ∧ HostFields w data i ∧ data.length = streamLength w := by
  have count {m : Nat} (h : m ≤ p.nMax) : (countByte m).toNat = m := toNat_countByte (h.trans hn)
  cases i with
  | wreg | rreg | setce =>
    cases he
    simp [HostFields, hostWord_fields, streamLength]
  | rbufReg | wbufReg | txpkt =>
    cases he
    simp [HostFields, hostWord_fields, streamLength, count (illegalCount_none p _ hi)]
  | rbufCmd | wbufCmd =>
    cases he
    simp [HostFields, hostWord_fields, streamLength, count (illegalCommand_none p _ _ hi).2]
  | _ => cases he

/-- No bit of an accepted host word is ignored. -/
theorem encode_of_hostFields (hz : wordZero w = 0#4) (hf : HostFields w data i)
    (hl : data.length = streamLength w) : encode p i = .host w data := by
  have hw := hostWord_of_fields w hz
  have noData (h : ¬ (wordOpsel w = 3#3 ∨ wordOpsel w = 4#3)) : data = [] :=
    List.eq_nil_of_length_eq_zero (hl.trans (if_neg h))
  cases i with
  | wreg | rreg | setce =>
    obtain ⟨ho, hs, hh, hv, hc⟩ := hf
    rw [ho, hs, hh, hv, hc] at hw
    rw [encode, hw, noData (by simp [ho])]
  | rbufReg | rbufCmd =>
    obtain ⟨ho, hs, hh, hv, rfl⟩ := hf
    rw [ho, hs, hh, hv] at hw
    rw [encode, countByte_toNat, hw, noData (by simp [ho])]
  | wbufReg | wbufCmd | txpkt =>
    obtain ⟨ho, hs, hh, hv, rfl⟩ := hf
    rw [ho, hs, hh, hv] at hw
    rw [encode, hl, streamLength_of_opsel (by simp [ho]), countByte_toNat, hw]
  | _ => exact hf.elim

/-- The data bytes of WBUF and TXPKT are those taken from the stream, and `COUNT` is their number. -/
theorem hostFields_data {d : List Byte} (hf : HostFields w data i)
    (hi : (∃ a, i = .wbufReg a d) ∨ (∃ c, i = .wbufCmd c d) ∨ i = .txpkt d) :
    d = data ∧ streamLength w = (wordCount w).toNat := by
  obtain ⟨a, rfl⟩ | ⟨c, rfl⟩ | rfl := hi <;>
  · obtain ⟨ho, -, -, -, hd⟩ := hf
    exact ⟨hd, streamLength_of_opsel (by simp [ho])⟩

/-- An accepted word asks for no more data bytes than the block can hold (R37, D10). -/
theorem count_le_of_hostFields (hi : i.WellFormed p) (hf : HostFields w data i)
    (hl : data.length = streamLength w) : (wordCount w).toNat ≤ p.nMax := by
  have stream {d : List Byte} (h : (∃ a, i = .wbufReg a d) ∨ (∃ c, i = .wbufCmd c d) ∨ i = .txpkt d) :
      (wordCount w).toNat = d.length := by
    obtain ⟨rfl, hcount⟩ := hostFields_data hf h
    rw [hl, hcount]
  cases i with
  | wreg | rreg | setce =>
    obtain ⟨-, -, -, -, hc⟩ := hf
    simp [hc]
  | rbufReg a n =>
    obtain ⟨-, -, -, -, hc⟩ := hf
    exact hc.trans_le (illegalCount_none p n hi)
  | rbufCmd c n =>
    obtain ⟨-, -, -, -, hc⟩ := hf
    exact hc.trans_le (illegalCommand_none p c n hi).2
  | wbufReg a d => exact (stream (.inl ⟨a, rfl⟩)).trans_le (illegalCount_none p _ hi)
  | wbufCmd c d => exact (stream (.inr (.inl ⟨c, rfl⟩))).trans_le (illegalCommand_none p c _ hi).2
  | txpkt d => exact (stream (.inr (.inr rfl))).trans_le (illegalCount_none p _ hi)
  | _ => exact hf.elim

end

/-! ### The encoder and the decoder are inverse -/

theorem toInstr_of_encode {p : Params} {i : Instr} {op : PseudoOp} (he : encode p i = .pseudo op) : op.toInstr = i := by
  cases i with
  | present | enterTx cfg | setCh ch | pwrDn | wake | setPwr level | flushTxFifo =>
    cases he
    rfl
  | _ => cases he

/-- Settles O6, one space of the opcode table at a time. -/
theorem decodingAnEncodedOperationGivesItBack : Obligations.DecodingAnEncodedOperationGivesItBack := by
  unfold Obligations.DecodingAnEncodedOperationGivesItBack
  intro p i hp hi
  obtain ⟨hops, -, hmax, -⟩ := p.wf_parts hp
  cases he : encode p i with
  | wire h data => exact decodeWire_of_encode hops hi he
  | host w data =>
    obtain ⟨hz, hf, hl⟩ := hostFields_of_encode hmax hi he
    rw [decode, streamTaken_of_length 0 w data hl]
    exact decodeHost_of_hostFields hi hz hf
  | pseudo op =>
    rw [decode, toInstr_of_encode he]
    exact inDomain_of_wellFormed p i hi

/-- Settles O7: a command byte is its opcode bits and its address, a host word its six fields, and a name its operation. -/
theorem onlyTheEncodingDecodesToAnOperation : Obligations.OnlyTheEncodingDecodesToAnOperation := by
  unfold Obligations.OnlyTheEncodingDecodesToAnOperation
  intro p r i _ hd
  refine ⟨?_, Machine.wellFormed_of_decode hd⟩
  cases r with
  | wire h data => exact encode_of_decodeWire hd
  | host w data =>
    obtain ⟨-, hz, hf⟩ := decodeHost_ok p w _ i hd
    exact encode_of_hostFields hz hf (streamTaken_length 0 w data)
  | pseudo op =>
    obtain ⟨rfl, -⟩ := inDomain_ok p _ i hd
    cases op <;> rfl

/-- Settles O8, by decoding each of them. -/
theorem wordsOfTheSpecDecode : Obligations.WordsOfTheSpecDecode :=
  ⟨rfl, rfl, rfl, rfl, rfl, rfl, rfl⟩

/-! ### Accepted host words -/

/-- Settles O9: the fields of an accepted word are those of its operation's row, and its operation is in its domain. -/
theorem illegalHostWordsAreRejected : Obligations.IllegalHostWordsAreRejected := by
  unfold Obligations.IllegalHostWordsAreRejected
  intro p w data i hd
  obtain ⟨hi, hz, hf⟩ := decodeHost_ok p w _ i hd
  have hcount := count_le_of_hostFields hi hf (streamTaken_length 0 w data)
  simp only [← wordOpsel.eq_1, ← wordHeadsel.eq_1, ← wordZero.eq_1, ← wordHead.eq_1, ← wordVal.eq_1,
    ← wordCount.eq_1, hz, hcount]
  cases i with
  | wreg | rreg =>
    obtain ⟨ho, hs, hh, hv, hc⟩ := hf
    simp [ho, hs, hv, hc, headTop_of_regByte hh]
  | rbufReg | wbufReg =>
    obtain ⟨ho, hs, hh, hv, -⟩ := hf
    simp [ho, hs, hv, headTop_of_regByte hh]
  | rbufCmd | wbufCmd =>
    obtain ⟨ho, hs, rfl, hv, -⟩ := hf
    simp [ho, hs, hv, (illegalCommand_none p _ _ hi).1]
  | txpkt d =>
    obtain ⟨ho, hs, hh, hv, -⟩ := hf
    simp [ho, hs, hh, hv, headTop_of_regByte (a := 0#5) hh]
  | setce l =>
    obtain ⟨ho, hs, hh, hv, hc⟩ := hf
    simp [ho, hs, hh, hc, headTop_of_regByte (a := 0#5) hh, valTop_of_levelByte hv]
  | _ => exact hf.elim

/-- What a request matches, its word matches. -/
theorem and_mask_of_hostRow {r : Request} {w mask pat : BitVec 32} {data : List Byte} (hr : r = .host w data)
    (h : Laws.EncodedForm.HostRow mask pat r) : w &&& mask = pat := by
  obtain ⟨w', data', he, hm⟩ := h
  cases hr.symm.trans he
  exact hm

/-- Settles O10: an accepted word is its operation's encoding, which matches its row. -/
theorem acceptedHostWordsMatchTheirTableRow : Obligations.AcceptedHostWordsMatchTheirTableRow := by
  unfold Obligations.AcceptedHostWordsMatchTheirTableRow
  intro p w data i hd
  obtain ⟨-, hz, hf⟩ := decodeHost_ok p w _ i hd
  have he : encode Params.default i = .host w (streamTaken 0 w data) :=
    encode_of_hostFields hz hf (streamTaken_length 0 w data)
  cases i with
  | wreg a v => exact and_mask_of_hostRow he (Laws.EncodedForm.wreg a v)
  | rreg a => exact and_mask_of_hostRow he (Laws.EncodedForm.rreg a)
  | rbufReg a n => exact and_mask_of_hostRow he (Laws.EncodedForm.rbufReg a n)
  | rbufCmd c n => exact and_mask_of_hostRow he (Laws.EncodedForm.rbufCmd c n)
  | wbufReg a d => exact and_mask_of_hostRow he (Laws.EncodedForm.wbufReg a d)
  | wbufCmd c d => exact and_mask_of_hostRow he (Laws.EncodedForm.wbufCmd c d)
  | txpkt d => exact and_mask_of_hostRow he (Laws.EncodedForm.txpkt d)
  | setce l => exact and_mask_of_hostRow he (Laws.EncodedForm.setce l)
  | _ => exact hf.elim

/-- Settles O11: the bytes of the operation are the first `COUNT` of the completed stream. -/
theorem theBlockTakesCountBytesFromTheStream : Obligations.TheBlockTakesCountBytesFromTheStream := by
  unfold Obligations.TheBlockTakesCountBytesFromTheStream
  intro p w data d k i hd hi
  obtain ⟨-, -, hf⟩ := decodeHost_ok p w _ i hd
  rw [streamTaken_complete] at hf
  obtain ⟨rfl, hcount⟩ := hostFields_data hf hi
  rw [streamTaken_length]
  exact ⟨hcount, fun j hj => streamTaken_getElem? k w data j hj⟩

end Sys2Proof
end

section
/-! PROOF. Reset, and the step of an idle machine (70_reset_and_hazards.md rule R200, 40_command_framer.md rule R97). -/

namespace Sys2Proof.Machine

/-- Settles O1: nothing is in progress after reset and the command port is empty. -/
theorem resetLeavesLinesInactiveAndWaits : Obligations.ResetLeavesLinesInactiveAndWaits := by
  unfold Obligations.ResetLeavesLinesInactiveAndWaits
  exact ⟨⟨rfl, rfl, rfl, rfl, rfl, rfl⟩, fun p => ⟨rfl, rfl⟩, step_of_no_request rfl rfl⟩

/-- Settles O2: the three cases of an idle machine's step. -/
theorem stepDecodesAndPerformsTheNextRequest : Obligations.StepDecodesAndPerformsTheNextRequest := by
  unfold Obligations.StepDecodesAndPerformsTheNextRequest
  intro s hs
  exact ⟨fun hin => step_of_no_request hs hin, fun r rest hin =>
    ⟨fun i hd => step_of_decodes hs hin hd, fun e hd => step_of_undecodable hs hin hd⟩⟩

end Sys2Proof.Machine
end
